-- ==== Sys2Proof/Word.lean ====
section
/-! DEFINITION. The widths of the unit (00_scope.md R10): 32-bit registers and source addresses,
8-bit bytes, 64-bit cycle numbers. -/

namespace Sys2Proof

/-- A host register, a command word, a pulse item or a source address (R10). -/
abbrev Word := BitVec 32

/-- A byte of the source space (R100). -/
abbrev Byte := BitVec 8

/-- A cycle number: CYCLE, LAST_DISPLAY, STAT_START and the hidden timestamps (R10, R32). -/
abbrev Time := BitVec 64

end Sys2Proof
end

