-- ==== Sys2Proof/Config.lean ====
section
/-! DEFINITION. What an implementation fixes (the build parameters of 00_scope.md R9 and
92_eei_decisions.md), what the environment supplies in one cycle (10_state.md R34), and the free
values: the bytes and the inputs the spec leaves open. -/

namespace Sys2Proof

/-- The build parameters (R9). A machine carries them unchanged in its state, so that a statement
about every state is a statement about every build. `srcBacked` is SRC_BACKED as a list of ranges
`[lo, hi)` (R106). -/
structure Params where
  fClk : Nat
  nInst : Nat
  hasPulsegen : Bool
  nCh : Nat
  intTolSupported : Bool
  hasDebugPins : Bool
  fcAttempts : Nat
  pullMax : Nat
  fPeriph : Nat
  srcBacked : List (Nat × Nat)
  deriving DecidableEq, Repr

/-- The ranges of R9; "a value outside it is not a legal build". -/
abbrev Params.legal (p : Params) : Prop :=
  1 ≤ p.fClk ∧ (1 ≤ p.nInst ∧ p.nInst ≤ 8) ∧ (1 ≤ p.nCh ∧ p.nCh ≤ 15) ∧
    (1 ≤ p.fcAttempts ∧ p.fcAttempts ≤ 15) ∧ 8 ≤ p.pullMax ∧ 1 ≤ p.fPeriph

/-- The parameters of `State.reset`: the defaults of R9 where it gives one (N_INST, N_CH,
HAS_DEBUG_PINS, FC_ATTEMPTS). DESIGN CHOICE for the OPEN ones, unsafe: both optional features
present, 80 MHz for both clocks, PULL_MAX 64, every source address backed (log 3). No statement
rests on these values. -/
def Params.atReset : Params where
  fClk := 80000000
  nInst := 1
  hasPulsegen := true
  nCh := 8
  intTolSupported := true
  hasDebugPins := true
  fcAttempts := 4
  pullMax := 64
  fPeriph := 80000000
  srcBacked := [(0, 2 ^ 32)]

/-- What one peripheral channel does in one cycle where its contract leaves it free (R281 to R283):
`pull` asks for that many items (pg_pn, 16 bits, R251); `gaps` are the pauses before the items whose
turn comes in the cycle, in the time unit of `tickUnits`, back to back where none is listed ("Whether
the peripheral emits items back to back with no gap is its own property", R283); `latency` is how many
cycles after a transmission that ends in this cycle done rises (R281 item 6, finite);
`doneAfterStop` says whether a stop in this cycle is followed by done (R282). -/
structure ChanDraw where
  pull : Option (BitVec 16)
  gaps : List Nat
  latency : Nat
  doneAfterStop : Bool
  deriving DecidableEq, Repr, Inhabited

/-- A channel that pulls nothing in the cycle, emits back to back, and completes at once. -/
def ChanDraw.quiet : ChanDraw :=
  { pull := none, gaps := [], latency := 0, doneAfterStop := false }

/-- The environment's inputs of one cycle (R34, R390, R420): `rst_n` low, bit i of `preempt` is
PREEMPT of instance i, `stores` are the bytes of the source space that agents other than the hosts
change in the cycle (R115), entry j of `chans` is channel j's part (a missing entry is quiet). -/
structure Env where
  rstLow : Bool
  preempt : BitVec 8
  stores : List (Word × Byte)
  chans : List ChanDraw
  deriving DecidableEq, Repr, Inhabited

/-- Inputs of a cycle in which nothing happens. -/
def Env.quiet : Env := { rstLow := false, preempt := 0, stores := [], chans := [] }

/-- FREE VALUE (log 6): the byte of the n-th read that the spec calls unspecified: an address
outside SRC_BACKED (R106), or a byte modified during the command (R115). -/
opaque Config.freeByte : Nat → Byte

/-- FREE VALUE (log 5): what the source space holds at an address before anything is stored there, one
byte for each address (R104). The spec gives no contents. -/
opaque Config.initialByte : Nat → Byte

/-- FREE VALUE (log 2): the environment's inputs of a cycle for which `State.env` lists none. The
spec has PREEMPT, the completion latency and the channels' choices drawn (R391, R281 item 6). -/
opaque Config.freeEnv : Nat → Env

end Sys2Proof
end

