-- ==== Sys2Proof/Syntax.lean ====
section
/-! DEFINITION. The commands of the unit, the names of its host registers, and the statements of
host programs (30_encoding.md, 10_state.md R40). -/

namespace Sys2Proof

/-- The commands, one constructor per row of the opcode map (R133). `showFrame b` is SHOW with
brightness b, `forceClear n` is FORCE_CLEAR of n pixels. -/
inductive Instr where
  | nop
  | loadProfile
  | showFrame (b : Nat)
  | forceClear (n : Nat)
  | getStats
  | clearStats
  | beginLine
  deriving DecidableEq, Repr

/-- Why a command word is illegal (R135): a reserved OP, or a non-zero must-be-zero field. -/
inductive Illegal where
  | reservedOp (op : BitVec 8)
  | mustBeZero (op : BitVec 8)
  deriving DecidableEq, Repr

/-- The result of decoding a command word (R134). -/
inductive Decoded where
  | command (i : Instr)
  | illegal (why : Illegal)
  deriving DecidableEq, Repr

/-- The registers of the host window (R40). -/
inductive Reg where
  | id | ctrl | status | cmd
  | clkFreq | t0hNs | t1hNs | periodNs | resetNs | mindispNs
  | cycT0h | cycT1h | cycPeriod | cycReset | cycMindisp
  | slack | srcAddr | srcLen | periphFreq | hwTimeout
  | hwBit0 | hwBit1
  | statFrames | statAborted | statStartLo | statStartHi | statFps
  | lastDisplayLo | lastDisplayHi | cycleLo | cycleHi | pins
  deriving DecidableEq, Repr

/-- The size of a host bus access (R36, R101). -/
inductive AccessSize where
  | byte | half | word
  deriving DecidableEq, Repr

/-- What the host of one instance does, one statement after another: bus accesses, the pseudo
statements IDLE and WAIT_IDLE, and MEMW, a store of bytes to the source space (R137, R138). -/
inductive HostStmt where
  | read (off : BitVec 8) (size : AccessSize)
  | write (off : BitVec 8) (size : AccessSize) (data : Word)
  | idle (cycles : Nat)
  | waitIdle
  | memw (addr : Word) (bytes : List Byte)
  deriving DecidableEq, Repr

/-- A statement of the assembler (R137, R138). `cmd i` covers the seven command statements. -/
inductive AsmStmt where
  | wr (r : Reg) (imm : Word)
  | rd (r : Reg)
  | cmd (i : Instr)
  | raw (w : Word)
  | waitIdle
  | memw (addr : Word) (bytes : List Byte)
  | idle (k : Nat)
  | profile (f t0h t1h per rst min : Word)
  deriving DecidableEq, Repr

end Sys2Proof
end

