-- ==== Sys2Proof/Machine/State.lean ====
section
/-! DEFINITION. The state of the machine as plain data: every register, hidden register, pool slot
and peripheral channel of the spec (10_state.md, 42_hw_pulsegen.md R281), the source space, and the
model's own bookkeeping of inputs and outputs; the reset state (R81, R421). -/

namespace Sys2Proof.Machine

/-- The control point of the sequencer (R76). Codes 7 to 15 "are never produced". -/
inductive Phase where
  | idle | decode | gate | awaitSlot | holdHigh | finalLow | hwWait
  deriving DecidableEq, Repr

/-- The error codes of STATUS.ERR (R370). Codes 8 to 15 are "never produced". -/
inductive ErrCode where
  | none | overrun | poolEmpty | hwTimeout | cfgInvalid | illegalCmd | noProfile | badLength
  deriving DecidableEq, Repr

/-- The channel-order codes 0 to 5 (R150), named by π(0) π(1) π(2). Codes 6 and 7 are "not
writable". -/
inductive Order where
  | o012 | o021 | o102 | o120 | o201 | o210
  deriving DecidableEq, Repr

/-- CTRL (R42); its reserved bits read 0 and ignore writes. -/
structure Ctrl where
  backend : Bool
  intTol : Bool
  reorder : Bool
  order : Order
  dbgEn : Bool
  irqEn : Bool
  retry : BitVec 4
  deriving DecidableEq, Repr

/-- STATUS (R44) but for PHASE, which is the view of `phase` (R76). -/
structure Status where
  busy : Bool
  lastOk : Bool
  profileValid : Bool
  hwProfileValid : Bool
  irqPend : Bool
  wrIgnored : Bool
  err : ErrCode
  attempts : BitVec 8
  hwChan : BitVec 4
  deriving DecidableEq, Repr

/-- The host-written configuration registers other than CTRL (R46, R47, R49 to R52). -/
structure Settings where
  clkFreq : Word
  t0hNs : Word
  t1hNs : Word
  periodNs : Word
  resetNs : Word
  mindispNs : Word
  slack : Word
  srcAddr : Word
  srcLen : Word
  periphFreq : Word
  hwTimeout : Word
  deriving DecidableEq, Repr

/-- What LOAD_PROFILE writes: the cycle registers and templates (R48, R53) and the profile latches
(R67). -/
structure Profile where
  cycT0h : Word
  cycT1h : Word
  cycPeriod : Word
  cycReset : Word
  cycMindisp : Word
  hwBit0 : Word
  hwBit1 : Word
  fHz : BitVec 40
  kT0h : BitVec 15
  kT1h : BitVec 15
  kPeriod : BitVec 15
  deriving DecidableEq, Repr

/-- The statistics and the throttle reference (R54, R55). -/
structure Stats where
  frames : Word
  aborted : Word
  start : Time
  fps : Word
  lastDisplay : Time
  deriving DecidableEq, Repr

/-- The hidden registers of the sequencer (R60 to R66). -/
structure Hidden where
  cmdword : Word
  src : Word
  len : Word
  bright : Byte
  null : Bool
  cur : Byte
  mask : Byte
  cursor : Word
  eof : Bool
  first : Bool
  tStart : Time
  tHold : Word
  left : BitVec 4
  attempts : BitVec 8
  gateT : Time
  gateD : Word
  hwJ : Fin 15
  hwT : Time
  err : ErrCode
  deriving DecidableEq, Repr

/-- The output registers (R69). -/
structure Pins where
  dout : Bool
  doutOe : Bool
  dbgStart : Bool
  dbgAbort : Bool
  deriving DecidableEq, Repr

/-- One NPX instance (R30): its registers, hidden state and outputs. -/
structure Inst where
  ctrl : Ctrl
  status : Status
  cfg : Settings
  prof : Profile
  stats : Stats
  phase : Phase
  h : Hidden
  hiLatch : Word
  pins : Pins
  deriving DecidableEq, Repr

/-- A slot of the channel pool (R77). -/
structure Slot where
  inUse : Bool
  owner : Fin 8
  srcLo : Word
  srcHi : BitVec 33
  null : Bool
  vlen : Word
  bit0 : Word
  bit1 : Word
  bright : Byte
  reorder : Bool
  order : Order
  deriving DecidableEq, Repr

/-- Where a channel's transmission stands (R281 items 1, 3, 5, 6): none under way, running, or ended
with done not yet raised. -/
inductive ChanPhase where
  | idle | running | ended
  deriving DecidableEq, Repr

/-- A pulse-generator channel as its contract describes it (R281): the done level, its own cursor
(a, r), the items received and not yet emitted, the time `pos` already spent on the first of them, the
pause `wait` still to pass before it begins (both in the unit of `tickUnits`), and, once the
transmission has ended, the cycles `lag` until done rises. -/
structure Channel where
  phase : ChanPhase
  done : Bool
  addr : Word
  rem : Word
  fifo : List Word
  pos : Nat
  wait : Nat
  lag : Nat
  deriving DecidableEq, Repr

/-- A kick: channel, base and length on the peripheral port (R255). -/
structure Kick where
  chan : Fin 15
  base : Word
  len : Word
  deriving DecidableEq, Repr

/-- A pull and its answer on the peripheral port, at the port's widths (R251, R266): `pg_paddr`,
`pg_prem`, `pg_pn`, `pg_pitems`, `pg_pcount`, `pg_pused`. -/
structure PullAnswer where
  chan : Fin 15
  addr : Word
  rem : Word
  wanted : BitVec 16
  items : List Word
  count : BitVec 16
  used : Word
  deriving DecidableEq, Repr

/-- For whom a source byte is read: `inst` is the instance on whose port the request stands and whose
command it serves, `via` the instance whose frame metadata the read goes through (another one only
where ranges overlap, R272), `chan` the channel whose pull asks for it, none for a sequencer. -/
structure Reader where
  inst : Fin 8
  via : Fin 8
  chan : Option (Fin 15)
  deriving DecidableEq, Repr

/-- A read on the source port, `m_req = 1` with `m_addr` (R36, R104). -/
structure MemRead where
  reader : Reader
  addr : Word
  deriving DecidableEq, Repr

/-- What the ports showed in the cycle just performed (R36, R251): the value each host read
returned, the source reads in order (m_req, m_addr; log 24), kicks, stops and pull answers, and the
bytes the hosts stored to the source space. -/
structure Ports where
  rdata : Vector (Option Word) 8
  reads : List MemRead
  kicks : List Kick
  stops : List (Fin 15)
  pulls : List PullAnswer
  stores : List (Word × Byte)
  deriving DecidableEq, Repr

/-- The source space (R100): the bytes stored since power-on, by address, strictly rising. An unlisted
address holds `Config.initialByte` of it, which no proof can compare with a stored byte, so no entry
can be called superfluous (log 5). -/
abbrev Memory := List Host.Cell

/-- The whole machine. `cycle` is CYCLE (R32), one counter for all instances since they leave reset
together (R407, log 7). `params` never changes. `hosts`, `env`, `draws`, `raced`, `ports`, `arb` and
`cur` are the model's own (log 14): the hosts' coming statements, the coming inputs, the counter free
values are applied to, the addresses modified during each instance's command, the ports of the last
cycle, the slots still to be granted in this cycle, and the instance `exec` acts on. -/
structure State where
  params : Params
  cycle : Time
  insts : Vector Inst 8
  pool : Vector Slot 15
  chans : Vector Channel 15
  mem : Memory
  hosts : Vector (List HostStmt) 8
  env : List Env
  draws : Nat
  raced : Vector (List Word) 8
  ports : Ports
  arb : List (Fin 15)
  cur : Fin 8
  deriving DecidableEq, Repr

/-- Why the machine stops. -/
inductive Fault where
  /-- Raised by `step` when the build parameters are outside the ranges of R9, which is "not a legal
  build": the spec describes no such machine. Safe: the model stops. -/
  | illegalBuild
  deriving DecidableEq, Repr

/-- Why an instruction has no meaning. -/
inductive Refusal where
  /-- Raised by `exec` alone, for an instruction without a meaning; no arm of this model raises it.
  Safe: the model stops. -/
  | notModelled (mnemonic : String)
  deriving DecidableEq, Repr

/-- CTRL after reset: 0 (R40, R422). -/
def Ctrl.reset : Ctrl where
  backend := false
  intTol := false
  reorder := false
  order := .o012
  dbgEn := false
  irqEn := false
  retry := 0

/-- STATUS after reset: 0x0F000000, HW_CHAN = 0xF and all else 0 (R40, R81). -/
def Status.reset : Status where
  busy := false
  lastOk := false
  profileValid := false
  hwProfileValid := false
  irqPend := false
  wrIgnored := false
  err := .none
  attempts := 0
  hwChan := 0xF

/-- The configuration registers after reset: 0, HW_TIMEOUT 0xFFFFFFFF (R40). -/
def Settings.reset : Settings where
  clkFreq := 0
  t0hNs := 0
  t1hNs := 0
  periodNs := 0
  resetNs := 0
  mindispNs := 0
  slack := 0
  srcAddr := 0
  srcLen := 0
  periphFreq := 0
  hwTimeout := 0xFFFFFFFF

/-- The profile after reset: 0 (R40, R81). -/
def Profile.reset : Profile where
  cycT0h := 0
  cycT1h := 0
  cycPeriod := 0
  cycReset := 0
  cycMindisp := 0
  hwBit0 := 0
  hwBit1 := 0
  fHz := 0
  kT0h := 0
  kT1h := 0
  kPeriod := 0

/-- The statistics after reset: 0 (R40). -/
def Stats.reset : Stats where
  frames := 0
  aborted := 0
  start := 0
  fps := 0
  lastDisplay := 0

/-- The hidden state after reset: "every `h.*` of rules R60 to R68 | 0" (R81). -/
def Hidden.reset : Hidden where
  cmdword := 0
  src := 0
  len := 0
  bright := 0
  null := false
  cur := 0
  mask := 0
  cursor := 0
  eof := false
  first := false
  tStart := 0
  tHold := 0
  left := 0
  attempts := 0
  gateT := 0
  gateD := 0
  hwJ := 0
  hwT := 0
  err := .none

/-- The outputs after reset: 0, the data line not driven (R81, R423). -/
def Pins.reset : Pins where
  dout := false
  doutOe := false
  dbgStart := false
  dbgAbort := false

/-- An instance after reset (R81). -/
def Inst.reset : Inst where
  ctrl := Ctrl.reset
  status := Status.reset
  cfg := Settings.reset
  prof := Profile.reset
  stats := Stats.reset
  phase := .idle
  h := Hidden.reset
  hiLatch := 0
  pins := Pins.reset

/-- A pool slot after reset and after release: "all fields 0" (R77, R277). -/
def Slot.reset : Slot where
  inUse := false
  owner := 0
  srcLo := 0
  srcHi := 0
  null := false
  vlen := 0
  bit0 := 0
  bit1 := 0
  bright := 0
  reorder := false
  order := .o012

/-- A channel at the machine's first reset: "assumed idle" (R81). Its other fields are DESIGN CHOICE
(log 11), read by nothing before a kick sets them. -/
def Channel.reset : Channel where
  phase := .idle
  done := false
  addr := 0
  rem := 0
  fifo := []
  pos := 0
  wait := 0
  lag := 0

/-- Ports that show nothing. -/
def Ports.quiet : Ports where
  rdata := Vector.replicate 8 none
  reads := []
  kicks := []
  stops := []
  pulls := []
  stores := []

/-- The machine of a given build right after reset (R81, R421): nothing known of the source space,
no host statement and no input listed. -/
def State.resetOf (p : Params) : State where
  params := p
  cycle := 0
  insts := Vector.replicate 8 Inst.reset
  pool := Vector.replicate 15 Slot.reset
  chans := Vector.replicate 15 Channel.reset
  mem := []
  hosts := Vector.replicate 8 []
  env := []
  draws := 0
  raced := Vector.replicate 8 []
  ports := Ports.quiet
  arb := []
  cur := 0

/-- The machine right after reset (R81). -/
def State.reset : State := State.resetOf Params.atReset

end Sys2Proof.Machine
end

