-- ==== Sys2Proof/Machine/Operands.lean ====
section
/-! DEFINITION. Operand computations: saturation and elapsed time (00_scope.md R14, 10_state.md R33),
the frequency and cycle conversions (40_profile.md R171, R172), pulse items (30_encoding.md R155,
R156), the channel order, byte address and brightness scaling (30_encoding.md R150, 41_sw_encoder.md
R201, R202), and the nanosecond view (70_reset_and_hazards.md R451). -/

namespace Sys2Proof.Machine

/-- `sat32(v) = min(v, 0xFFFFFFFF)` (R14). -/
def sat32 (v : Nat) : Word := BitVec.ofNat 32 (min v 0xFFFFFFFF)

/-- `now − T` (R33). DESIGN CHOICE, unsafe (log 8): where the counter has wrapped, or T is later than
now, the difference is taken modulo 2^64. -/
def elapsed (now t : Time) : Nat := (now - t).toNat

/-- `F_Hz(f)`: below 1,000,000 the value is MHz, otherwise Hz (R171). -/
def freqHz (f : Word) : Nat :=
  if f.toNat < 1000000 then f.toNat * 1000000 else f.toNat

/-- `conv(f, ns) = floor(F_Hz(f) × ns / 10^9)`, exact (R172). -/
def conv (f ns : Word) : Nat := freqHz f * ns.toNat / 1000000000

/-- `item(d0, l0, d1, l1) = {l1, d1[14:0], l0, d0[14:0]}` (R155, R156). -/
def item (d0 : BitVec 15) (l0 : Bool) (d1 : BitVec 15) (l1 : Bool) : Word :=
  BitVec.ofBool l1 ++ d1 ++ BitVec.ofBool l0 ++ d0

/-- `d0 = it[14:0]` (R155). -/
def itemD0 (it : Word) : Nat := (it.extractLsb' 0 15).toNat

/-- `l0 = it[15]` (R155). -/
def itemL0 (it : Word) : Bool := it.getLsbD 15

/-- `d1 = it[30:16]` (R155). -/
def itemD1 (it : Word) : Nat := (it.extractLsb' 16 15).toNat

/-- `l1 = it[31]` (R155). -/
def itemL1 (it : Word) : Bool := it.getLsbD 31

/-- The idle item, the all-zero word (R157). -/
def idleItem : Word := 0

/-- The template of a bit with high time `k` in a period of `kp` ticks (R156). -/
def template (k kp : BitVec 15) : Word := item k true (kp - k) false

/-- The three-bit code of a channel order (R150). -/
def Order.code : Order → BitVec 3
  | .o012 => 0
  | .o021 => 1
  | .o102 => 2
  | .o120 => 3
  | .o201 => 4
  | .o210 => 5

/-- The channel order of a code; 6 and 7 are not writable (R150). -/
def orderOf (c : BitVec 3) : Option Order :=
  if c = 0 then some .o012
  else if c = 1 then some .o021
  else if c = 2 then some .o102
  else if c = 3 then some .o120
  else if c = 4 then some .o201
  else if c = 5 then some .o210
  else none

/-- `π(k)` for `k = 0, 1, 2` (R150): the offset within the pixel of the byte sent k-th. -/
def Order.perm (o : Order) (k : Nat) : Nat :=
  match o with
  | .o012 => if k = 0 then 0 else if k = 1 then 1 else 2
  | .o021 => if k = 0 then 0 else if k = 1 then 2 else 1
  | .o102 => if k = 0 then 1 else if k = 1 then 0 else 2
  | .o120 => if k = 0 then 1 else if k = 1 then 2 else 0
  | .o201 => if k = 0 then 2 else if k = 1 then 0 else 1
  | .o210 => if k = 0 then 2 else if k = 1 then 1 else 0

/-- The offset from the base of the byte sent i-th (R202). -/
def byteOffset (reorder : Bool) (o : Order) (i : Nat) : Nat :=
  if reorder then 3 * (i / 3) + o.perm (i % 3) else i

/-- `addr(i)` (R202), on the 32-bit address port (R104). -/
def byteAddr (base : Word) (reorder : Bool) (o : Order) (i : Nat) : Word :=
  base + BitVec.ofNat 32 (byteOffset reorder o i)

/-- `scale(v, b)`: 0 if b = 0, else `(v × (b + 1)) >> 8` (R201). -/
def scale (v b : Byte) : Byte :=
  if b = 0 then 0 else BitVec.ofNat 8 ((v.toNat * (b.toNat + 1)) >>> 8)

/-- The bits of a byte in the order they are sent, most significant first (R204). -/
def bitsMsbFirst (v : Byte) : List Bool :=
  [v.getLsbD 7, v.getLsbD 6, v.getLsbD 5, v.getLsbD 4,
   v.getLsbD 3, v.getLsbD 2, v.getLsbD 1, v.getLsbD 0]

/-- The items of one byte, a template per bit (R267). -/
def byteItems (bit0 bit1 : Word) (v : Byte) : List Word :=
  (bitsMsbFirst v).map (fun b => if b then bit1 else bit0)

/-- "x[SRC_ADDR] + x[SRC_LEN] > 2^32 ; computed on 33 bits" (R300). -/
def rangeTooLong (addr len : Word) : Bool := decide (addr.toNat + len.toNat > 2 ^ 32)

/-- The end of a source range, 33 bits (R254). -/
def rangeEnd (src len : Word) : BitVec 33 := BitVec.ofNat 33 (src.toNat + len.toNat)

/-- "a duration of k cycles is `k × 10^9 / F_CLK` nanoseconds" (R451). DESIGN CHOICE (log 33): with the
counts of R172 a wrong CLK_FREQ so scales every duration by `F_Hz(CLK_FREQ) / F_CLK`; R433 gives the
inverse of that factor beside the same "cycle count times `1 / F_CLK`", and the model follows the latter. -/
def cyclesNs (p : Params) (k : Nat) : Rat := (k : Rat) * 1000000000 / (p.fClk : Rat)

/-- The same of a peripheral channel's ticks, whose actual rate is F_PERIPH (R9, R433; the factor of
a wrong PERIPH_FREQ: log 33). -/
def ticksNs (p : Params) (k : Nat) : Rat := (k : Rat) * 1000000000 / (p.fPeriph : Rat)

end Sys2Proof.Machine
end

