-- ==== Sys2Proof/Machine/Flags.lean ====
section
/-! DEFINITION. The words of STATUS, CTRL and PINS, the codes of phase and error, CTRL legalisation,
write-one-to-clear, the IRQ output and the stall condition (10_state.md R42 to R44, R57, R76,
60_exceptions.md R370, R385, R390). -/

namespace Sys2Proof.Machine

/-- The code of a phase in STATUS.PHASE (R76). -/
def Phase.code : Phase → BitVec 4
  | .idle => 0
  | .decode => 1
  | .gate => 2
  | .awaitSlot => 3
  | .holdHigh => 4
  | .finalLow => 5
  | .hwWait => 6

/-- The code in STATUS.ERR (R370). -/
def ErrCode.code : ErrCode → BitVec 4
  | .none => 0
  | .overrun => 1
  | .poolEmpty => 2
  | .hwTimeout => 3
  | .cfgInvalid => 4
  | .illegalCmd => 5
  | .noProfile => 6
  | .badLength => 7

/-- CTRL as the host reads it (R42). -/
def Ctrl.word (c : Ctrl) : Word :=
  (0 : BitVec 20) ++ c.retry ++ BitVec.ofBool c.irqEn ++ BitVec.ofBool c.dbgEn ++ c.order.code ++
    BitVec.ofBool c.reorder ++ BitVec.ofBool c.intTol ++ BitVec.ofBool c.backend

/-- STATUS as the host reads it (R44). -/
def statusWord (st : Status) (ph : Phase) : Word :=
  (0 : BitVec 4) ++ st.hwChan ++ st.attempts ++ ph.code ++ st.err.code ++ (0 : BitVec 2) ++
    BitVec.ofBool st.wrIgnored ++ BitVec.ofBool st.irqPend ++ BitVec.ofBool st.hwProfileValid ++
    BitVec.ofBool st.profileValid ++ BitVec.ofBool st.lastOk ++ BitVec.ofBool st.busy

/-- The line is routed to the pulse generator (R57, R279). -/
def Inst.routed (x : Inst) : Bool := decide (x.phase = .hwWait)

/-- PINS as the host reads it (R57). -/
def pinsWord (x : Inst) : Word :=
  (0 : BitVec 27) ++ BitVec.ofBool x.routed ++ BitVec.ofBool x.pins.dbgAbort ++
    BitVec.ofBool x.pins.dbgStart ++ BitVec.ofBool x.pins.doutOe ++ BitVec.ofBool x.pins.dout

/-- Steps (1) and (2) of a CTRL write: the hardwired fields and the ORDER field (R43). -/
def ctrlLegalised (p : Params) (old : Ctrl) (w : Word) : Ctrl where
  backend := w.getLsbD 0 && p.hasPulsegen
  intTol := w.getLsbD 1 && p.intTolSupported
  reorder := w.getLsbD 2
  order := (orderOf (w.extractLsb' 3 3)).getD old.order
  dbgEn := w.getLsbD 6 && p.hasDebugPins
  irqEn := w.getLsbD 7
  retry := w.extractLsb' 8 4

/-- A retry budget without interrupt tolerance, "a configuration error" (R43 step (3)). -/
def Ctrl.budgetInvalid (c : Ctrl) : Bool := !c.intTol && decide (c.retry ≠ 0)

/-- STATUS.WR_IGNORED set by a dropped or rejected write (R44). -/
def Inst.markIgnored (x : Inst) : Inst :=
  { x with status := { x.status with wrIgnored := true } }

/-- A host write of CTRL while not BUSY (R43, R373). -/
def Inst.writeCtrl (p : Params) (w : Word) (x : Inst) : Inst :=
  if (ctrlLegalised p x.ctrl w).budgetInvalid then
    { x with status := { x.status with wrIgnored := true, err := .cfgInvalid } }
  else { x with ctrl := ctrlLegalised p x.ctrl w }

/-- A host write of STATUS: one clears IRQ_PEND and WR_IGNORED (R44). -/
def Inst.writeStatus (w : Word) (x : Inst) : Inst :=
  { x with status := { x.status with
      irqPend := x.status.irqPend && !w.getLsbD 4
      wrIgnored := x.status.wrIgnored && !w.getLsbD 5 } }

/-- `IRQ = IRQ_EN AND IRQ_PEND` (R385). -/
def Inst.irq (x : Inst) : Bool := x.ctrl.irqEn && x.status.irqPend

/-- The phases of the software bit loop (R390). -/
def Phase.isBitLoop : Phase → Bool
  | .awaitSlot => true
  | .holdHigh => true
  | .finalLow => true
  | .idle => false
  | .decode => false
  | .gate => false
  | .hwWait => false

/-- `stalled_c = PREEMPT_c AND (INT_TOL = 1 OR phase ∉ {AWAIT_SLOT, HOLD_HIGH, FINAL_LOW})` (R390). -/
def Inst.stalled (preempt : Bool) (x : Inst) : Bool :=
  preempt && (x.ctrl.intTol || !x.phase.isBitLoop)

/-- "no valid profile for the selected backend" (R300, R341, R370). -/
def Inst.noProfile (x : Inst) : Bool :=
  !x.status.profileValid || (x.ctrl.backend && !x.status.hwProfileValid)

end Sys2Proof.Machine
end

