-- ==== Sys2Proof/Machine/Ops.lean ====
section
/-! DEFINITION. The named operations: one instance's access to the machine, the source space and its
read port (20_memory.md R104, R106, R115), and the end of a command and of an attempt, which stand in
for taking an exception and returning from one (60_exceptions.md R380, R383, 43_show_retry_throttle.md
R306, R307, 44_forceclear_stats_misc.md R341). -/

namespace Sys2Proof.Machine

/-- Instance k. -/
def State.instAt (s : State) (k : Fin 8) : Inst := s.insts[k.val]

/-- The machine with instance k replaced. -/
def State.setInstAt (s : State) (k : Fin 8) (x : Inst) : State :=
  { s with insts := s.insts.set k x }

/-- The instance the rule runs in (R16). -/
def State.inst (s : State) : Inst := s.instAt s.cur

/-- The machine with the acting instance changed by `f`. -/
def State.onInst (s : State) (f : Inst → Inst) : State := s.setInstAt s.cur (f s.inst)

/-- Pool slot j (R77). -/
def State.slotAt (s : State) (j : Fin 15) : Slot := s.pool[j.val]

/-- The machine with pool slot j replaced. -/
def State.setSlotAt (s : State) (j : Fin 15) (x : Slot) : State :=
  { s with pool := s.pool.set j x }

/-- Peripheral channel j (R251). -/
def State.chanAt (s : State) (j : Fin 15) : Channel := s.chans[j.val]

/-- The machine with channel j replaced. -/
def State.setChanAt (s : State) (j : Fin 15) (c : Channel) : State :=
  { s with chans := s.chans.set j c }

/-- The byte known at an address; none where the source space lists nothing (R106). -/
def memFind : Memory → Nat → Option Byte
  | [], _ => none
  | (a, b) :: rest, x => if x = a then some b else memFind rest x

/-- The source space after a store by an agent outside the unit, in its canonical form. The unit
itself never stores (R105). -/
def memStore : Memory → Nat → Byte → Memory
  | [], x, v => [(x, v)]
  | (a, b) :: rest, x, v =>
    if x < a then (x, v) :: (a, b) :: rest
    else if x = a then (x, v) :: rest
    else (a, b) :: memStore rest x v

/-- Addresses strictly rising from a bound on, and below 2^32. -/
def memWfFrom : Nat → Memory → Bool
  | _, [] => true
  | lo, (a, _) :: rest => decide (lo ≤ a) && decide (a < 2 ^ 32) && memWfFrom (a + 1) rest

/-- The canonical form of the source space: sorted, no repeats, inside the 32-bit space (log 5). -/
def Memory.wf (m : Memory) : Bool := memWfFrom 0 m

/-- The address is in SRC_BACKED (R106). -/
def isBacked (p : Params) (a : Nat) : Bool :=
  p.srcBacked.any (fun r => decide (r.1 ≤ a) && decide (a < r.2))

/-- `M_c[a]`, the content of the source space at an address (R104). -/
def memByte (m : Memory) (a : Nat) : Byte := (memFind m a).getD (Config.initialByte a)

/-- The address is a byte of instance k's source range modified during k's command (R115). -/
def State.racedFor (s : State) (k : Fin 8) (a : Word) : Bool :=
  (s.raced[k.val]).contains a && decide ((s.instAt k).h.src.toNat ≤ a.toNat) &&
    decide (a.toNat < (s.instAt k).h.src.toNat + (s.instAt k).h.len.toNat)

/-- The byte a read delivers as far as the spec fixes it: M_c[a], but nothing outside SRC_BACKED
(R106) nor for a byte modified during the command the read serves (R115). Where a pull goes through
another instance's slot (R272) the byte is unspecified if it was modified during either command: each
has it in its source range. -/
def State.byteKnown (s : State) (r : Reader) (a : Word) : Option Byte :=
  if isBacked s.params a.toNat && !s.racedFor r.inst a && !s.racedFor r.via a then
    some (memByte s.mem a.toNat)
  else none

/-- The request stands on the reader's port (R36, R104). -/
def State.logRead (s : State) (r : Reader) (a : Word) : State :=
  { s with ports := { s.ports with reads := s.ports.reads ++ [{ reader := r, addr := a }] } }

/-- The addresses on instance k's port in the cycle just performed (R36). -/
def State.readsOf (s : State) (k : Fin 8) : List Word :=
  (s.ports.reads.filter (fun m => m.reader.inst == k)).map MemRead.addr

/-- A free value has been drawn. -/
def State.drawn (s : State) : State := { s with draws := s.draws + 1 }

/-- The byte `MemRead(a, 1)` delivers (R104, R106, R115). -/
def memReadByte (s : State) (r : Reader) (a : Word) : Byte :=
  (s.byteKnown r a).getD (Config.freeByte s.draws)

/-- The machine after `MemRead(a, 1)`: the port has shown the address, and a draw has been spent if the
byte was unspecified. -/
def memReadState (s : State) (r : Reader) (a : Word) : State :=
  if (s.byteKnown r a).isSome then s.logRead r a else (s.logRead r a).drawn

/-- `pin <- v` (R17). -/
def Inst.setPin (v : Bool) (x : Inst) : Inst := { x with pins := { x.pins with dout := v } }

/-- `DOUT_OE <- 1; pin <- 0` (R341, R358). -/
def Inst.driveLow (x : Inst) : Inst :=
  { x with pins := { x.pins with doutOe := true, dout := false } }

/-- `dbg_toggle(DBG_START)`, only when DBG_EN = 1 (R304, R402). -/
def Inst.toggleStart (x : Inst) : Inst :=
  if x.ctrl.dbgEn then { x with pins := { x.pins with dbgStart := !x.pins.dbgStart } } else x

/-- `dbg_toggle(DBG_ABORT)`, only when DBG_EN = 1 (R306, R402). -/
def Inst.toggleAbort (x : Inst) : Inst :=
  if x.ctrl.dbgEn then { x with pins := { x.pins with dbgAbort := !x.pins.dbgAbort } } else x

/-- `finish(ok, code)`, the end of a command (R380). -/
def Inst.finish (ok : Bool) (code : ErrCode) (x : Inst) : Inst :=
  { x with
    status := { x.status with
      lastOk := ok
      err := if ok then .none else code
      busy := false
      irqPend := true }
    phase := .idle }

/-- `h.gate_t <- t; h.gate_d <- d; phase <- GATE` (R303). -/
def Inst.enterGate (t : Time) (d : Word) (x : Inst) : Inst :=
  { x with h := { x.h with gateT := t, gateD := d }, phase := .gate }

/-- `max(CYC_RESET, CYC_MINDISP)`, the SHOW retry gap (R303). -/
def Inst.retryGap (x : Inst) : Word :=
  BitVec.ofNat 32 (max x.prof.cycReset.toNat x.prof.cycMindisp.toNat)

/-- The command that owns the attempt is SHOW: `h.cmdword[7:0] = 0x02` (R306). -/
def Inst.ownedByShow (x : Inst) : Bool := decide (x.h.cmdword.extractLsb' 0 8 = 0x02)

/-- `record_stats(ok, f)` (R307). -/
def Inst.recordStats (ok : Bool) (f : Time) (x : Inst) : Inst :=
  { x with stats := { x.stats with
      lastDisplay := f
      frames := sat32 (x.stats.frames.toNat + 1)
      aborted := if ok then x.stats.aborted else sat32 (x.stats.aborted.toNat + 1) } }

/-- `x[LAST_DISPLAY] <- f` (R306, R346). -/
def Inst.stampDisplay (f : Time) (x : Inst) : Inst :=
  { x with stats := { x.stats with lastDisplay := f } }

/-- `h.left <- h.left − 1` (R306, R341). -/
def Inst.spendRetry (x : Inst) : Inst := { x with h := { x.h with left := x.h.left - 1 } }

/-- `fc_after_fail(f)` (R341). -/
def Inst.forceClearAfterFail (f : Time) (x : Inst) : Inst :=
  if x.h.left = 0 then x.finish false x.h.err
  else x.spendRetry.enterGate f x.prof.cycReset

/-- What follows a failed SHOW attempt ending in cycle f (R306). -/
def Inst.showAfterFail (f : Time) (x : Inst) : Inst :=
  if x.h.left = 0 then x.finish false x.h.err
  else x.spendRetry.enterGate f x.retryGap

/-- The bookkeeping of an attempt's end: the statistics of a SHOW, the throttle stamp of a
FORCE_CLEAR (R306). -/
def Inst.noteEnd (ok : Bool) (f : Time) (x : Inst) : Inst :=
  if x.ownedByShow then x.recordStats ok f else x.stampDisplay f

/-- `h.err <- code`, and the abort trigger (R306). -/
def Inst.noteError (code : ErrCode) (x : Inst) : Inst :=
  ({ x with h := { x.h with err := code } } : Inst).toggleAbort

/-- `end_attempt(ok, code)` in cycle f (R306). -/
def Inst.endAttempt (ok : Bool) (code : ErrCode) (f : Time) (x : Inst) : Inst :=
  if ok then (x.noteEnd true f).finish true .none
  else if x.ownedByShow then ((x.noteEnd false f).noteError code).showAfterFail f
  else ((x.noteEnd false f).noteError code).forceClearAfterFail f

/-- `fail_attempt(code)` in cycle f (R18, R306). -/
def Inst.failAttempt (code : ErrCode) (f : Time) (x : Inst) : Inst :=
  x.endAttempt false code f

end Sys2Proof.Machine
end

