-- ==== Sys2Proof/Machine/SoftBackend.lean ====
section
/-! DEFINITION. The byte source and the software backend, the GPIO bit sequencer
(41_sw_encoder.md R200 to R228). -/

namespace Sys2Proof.Machine

/-- "no MemRead at all": brightness 0 or no source buffer (R203). -/
def Inst.silent (x : Inst) : Bool := decide (x.h.bright = 0) || x.h.null

/-- The address of byte i of the frame (R202). -/
def Inst.frameAddr (x : Inst) (i : Nat) : Word :=
  byteAddr x.h.src x.ctrl.reorder x.ctrl.order i

/-- A sequencer reads for its own command. -/
def Reader.sequencer (k : Fin 8) : Reader := { inst := k, via := k, chan := none }

/-- `fetch(i)` for the acting instance: the byte (R203). -/
def fetchByte (s : State) (i : Nat) : Byte :=
  if s.inst.silent then 0
  else scale (memReadByte s (.sequencer s.cur) (s.inst.frameAddr i)) s.inst.h.bright

/-- `fetch(i)` for the acting instance: the machine after it (R203). -/
def fetchState (s : State) (i : Nat) : State :=
  if s.inst.silent then s else memReadState s (.sequencer s.cur) (s.inst.frameAddr i)

/-- The bit loop's registers at an attempt's start, byte 0 loaded (R211). -/
def Inst.loadFirst (b : Byte) (x : Inst) : Inst :=
  { x with
    h := { x.h with cur := b, cursor := 1, mask := 0x80, eof := false, first := true }
    phase := .awaitSlot }

/-- sw_start (R211): "empty frame: no pulse, success". DESIGN CHOICE (log 32): STATUS.HW_CHAN keeps the
channel of the last hardware attempt, since R211's Writes list does not name it; R44's "0xF when the last
attempt held no channel" is read of hardware attempts. -/
def swStart (s : State) : State :=
  if s.inst.h.len = 0 then s.onInst (Inst.endAttempt true .none s.cycle)
  else (fetchState s 0).onInst (Inst.loadFirst (fetchByte s 0))

/-- RAISE(c) (R222). -/
def Inst.raise (c : Time) (x : Inst) : Inst :=
  { x with
    h := { x.h with
      tHold := if x.h.cur &&& x.h.mask ≠ 0 then x.prof.cycT1h else x.prof.cycT0h
      tStart := c
      first := false }
    pins := { x.pins with dout := true } }

/-- ADVANCE inside a byte: `h.mask <- h.mask >> 1` (R223). -/
def Inst.shiftMask (x : Inst) : Inst := { x with h := { x.h with mask := x.h.mask >>> 1 } }

/-- ADVANCE at the frame's end: "mark end-of-frame" (R223). -/
def Inst.markEof (x : Inst) : Inst := { x with h := { x.h with eof := true } }

/-- ADVANCE to the next byte, freshly loaded (R223). -/
def Inst.loadNext (b : Byte) (x : Inst) : Inst :=
  { x with h := { x.h with cur := b, cursor := x.h.cursor + 1, mask := 0x80 } }

/-- ADVANCE (R223). -/
def advance (s : State) : State :=
  if s.inst.h.mask >>> 1 ≠ 0 then s.onInst Inst.shiftMask
  else if s.inst.h.cursor = s.inst.h.len then s.onInst (fun x => x.shiftMask.markEof)
  else (fetchState s s.inst.h.cursor.toNat).onInst
    (Inst.loadNext (fetchByte s s.inst.h.cursor.toNat))

/-- The transfer of control to a phase (R16). -/
def Inst.goTo (p : Phase) (x : Inst) : Inst := { x with phase := p }

/-- RAISE, ADVANCE and `phase <- HOLD_HIGH`, in the cycle the wait of AWAIT_SLOT ends (R220). -/
def raiseAndAdvance (s : State) : State :=
  (advance (s.onInst (Inst.raise s.cycle))).onInst (Inst.goTo .holdHigh)

/-- `abort()`: the line low and OVERRUN (R227). -/
def Inst.abort (c : Time) (x : Inst) : Inst := (x.setPin false).failAttempt .overrun c

/-- An overrun is tested only with INT_TOL = 1, strictly beyond deadline plus SLACK (R221, R224). -/
def Inst.overrun (x : Inst) (c : Time) (deadline : Word) : Bool :=
  x.ctrl.intTol && decide (elapsed c x.h.tStart > deadline.toNat + x.cfg.slack.toNat)

/-- AWAIT_SLOT (R220, R221). -/
def awaitSlotStep (s : State) : State :=
  if s.inst.h.first then raiseAndAdvance s
  else if s.inst.overrun s.cycle s.inst.prof.cycPeriod then s.onInst (Inst.abort s.cycle)
  else if elapsed s.cycle s.inst.h.tStart ≥ s.inst.prof.cycPeriod.toNat then raiseAndAdvance s
  else s

/-- LOWER(c) (R225). -/
def Inst.lower (x : Inst) : Inst :=
  (x.setPin false).goTo (if x.h.eof then .finalLow else .awaitSlot)

/-- HOLD_HIGH (R224). -/
def holdHighStep (s : State) : State :=
  if s.inst.overrun s.cycle s.inst.h.tHold then s.onInst (Inst.abort s.cycle)
  else if elapsed s.cycle s.inst.h.tStart ≥ s.inst.h.tHold.toNat then s.onInst Inst.lower
  else s

/-- FINAL_LOW, by the pseudocode of R226: the frame ends a period after its last raise. DESIGN CHOICE (log
30): R230 would keep the line low for `P − t_{M−1}` cycles after a late last LOWER too. -/
def finalLowStep (s : State) : State :=
  if elapsed s.cycle s.inst.h.tStart ≥ s.inst.prof.cycPeriod.toNat then
    s.onInst (Inst.endAttempt true .none s.cycle)
  else s

end Sys2Proof.Machine
end

