-- ==== Sys2Proof/Machine/Pulse.lean ====
section
/-! DEFINITION. The hardware backend: the pool and its arbiter, the hardware attempt, the translate
service, and the peripheral channels as their contract describes them (42_hw_pulsegen.md). -/

namespace Sys2Proof.Machine

/-- The slot and channel indexes, in increasing order. -/
def allSlots : List (Fin 15) := [0, 1, 2, 3, 4, 5, 6, 7, 8, 9, 10, 11, 12, 13, 14]

/-- The slots and channels of the build: N_CH of them, none without a pulse generator (R250, R77). -/
def State.slots (s : State) : List (Fin 15) :=
  if s.params.hasPulsegen then allSlots.filter (fun j => decide (j.val < s.params.nCh)) else []

/-- F, the slots with in_use = 0, in increasing index (R253). -/
def State.freeSlots (s : State) : List (Fin 15) := s.slots.filter (fun j => !(s.slotAt j).inUse)

/-- `fill()` for the requesting instance `id` (R254). -/
def fillSlot (id : Fin 8) (x : Inst) : Slot where
  inUse := true
  owner := id
  srcLo := if x.h.null then 0 else x.h.src
  srcHi := if x.h.null then 0 else rangeEnd x.h.src x.h.len
  null := x.h.null
  vlen := x.h.len
  bit0 := x.prof.hwBit0
  bit1 := x.prof.hwBit1
  bright := x.h.bright
  reorder := x.ctrl.reorder
  order := x.ctrl.order

/-- `kick(j)` (R255). -/
def State.kick (s : State) (j : Fin 15) (base len : Word) : State :=
  { s with ports := { s.ports with kicks := s.ports.kicks ++ [{ chan := j, base := base, len := len }] } }

/-- `stop(j)` (R282). -/
def State.stop (s : State) (j : Fin 15) : State :=
  { s with ports := { s.ports with stops := s.ports.stops ++ [j] } }

/-- `release(j)`: all fields 0 (R277). -/
def State.release (s : State) (j : Fin 15) : State := s.setSlotAt j Slot.reset

/-- The arbiter's remaining free slots of this cycle (R253). -/
def State.setArb (s : State) (l : List (Fin 15)) : State := { s with arb := l }

/-- `x[STATUS].HW_CHAN <- v` (R252). -/
def Inst.setHwChan (v : BitVec 4) (x : Inst) : Inst :=
  { x with status := { x.status with hwChan := v } }

/-- `h.hw_j <- j; h.hw_t <- s; x[STATUS].HW_CHAN <- j; phase <- HW_WAIT` (R252). -/
def Inst.enterWait (j : Fin 15) (t : Time) (x : Inst) : Inst :=
  { x with
    h := { x.h with hwJ := j, hwT := t }
    status := { x.status with hwChan := BitVec.ofNat 4 j.val }
    phase := .hwWait }

/-- The grant of slot j to the acting instance: fill, kick, wait (R252, R254, R255). -/
def grantSlot (s : State) (j : Fin 15) : State :=
  ((s.setSlotAt j (fillSlot s.cur s.inst)).kick j (fillSlot s.cur s.inst).srcLo s.inst.h.len).onInst
    (Inst.enterWait j s.cycle)

/-- hw_start (R252). The instances of a cycle take their turn in increasing id, so taking the head of
what remains of F grants the k-th requester the k-th slot (R253). -/
def hwStart (s : State) : State :=
  if s.inst.h.len = 0 then
    s.onInst (fun x => (x.setHwChan 0xF).endAttempt true .none s.cycle)
  else
    match s.arb with
    | [] => s.onInst (fun x => (x.setHwChan 0xF).failAttempt .poolEmpty s.cycle)
    | j :: rest => grantSlot (s.setArb rest) j

/-- HW_WAIT (R260, R276): done wins over the timeout, and both exits release the slot. -/
def hwWaitStep (s : State) : State :=
  if (s.chanAt s.inst.h.hwJ).done then
    (s.release s.inst.h.hwJ).onInst (Inst.endAttempt true .none s.cycle)
  else if elapsed s.cycle s.inst.h.hwT ≥ s.inst.cfg.hwTimeout.toNat then
    ((s.stop s.inst.h.hwJ).release s.inst.h.hwJ).onInst (Inst.failAttempt .hwTimeout s.cycle)
  else s

/-- The slot is held, has a source buffer, and its range contains the address (R267). -/
def Slot.holds (q : Slot) (a : Word) : Bool :=
  q.inUse && !q.null && decide (q.srcLo.toNat ≤ a.toNat) && decide (a.toNat < q.srcHi.toNat)

/-- The slot whose metadata applies to a pull of channel j at address a (R267, R269, R272). -/
def pullSlot (pool : Vector Slot 15) (j : Fin 15) (a : Word) : Option (Fin 15) :=
  if (pool[j.val]).inUse && (pool[j.val]).null then some j
  else allSlots.find? (fun q => (pool[q.val]).holds a)

/-- `room(q, a)` (R267). -/
def Slot.room (q : Slot) (a : Word) (r : Nat) : Nat :=
  if q.null then r else q.srcHi.toNat - a.toNat

/-- The index in the slot's frame of the first byte of a pull (R267). -/
def Slot.firstIndex (q : Slot) (a : Word) (r : Nat) : Nat :=
  if q.null then q.vlen.toNat - r else a.toNat - q.srcLo.toNat

/-- No memory read for this slot (R268). -/
def Slot.silent (q : Slot) : Bool := decide (q.bright = 0) || q.null

/-- `addr_q(i)` (R268). -/
def Slot.frameAddr (q : Slot) (i : Nat) : Word := byteAddr q.srcLo q.reorder q.order i

/-- For whom a pull of channel j served through slot q reads: for the command that holds channel j, or,
from a channel no command holds, for the one whose slot serves it (R107, R268, R272). -/
def pullReader (pool : Vector Slot 15) (j q : Fin 15) : Reader where
  inst := if (pool[j.val]).inUse then (pool[j.val]).owner else (pool[q.val]).owner
  via := (pool[q.val]).owner
  chan := some j

/-- `slot_fetch(q, i)`: the byte (R268). -/
def slotFetchByte (r : Reader) (q : Slot) (s : State) (i : Nat) : Byte :=
  if q.silent then 0 else scale (memReadByte s r (q.frameAddr i)) q.bright

/-- `slot_fetch(q, i)`: the machine after it (R268). -/
def slotFetchState (r : Reader) (q : Slot) (s : State) (i : Nat) : State :=
  if q.silent then s else memReadState s r (q.frameAddr i)

/-- The items of k bytes from index i on (R267). -/
def translateItems (r : Reader) (q : Slot) : Nat → Nat → State → List Word
  | 0, _, _ => []
  | k + 1, i, s =>
    byteItems q.bit0 q.bit1 (slotFetchByte r q s i) ++
      translateItems r q k (i + 1) (slotFetchState r q s i)

/-- The machine after the fetches of k bytes from index i on (R267, R268). -/
def translateState (r : Reader) (q : Slot) : Nat → Nat → State → State
  | 0, _, s => s
  | k + 1, i, s => translateState r q k (i + 1) (slotFetchState r q s i)

/-- `k = min(r, floor(n / 8), room(q, a))` (R267). -/
def pullBytes (q : Slot) (a : Word) (r n : Nat) : Nat := min r (min (n / 8) (q.room a r))

/-- The idle items that fill the answer when the source is exhausted (R270). -/
def padding (r k n : Nat) : List Word :=
  if r - k = 0 then List.replicate (n - 8 * k) idleItem else []

/-- The answer to a pull, with its count of items (R251, R267). -/
def answerPull (j : Fin 15) (a r : Word) (n : BitVec 16) (items : List Word) (used : Nat) :
    PullAnswer where
  chan := j
  addr := a
  rem := r
  wanted := n
  items := items
  count := BitVec.ofNat 16 items.length
  used := BitVec.ofNat 32 used

/-- `translate(j, a, r, n)` with the pool of the cycle's start (R267, R35): the answer. -/
def translateAnswer (pool : Vector Slot 15) (s : State) (j : Fin 15) (a r : Word) (n : BitVec 16) :
    PullAnswer :=
  if r = 0 then answerPull j a r n (List.replicate n.toNat idleItem) 0
  else
    match pullSlot pool j a with
    | none => answerPull j a r n [] 0
    | some q =>
      answerPull j a r n
        (translateItems (pullReader pool j q) (pool[q.val])
            (pullBytes (pool[q.val]) a r.toNat n.toNat) ((pool[q.val]).firstIndex a r.toNat) s
          ++ padding r.toNat (pullBytes (pool[q.val]) a r.toNat n.toNat) n.toNat)
        (pullBytes (pool[q.val]) a r.toNat n.toNat)

/-- `translate(j, a, r, n)`: the machine after its reads (R267, R268). -/
def translateEffect (pool : Vector Slot 15) (s : State) (j : Fin 15) (a r : Word) (n : BitVec 16) :
    State :=
  if r = 0 then s
  else
    match pullSlot pool j a with
    | none => s
    | some q =>
      translateState (pullReader pool j q) (pool[q.val])
        (pullBytes (pool[q.val]) a r.toNat n.toNat) ((pool[q.val]).firstIndex a r.toNat) s

/-- The answer stands on the channel's response port (R266). -/
def State.logPull (s : State) (a : PullAnswer) : State :=
  { s with ports := { s.ports with pulls := s.ports.pulls ++ [a] } }

/-- Channel j's part of the environment's inputs. -/
def chanDrawOf (e : Env) (j : Fin 15) : ChanDraw := e.chans.getD j.val ChanDraw.quiet

/-- The items a channel asks for in this cycle: only while its transmission runs, and between 8 and
PULL_MAX of them (R281 item 2). A draw outside that breaks the contract and is not taken (log 10). -/
def pullWanted (p : Params) (c : Channel) (d : ChanDraw) : Option (BitVec 16) :=
  match c.phase, d.pull with
  | .running, some n => if 8 ≤ n.toNat ∧ n.toNat ≤ p.pullMax then some n else none
  | _, _ => none

/-- The translate service for channel j (R266); `sc` is the machine at the cycle's start. -/
def servePull (sc : State) (e : Env) (j : Fin 15) (s : State) : State :=
  match pullWanted sc.params (sc.chanAt j) (chanDrawOf e j) with
  | none => s
  | some n =>
    (translateEffect sc.pool s j (sc.chanAt j).addr (sc.chanAt j).rem n).logPull
      (translateAnswer sc.pool s j (sc.chanAt j).addr (sc.chanAt j).rem n)

/-- The translate service for every channel of a list (R266). -/
def servePulls (sc : State) (e : Env) : List (Fin 15) → State → State
  | [], s => s
  | j :: js, s => servePulls sc e js (servePull sc e j s)

/-- Time in the channels is counted in units of `1 / (F_CLK × F_PERIPH)` seconds, of which a tick of
the peripheral's counter, `1 / F_PERIPH` seconds, has F_CLK and a cycle of `clk` has F_PERIPH (R9,
R281 item 3, R433; log 27). The result is a number of ticks in that unit. -/
def tickUnits (p : Params) (ticks : Nat) : Nat := ticks * p.fClk

/-- One cycle of `clk` in the unit of `tickUnits`. -/
def cycleUnits (p : Params) : Nat := p.fPeriph

/-- How long an item lasts, `d0 + d1` ticks (R281 item 3). -/
def itemUnits (p : Params) (it : Word) : Nat := tickUnits p (itemD0 it + itemD1 it)

/-- Where a channel's emission stands: the pause before the first item, the time spent on it, and the
items. -/
structure Emission where
  wait : Nat
  pos : Nat
  fifo : List Word
  deriving DecidableEq, Repr

/-- `t` units of emission (R281 item 3) from pause, position and items on: an item whose time is over
makes way for the next, which begins after the next gap. None when the idle item is reached, which is
not emitted and ends the transmission. -/
def emit (p : Params) : (gaps : List Nat) → (t wait pos : Nat) → List Word → Option Emission
  | _, _, wait, _, [] => some { wait := wait, pos := 0, fifo := [] }
  | gaps, t, wait, pos, it :: rest =>
    if itemD0 it = 0 then none
    else if t < wait then some { wait := wait - t, pos := pos, fifo := it :: rest }
    else if t - wait + pos < itemUnits p it then
      some { wait := 0, pos := t - wait + pos, fifo := it :: rest }
    else emit p gaps.tail (t - wait + pos - itemUnits p it) (gaps.headD 0) 0 rest

/-- A channel takes an answer: it advances its cursor and keeps the items; an answer with no items
ends the transmission, as the idle item does (R281 items 2, 3; log 12). -/
def Channel.absorb (c : Channel) (a : PullAnswer) : Channel :=
  { c with
    addr := c.addr + a.used
    rem := c.rem - a.used
    fifo := c.fifo ++ (if a.items = [] then [idleItem] else a.items) }

/-- The transmission has ended (R281 items 4, 5, 6): done rises after `lag` further cycles, a finite
number. -/
def Channel.endTx (c : Channel) (lag : Nat) : Channel :=
  { c with
    phase := if lag = 0 then .idle else .ended
    done := decide (lag = 0)
    fifo := []
    pos := 0
    wait := 0
    lag := lag - 1 }

/-- A channel that has emitted up to `m` and takes the answer of its pull, if it made one. -/
def Channel.settle (c : Channel) (m : Emission) (a : Option PullAnswer) : Channel :=
  match a with
  | none => { c with wait := m.wait, pos := m.pos, fifo := m.fifo }
  | some ans => ({ c with wait := m.wait, pos := m.pos, fifo := m.fifo } : Channel).absorb ans

/-- One cycle of a channel under its contract, without kick and stop (R281). DESIGN CHOICE (log 29): the
items of an answer are emitted from the next cycle on at the earliest. -/
def Channel.cycle (p : Params) (c : Channel) (d : ChanDraw) (a : Option PullAnswer) : Channel :=
  match c.phase with
  | .idle => c
  | .ended => c.endTx c.lag
  | .running =>
    match emit p d.gaps (cycleUnits p) c.wait c.pos c.fifo with
    | none => c.endTx d.latency
    | some m => c.settle m a

/-- A channel that transmits nothing and will not raise done. -/
def Channel.fallSilent (c : Channel) : Channel :=
  { c with phase := .idle, done := false, fifo := [], pos := 0, wait := 0, lag := 0 }

/-- `stop`: the transmission ends "without emitting further items", and done "may or may not" rise
(R282): from the next cycle on, after the latency drawn (log 10). A channel whose transmission is over
and reported stays as it is (R281 item 5). -/
def Channel.stopped (c : Channel) (d : ChanDraw) : Channel :=
  match c.phase with
  | .idle => c
  | .running => if d.doneAfterStop then c.endTx d.latency else c.fallSilent
  | .ended => if d.doneAfterStop then c else c.fallSilent

/-- A kick starts a transmission (R281 item 1); its first item begins after a pause that is the
channel's own (log 10). DESIGN CHOICE (log 31): a channel that still transmits, as it can after a reset
(R425), drops the items it holds and the one under emission. -/
def kicked (k : Kick) (d : ChanDraw) : Channel where
  phase := .running
  done := false
  addr := k.base
  rem := k.len
  fifo := []
  pos := 0
  wait := d.gaps.headD 0
  lag := 0

/-- Channel j after its own part of the cycle. -/
def chanCycle (e : Env) (s : State) (j : Fin 15) : Channel :=
  (s.chanAt j).cycle s.params (chanDrawOf e j) (s.ports.pulls.find? (fun a => a.chan == j))

/-- Channel j at the next cycle's start: its own cycle, then a stop, then a kick of this cycle. DESIGN
CHOICE (log 29): of a kick and a stop of one cycle the kick wins. -/
def chanNext (e : Env) (s : State) (j : Fin 15) : Channel :=
  match s.ports.kicks.find? (fun k => k.chan == j) with
  | some k => kicked k (chanDrawOf e j)
  | none =>
    if s.ports.stops.contains j then (chanCycle e s j).stopped (chanDrawOf e j) else chanCycle e s j

/-- The channels of a list at the next cycle's start. -/
def runChans (e : Env) : List (Fin 15) → State → State
  | [], s => s
  | j :: js, s => runChans e js (s.setChanAt j (chanNext e s j))

/-- `pg_out` (R281 items 3, 4): `l0` for the first d0 ticks of the item under emission, then `l1`; low
while no item is emitted. DEDUCED (log 10): low in a pause between two items too, since a bit is high
for its high time and no longer (R283). -/
def Channel.level (p : Params) (c : Channel) : Bool :=
  match c.phase, c.wait, c.fifo with
  | .running, 0, it :: _ =>
    if itemD0 it = 0 then false
    else if c.pos < tickUnits p (itemD0 it) then itemL0 it else itemL1 it
  | _, _, _ => false

/-- The data line of instance k (R37): none when it is not driven; else the channel's level while it
is routed (R279), else DOUT. -/
def State.lineLevel (s : State) (k : Fin 8) : Option Bool :=
  if !(s.instAt k).pins.doutOe then none
  else if (s.instAt k).routed then some ((s.chanAt (s.instAt k).h.hwJ).level s.params)
  else some (s.instAt k).pins.dout

end Sys2Proof.Machine
end

