-- ==== Sys2Proof/Machine/Attempt.lean ====
section
/-! DEFINITION. The gate and the start of an attempt, shared by SHOW and FORCE_CLEAR
(43_show_retry_throttle.md R303, R304). -/

namespace Sys2Proof.Machine

/-- `h.attempts <- min(h.attempts + 1, 255); x[STATUS].ATTEMPTS <- h.attempts` (R304). -/
def Inst.countAttempt (x : Inst) : Inst :=
  { x with
    h := { x.h with attempts := BitVec.ofNat 8 (min (x.h.attempts.toNat + 1) 255) }
    status := { x.status with attempts := BitVec.ofNat 8 (min (x.h.attempts.toNat + 1) 255) } }

/-- `start_attempt(s)` (R304). -/
def startAttempt (s : State) : State :=
  if s.inst.ctrl.backend then hwStart (s.onInst (fun x => x.countAttempt.toggleStart))
  else swStart (s.onInst (fun x => x.countAttempt.toggleStart))

/-- GATE (R303). -/
def gateStep (s : State) : State :=
  if elapsed s.cycle s.inst.h.gateT ≥ s.inst.h.gateD.toNat then startAttempt s else s

end Sys2Proof.Machine
end

