-- ==== Sys2Proof/Machine/ForceClear.lean ====
section
/-! DEFINITION. The DECODE step of FORCE_CLEAR (44_forceclear_stats_misc.md R341). What follows a
failed attempt is `Inst.forceClearAfterFail`. -/

namespace Sys2Proof.Machine

/-- The null frame of 3N bytes, the attempt budget and the reset wait (R341). -/
def Inst.captureClear (p : Params) (n : Nat) (d : Time) (x : Inst) : Inst :=
  { x with
    h := { x.h with
      src := 0
      len := BitVec.ofNat 32 (3 * n)
      bright := 0
      null := true
      left := BitVec.ofNat 4 (p.fcAttempts - 1)
      attempts := 0
      err := .none
      gateT := d
      gateD := x.prof.cycReset }
    status := { x.status with attempts := 0 }
    phase := .gate }

/-- FORCE_CLEAR for one instance, its DECODE step in cycle d (R341): the line is driven low even when
the command then fails. -/
def Inst.forceClear (p : Params) (n : Nat) (d : Time) (x : Inst) : Inst :=
  if x.noProfile then x.driveLow.finish false .noProfile
  else x.driveLow.captureClear p n d

/-- FORCE_CLEAR (R341). -/
def execForceClear (n : Nat) (s : State) : Host.Outcome State Fault Refusal :=
  .next (s.onInst (Inst.forceClear s.params n s.cycle))

end Sys2Proof.Machine
end

