-- ==== Sys2Proof/Machine/Profile.lean ====
section
/-! DEFINITION. LOAD_PROFILE, the timing-profile converter (40_profile.md R170 to R182). -/

namespace Sys2Proof.Machine

/-- `C(ns) = conv(x[CLK_FREQ], ns)` (R174). -/
def Settings.cyc (g : Settings) (ns : Word) : Nat := conv g.clkFreq ns

/-- `K(ns) = conv(x[PERIPH_FREQ], ns)` (R175). -/
def Settings.tick (g : Settings) (ns : Word) : Nat := conv g.periphFreq ns

/-- R174(a): `0 < t0 < t1 < p` and `r ≥ p`. -/
def Settings.nsOrdered (g : Settings) : Bool :=
  decide (0 < g.t0hNs.toNat) && decide (g.t0hNs.toNat < g.t1hNs.toNat) &&
    decide (g.t1hNs.toNat < g.periodNs.toNat) && decide (g.resetNs.toNat ≥ g.periodNs.toNat)

/-- R174(b): `0 < C(t0) < C(t1) < C(p)`, `C(r) ≥ C(p)` and `C(p) ≤ C(m)`. -/
def Settings.cyclesOrdered (g : Settings) : Bool :=
  decide (0 < g.cyc g.t0hNs) && decide (g.cyc g.t0hNs < g.cyc g.t1hNs) &&
    decide (g.cyc g.t1hNs < g.cyc g.periodNs) &&
    decide (g.cyc g.resetNs ≥ g.cyc g.periodNs) &&
    decide (g.cyc g.periodNs ≤ g.cyc g.mindispNs)

/-- R174(c): each cycle count is below 2^32. -/
def Settings.cyclesFit (g : Settings) : Bool :=
  decide (g.cyc g.t0hNs < 2 ^ 32) && decide (g.cyc g.t1hNs < 2 ^ 32) &&
    decide (g.cyc g.periodNs < 2 ^ 32) && decide (g.cyc g.resetNs < 2 ^ 32) &&
    decide (g.cyc g.mindispNs < 2 ^ 32)

/-- `valid_sw()` (R174). -/
def Settings.validSw (g : Settings) : Bool := g.nsOrdered && g.cyclesOrdered && g.cyclesFit

/-- `valid_hw()` (R175). -/
def validHw (p : Params) (g : Settings) : Bool :=
  p.hasPulsegen && g.validSw && decide (0 < g.tick g.t0hNs) &&
    decide (g.tick g.t0hNs < g.tick g.t1hNs) && decide (g.tick g.t1hNs < g.tick g.periodNs) &&
    decide (g.tick g.periodNs ≤ 32767)

/-- A peripheral tick latch: K(ns) when the templates are valid, else 0 (R176). -/
def tickLatch (p : Params) (g : Settings) (ns : Word) : BitVec 15 :=
  if validHw p g then BitVec.ofNat 15 (g.tick ns) else 0

/-- A template register: the item when the templates are valid, else 0 (R176). -/
def templateReg (p : Params) (g : Settings) (ns : Word) : Word :=
  if validHw p g then template (tickLatch p g ns) (tickLatch p g g.periodNs) else 0

/-- What LOAD_PROFILE computes from the configuration (R176). -/
def profileOf (p : Params) (g : Settings) : Profile where
  cycT0h := sat32 (g.cyc g.t0hNs)
  cycT1h := sat32 (g.cyc g.t1hNs)
  cycPeriod := sat32 (g.cyc g.periodNs)
  cycReset := sat32 (g.cyc g.resetNs)
  cycMindisp := sat32 (g.cyc g.mindispNs)
  hwBit0 := templateReg p g g.t0hNs
  hwBit1 := templateReg p g g.t1hNs
  fHz := BitVec.ofNat 40 (freqHz g.clkFreq)
  kT0h := tickLatch p g g.t0hNs
  kT1h := tickLatch p g g.t1hNs
  kPeriod := tickLatch p g g.periodNs

/-- LOAD_PROFILE ends in failure: an invalid profile, or invalid templates with the hardware backend
selected (R176). -/
def loadFails (p : Params) (x : Inst) : Bool :=
  !x.cfg.validSw || (x.ctrl.backend && !validHw p x.cfg)

/-- The registers and validity flags LOAD_PROFILE writes (R176). -/
def Inst.writeProfile (p : Params) (x : Inst) : Inst :=
  { x with
    prof := profileOf p x.cfg
    status := { x.status with
      profileValid := x.cfg.validSw
      hwProfileValid := validHw p x.cfg } }

/-- LOAD_PROFILE for one instance (R176). -/
def Inst.loadProfile (p : Params) (x : Inst) : Inst :=
  if loadFails p x then (x.writeProfile p).finish false .cfgInvalid
  else (x.writeProfile p).finish true .none

/-- LOAD_PROFILE (R176). -/
def execLoadProfile (s : State) : Host.Outcome State Fault Refusal :=
  .next (s.onInst (Inst.loadProfile s.params))

end Sys2Proof.Machine
end

