-- ==== Sys2Proof/Machine/Show.lean ====
section
/-! DEFINITION. The DECODE step of SHOW (43_show_retry_throttle.md R300). The attempts that follow
run in the phases of Attempt.lean, SoftBackend.lean and Pulse.lean. -/

namespace Sys2Proof.Machine

/-- The range SHOW refuses (R300): not a multiple of 3 with REORDER, or past 2^32. -/
def Inst.badLength (x : Inst) : Bool :=
  (x.ctrl.reorder && decide (x.cfg.srcLen.toNat % 3 ≠ 0)) || rangeTooLong x.cfg.srcAddr x.cfg.srcLen

/-- The operands SHOW captures, its retry budget and its gate (R300, R302, R303). -/
def Inst.captureShow (b : Byte) (x : Inst) : Inst :=
  { x with
    h := { x.h with
      src := x.cfg.srcAddr
      len := x.cfg.srcLen
      bright := b
      null := false
      left := x.ctrl.retry
      attempts := 0
      err := .none
      gateT := x.stats.lastDisplay
      gateD := x.prof.cycMindisp }
    status := { x.status with attempts := 0 }
    phase := .gate }

/-- SHOW for one instance, its DECODE step (R300). -/
def Inst.showDecode (b : Byte) (x : Inst) : Inst :=
  if x.noProfile then x.finish false .noProfile
  else if x.badLength then x.finish false .badLength
  else x.captureShow b

/-- SHOW (R300). -/
def execShow (b : Nat) (s : State) : Host.Outcome State Fault Refusal :=
  .next (s.onInst (Inst.showDecode (BitVec.ofNat 8 b)))

end Sys2Proof.Machine
end

