-- ==== Sys2Proof/Machine/Statistics.lean ====
section
/-! DEFINITION. GET_STATS, CLEAR_STATS, BEGIN and NOP (44_forceclear_stats_misc.md R352, R355, R358,
R360). -/

namespace Sys2Proof.Machine

/-- `elapsed_ms = floor((d − STAT_START) × 1000 / h.f_hz)` (R352). -/
def Inst.elapsedMs (d : Time) (x : Inst) : Nat :=
  elapsed d x.stats.start * 1000 / x.prof.fHz.toNat

/-- The frames per second of GET_STATS in cycle d (R352). -/
def Inst.fps (d : Time) (x : Inst) : Word :=
  if !x.status.profileValid then 0
  else if x.elapsedMs d = 0 then 0
  else sat32 (x.stats.frames.toNat * 1000 / x.elapsedMs d)

/-- `x[STAT_FPS] <- fps` (R352). -/
def Inst.snapshotFps (d : Time) (x : Inst) : Inst :=
  { x with stats := { x.stats with fps := x.fps d } }

/-- The counters cleared and the epoch restarted; LAST_DISPLAY is not changed (R355). -/
def Inst.restartEpoch (d : Time) (x : Inst) : Inst :=
  { x with stats := { x.stats with frames := 0, aborted := 0, start := d, fps := 0 } }

/-- GET_STATS (R352). -/
def execGetStats (s : State) : Host.Outcome State Fault Refusal :=
  .next (s.onInst (fun x => (x.snapshotFps s.cycle).finish true .none))

/-- CLEAR_STATS (R355). -/
def execClearStats (s : State) : Host.Outcome State Fault Refusal :=
  .next (s.onInst (fun x => (x.restartEpoch s.cycle).finish true .none))

/-- BEGIN (R358). -/
def execBegin (s : State) : Host.Outcome State Fault Refusal :=
  .next (s.onInst (fun x => x.driveLow.finish true .none))

/-- NOP (R360). -/
def execNop (s : State) : Host.Outcome State Fault Refusal :=
  .next (s.onInst (Inst.finish true .none))

end Sys2Proof.Machine
end

