-- ==== Sys2Proof/Machine/Dispatch.lean ====
section
/-! DEFINITION. The DECODE action of each command for the acting instance (60_exceptions.md R381). -/

namespace Sys2Proof.Machine

def exec (i : Instr) (s : State) : Host.Outcome State Fault Refusal :=
  match i with
  | .nop => Sys2Proof.Machine.execNop s
  | .loadProfile => Sys2Proof.Machine.execLoadProfile s
  | .showFrame b => Sys2Proof.Machine.execShow b s
  | .forceClear n => Sys2Proof.Machine.execForceClear n s
  | .getStats => Sys2Proof.Machine.execGetStats s
  | .clearStats => Sys2Proof.Machine.execClearStats s
  | .beginLine => Sys2Proof.Machine.execBegin s

end Sys2Proof.Machine
end

