-- ==== Sys2Proof/WellFormed.lean ====
section
/-! DEFINITION. Which command terms the encoding has room for (30_encoding.md R132, R137): the
brightness of SHOW is below 256 and the pixel count of FORCE_CLEAR below 2^24. -/

namespace Sys2Proof

/-- The operand fits its field; what fails this the assembler refuses "rather than truncate" (R137). -/
def Instr.wf : Instr → Bool
  | .showFrame b => decide (b < 256)
  | .forceClear n => decide (n < 2 ^ 24)
  | .nop => true
  | .loadProfile => true
  | .getStats => true
  | .clearStats => true
  | .beginLine => true

end Sys2Proof
end

