-- ==== Sys2Proof/Decode.lean ====
section
/-! DEFINITION. The command decoder and encoder (30_encoding.md R130 to R135), and the assembler
(R137, R138). -/

namespace Sys2Proof

/-- OP = w[7:0] (R130). -/
def opField (w : Word) : BitVec 8 := w.extractLsb' 0 8

/-- The operand field w[31:8] (R130), which is N of format N (R131). -/
def operandField (w : Word) : BitVec 24 := w.extractLsb' 8 24

/-- B = w[15:8] of format B (R131). -/
def brightField (w : Word) : BitVec 8 := w.extractLsb' 8 8

/-- w[31:16], which format B requires to be zero (R131). -/
def upperHalf (w : Word) : BitVec 16 := w.extractLsb' 16 16

/-- Format P: the whole operand field must be zero (R131, R134). -/
def decodePlain (w : Word) (i : Instr) : Decoded :=
  if operandField w = 0 then .command i else .illegal (.mustBeZero (opField w))

/-- Decode of any command word, total, rejecting by name (R134, R135). -/
def decode (w : Word) : Decoded :=
  if opField w = 0x00 then decodePlain w .nop
  else if opField w = 0x01 then decodePlain w .loadProfile
  else if opField w = 0x02 then
    if upperHalf w = 0 then .command (.showFrame (brightField w).toNat)
    else .illegal (.mustBeZero 0x02)
  else if opField w = 0x03 then .command (.forceClear (operandField w).toNat)
  else if opField w = 0x04 then decodePlain w .getStats
  else if opField w = 0x05 then decodePlain w .clearStats
  else if opField w = 0x06 then decodePlain w .beginLine
  else .illegal (.reservedOp (opField w))

/-- The word of a command (R133, R137). An operand that does not fit its field loses its high bits;
`Instr.wf` excludes it, and `assembleCommand` refuses it. -/
def encode : Instr → Word
  | .nop => 0x00000000
  | .loadProfile => 0x00000001
  | .showFrame b => (0 : BitVec 16) ++ BitVec.ofNat 8 b ++ (0x02 : BitVec 8)
  | .forceClear n => BitVec.ofNat 24 n ++ (0x03 : BitVec 8)
  | .getStats => 0x00000004
  | .clearStats => 0x00000005
  | .beginLine => 0x00000006

/-- The mask of a command's row in the opcode map (R133). -/
def rowMask : Instr → Word
  | .nop => 0xFFFFFFFF
  | .loadProfile => 0xFFFFFFFF
  | .showFrame _ => 0xFFFF00FF
  | .forceClear _ => 0x000000FF
  | .getStats => 0xFFFFFFFF
  | .clearStats => 0xFFFFFFFF
  | .beginLine => 0xFFFFFFFF

/-- The match value of a command's row in the opcode map (R133). -/
def rowMatch : Instr → Word
  | .nop => 0x00000000
  | .loadProfile => 0x00000001
  | .showFrame _ => 0x00000002
  | .forceClear _ => 0x00000003
  | .getStats => 0x00000004
  | .clearStats => 0x00000005
  | .beginLine => 0x00000006

/-- The command of the host's instruction word: `w`, whose bits at and above `nbits` are zero, as the
32-bit command word. The command register takes the word whole (R103), so no byte order enters. -/
def decodeTableWord (nbits w : Nat) : Option Instr :=
  match decode (BitVec.ofNat 32 (w % 2 ^ nbits)) with
  | .command i => some i
  | .illegal _ => none

/-- The byte offset of a register in the window (R40). -/
def Reg.offset : Reg → BitVec 8
  | .id => 0x00 | .ctrl => 0x04 | .status => 0x08 | .cmd => 0x0C
  | .clkFreq => 0x10 | .t0hNs => 0x14 | .t1hNs => 0x18 | .periodNs => 0x1C
  | .resetNs => 0x20 | .mindispNs => 0x24
  | .cycT0h => 0x28 | .cycT1h => 0x2C | .cycPeriod => 0x30 | .cycReset => 0x34
  | .cycMindisp => 0x38
  | .slack => 0x3C | .srcAddr => 0x40 | .srcLen => 0x44 | .periphFreq => 0x48
  | .hwTimeout => 0x4C | .hwBit0 => 0x50 | .hwBit1 => 0x54
  | .statFrames => 0x58 | .statAborted => 0x5C | .statStartLo => 0x60
  | .statStartHi => 0x64 | .statFps => 0x68
  | .lastDisplayLo => 0x6C | .lastDisplayHi => 0x70
  | .cycleLo => 0x74 | .cycleHi => 0x78 | .pins => 0x7C

/-- Every register, in the order of the map (R40). -/
def allRegs : List Reg :=
  [.id, .ctrl, .status, .cmd, .clkFreq, .t0hNs, .t1hNs, .periodNs, .resetNs, .mindispNs,
   .cycT0h, .cycT1h, .cycPeriod, .cycReset, .cycMindisp, .slack, .srcAddr, .srcLen, .periphFreq,
   .hwTimeout, .hwBit0, .hwBit1, .statFrames, .statAborted, .statStartLo, .statStartHi, .statFps,
   .lastDisplayLo, .lastDisplayHi, .cycleLo, .cycleHi, .pins]

/-- The register at an offset; none at a reserved or misaligned offset (R40, R58). -/
def regAt (off : BitVec 8) : Option Reg := allRegs.find? (fun r => r.offset == off)

/-- The host write that issues a command word (R137). -/
def cmdWrite (w : Word) : HostStmt := .write Reg.cmd.offset .word w

/-- `WR reg, imm` (R137). -/
def regWrite (r : Reg) (w : Word) : HostStmt := .write r.offset .word w

/-- A command statement; the assembler refuses an operand that does not fit (R137). -/
def assembleCommand (i : Instr) : Option (List HostStmt) :=
  if i.wf then some [cmdWrite (encode i)] else none

/-- The expansion of an assembler statement (R137, R138). -/
def assemble : AsmStmt → Option (List HostStmt)
  | .wr r imm => some [regWrite r imm]
  | .rd r => some [.read r.offset .word]
  | .cmd i => assembleCommand i
  | .raw w => some [cmdWrite w]
  | .waitIdle => some [.waitIdle]
  | .memw a bs => some [.memw a bs]
  | .idle k => some [.idle k]
  | .profile f t0h t1h per rst min =>
      some [regWrite .clkFreq f, regWrite .t0hNs t0h, regWrite .t1hNs t1h,
            regWrite .periodNs per, regWrite .resetNs rst, regWrite .mindispNs min,
            cmdWrite (encode .loadProfile), .waitIdle]

/-- The statements of a host program; none when the assembler refuses one of its lines (R137). -/
def assembleAll : List AsmStmt → Option (List HostStmt)
  | [] => some []
  | a :: rest =>
    match assemble a, assembleAll rest with
    | some xs, some ys => some (xs ++ ys)
    | _, _ => none

end Sys2Proof
end

