-- ==== Sys2Proof/Machine/HostBus.lean ====
section
/-! DEFINITION. The host's side: register reads and writes of one instance (10_state.md R39 to R59,
20_memory.md R101 to R103), the host agent that performs its statements one a cycle (30_encoding.md
R137, R138), and the stores to the source space with the races they make (20_memory.md R115). -/

namespace Sys2Proof.Machine

/-- The low word of a 64-bit quantity (R102). -/
def lowWord (t : Time) : Word := t.extractLsb' 0 32

/-- The high word of a 64-bit quantity (R102). -/
def highWord (t : Time) : Word := t.extractLsb' 32 32

/-- The value a host read of a register returns in cycle `now` (R40 to R57). -/
def readReg (now : Time) (x : Inst) : Reg → Word
  | .id => 0x4E505801
  | .ctrl => x.ctrl.word
  | .status => statusWord x.status x.phase
  | .cmd => 0
  | .clkFreq => x.cfg.clkFreq
  | .t0hNs => x.cfg.t0hNs
  | .t1hNs => x.cfg.t1hNs
  | .periodNs => x.cfg.periodNs
  | .resetNs => x.cfg.resetNs
  | .mindispNs => x.cfg.mindispNs
  | .cycT0h => x.prof.cycT0h
  | .cycT1h => x.prof.cycT1h
  | .cycPeriod => x.prof.cycPeriod
  | .cycReset => x.prof.cycReset
  | .cycMindisp => x.prof.cycMindisp
  | .slack => x.cfg.slack
  | .srcAddr => x.cfg.srcAddr
  | .srcLen => x.cfg.srcLen
  | .periphFreq => x.cfg.periphFreq
  | .hwTimeout => x.cfg.hwTimeout
  | .hwBit0 => x.prof.hwBit0
  | .hwBit1 => x.prof.hwBit1
  | .statFrames => x.stats.frames
  | .statAborted => x.stats.aborted
  | .statStartLo => lowWord x.stats.start
  | .statStartHi => highWord x.stats.start
  | .statFps => x.stats.fps
  | .lastDisplayLo => lowWord x.stats.lastDisplay
  | .lastDisplayHi => highWord x.stats.lastDisplay
  | .cycleLo => lowWord now
  | .cycleHi => x.hiLatch
  | .pins => pinsWord x

/-- The bytes of a word that an access of this size selects, in the low lanes (R101, R102; log 13). -/
def selectLanes (size : AccessSize) (v : Word) : Word :=
  match size with
  | .byte => v &&& 0x000000FF
  | .half => v &&& 0x0000FFFF
  | .word => v

/-- The value of a host read at an offset: 0 at a reserved (R58) or misaligned (R101) offset. -/
def busRead (now : Time) (x : Inst) (off : BitVec 8) (size : AccessSize) : Word :=
  match regAt off with
  | none => 0
  | some r => selectLanes size (readReg now x r)

/-- The side effect of a host read: a read of CYCLE_LO latches the high word (R56, R103). -/
def Inst.afterRead (now : Time) (off : BitVec 8) (x : Inst) : Inst :=
  if off = Reg.cycleLo.offset then { x with hiLatch := highWord now } else x

/-- A host write of a plain RW register (R46, R47, R49 to R52); any other register is unchanged. -/
def Settings.write (g : Settings) (r : Reg) (w : Word) : Settings :=
  match r with
  | .clkFreq => { g with clkFreq := w }
  | .t0hNs => { g with t0hNs := w }
  | .t1hNs => { g with t1hNs := w }
  | .periodNs => { g with periodNs := w }
  | .resetNs => { g with resetNs := w }
  | .mindispNs => { g with mindispNs := w }
  | .slack => { g with slack := w }
  | .srcAddr => { g with srcAddr := w }
  | .srcLen => { g with srcLen := w }
  | .periphFreq => { g with periphFreq := w }
  | .hwTimeout => { g with hwTimeout := w }
  | .id => g
  | .ctrl => g
  | .status => g
  | .cmd => g
  | .cycT0h => g
  | .cycT1h => g
  | .cycPeriod => g
  | .cycReset => g
  | .cycMindisp => g
  | .hwBit0 => g
  | .hwBit1 => g
  | .statFrames => g
  | .statAborted => g
  | .statStartLo => g
  | .statStartHi => g
  | .statFps => g
  | .lastDisplayLo => g
  | .lastDisplayHi => g
  | .cycleLo => g
  | .cycleHi => g
  | .pins => g

/-- The RW registers of R59, other than CTRL. -/
def isPlainRw (r : Reg) : Bool :=
  [Reg.clkFreq, .t0hNs, .t1hNs, .periodNs, .resetNs, .mindispNs, .slack, .srcAddr, .srcLen,
   .periphFreq, .hwTimeout].contains r

/-- A CMD write while not BUSY is accepted (R45). -/
def Inst.acceptCmd (w : Word) (x : Inst) : Inst :=
  { x with
    status := { x.status with busy := true }
    h := { x.h with cmdword := w }
    phase := .decode }

/-- A host write of a register as a whole word (R39, R43 to R45, R59). -/
def Inst.writeReg (p : Params) (r : Reg) (w : Word) (x : Inst) : Inst :=
  if r = .status then x.writeStatus w
  else if r = .cmd then (if x.status.busy then x.markIgnored else x.acceptCmd w)
  else if r = .ctrl then (if x.status.busy then x.markIgnored else x.writeCtrl p w)
  else if isPlainRw r then
    (if x.status.busy then x.markIgnored else { x with cfg := x.cfg.write r w })
  else x

/-- A host write: ignored and flagged unless it is 32 bits at a multiple of 4 (R101); ignored at a
reserved offset (R58). -/
def Inst.busWrite (p : Params) (off : BitVec 8) (size : AccessSize) (w : Word) (x : Inst) : Inst :=
  if size ≠ .word ∨ off.toNat % 4 ≠ 0 then x.markIgnored
  else
    match regAt off with
    | none => x
    | some r => x.writeReg p r w

/-- IDLE 0 takes no cycle (R138). -/
def skipIdle : List HostStmt → List HostStmt
  | .idle 0 :: rest => skipIdle rest
  | l => l

/-- The host statements instance k's host has still to perform. -/
def State.hostAt (s : State) (k : Fin 8) : List HostStmt := s.hosts[k.val]

/-- Instance k's host goes on with `l`. -/
def State.setHostAt (s : State) (k : Fin 8) (l : List HostStmt) : State :=
  { s with hosts := s.hosts.set k l }

/-- A host read of instance k has returned a value. -/
def State.logRdata (s : State) (k : Fin 8) (v : Word) : State :=
  { s with ports := { s.ports with rdata := s.ports.rdata.set k (some v) } }

/-- The value a host read returns; 0 while `rst_n` is low (R420). -/
def hostReadValue (rst : Bool) (s : State) (k : Fin 8) (off : BitVec 8) (size : AccessSize) : Word :=
  if rst then 0 else busRead s.cycle (s.instAt k) off size

/-- A host read of instance k; it "has no effect" while `rst_n` is low (R420). -/
def hostRead (rst : Bool) (s : State) (k : Fin 8) (off : BitVec 8) (size : AccessSize) : State :=
  if rst then s.logRdata k 0
  else (s.logRdata k (busRead s.cycle (s.instAt k) off size)).setInstAt k
    ((s.instAt k).afterRead s.cycle off)

/-- A host write of instance k; it "has no effect" while `rst_n` is low (R420). -/
def hostWrite (rst : Bool) (s : State) (k : Fin 8) (off : BitVec 8) (size : AccessSize) (w : Word) :
    State :=
  if rst then s else s.setInstAt k ((s.instAt k).busWrite s.params off size w)

/-- The addresses and bytes of a run of bytes from an address on, `addr`, `addr+1`, ... (R138). DESIGN
CHOICE (log 26): a run past 0xFFFFFFFF goes on at address 0. -/
def byteRun : Word → List Byte → List (Word × Byte)
  | _, [] => []
  | a, b :: bs => (a, b) :: byteRun (a + 1) bs

/-- The bytes a host stores to the source space in this cycle. -/
def State.logStores (s : State) (l : List (Word × Byte)) : State :=
  { s with ports := { s.ports with stores := s.ports.stores ++ l } }

/-- The host of instance k performs at most one access (R22, R101), in the order of its statements
(R113). A host with no statement left makes none (log 1). WAIT_IDLE reads STATUS until BUSY = 0
(R138); MEMW takes one cycle (log 16). -/
def hostTurn (rst : Bool) (k : Fin 8) (s : State) : State :=
  match skipIdle (s.hostAt k) with
  | [] => s.setHostAt k []
  | .read off size :: rest => (hostRead rst s k off size).setHostAt k rest
  | .write off size w :: rest => (hostWrite rst s k off size w).setHostAt k rest
  | .idle n :: rest => s.setHostAt k (.idle (n - 1) :: rest)
  | .waitIdle :: rest =>
    if (hostReadValue rst s k Reg.status.offset .word).getLsbD 0 then
      (hostRead rst s k Reg.status.offset .word).setHostAt k (.waitIdle :: rest)
    else (hostRead rst s k Reg.status.offset .word).setHostAt k rest
  | .memw a bs :: rest => (s.logStores (byteRun a bs)).setHostAt k rest

/-- The hosts of a list of instances take their turn. -/
def hostTurns (rst : Bool) : List (Fin 8) → State → State
  | [], s => s
  | k :: ks, s => hostTurns rst ks (hostTurn rst k s)

/-- The source space after a run of stores, one after another, so that the last store to an address
remains (log 25). -/
def storeAll : Memory → List (Word × Byte) → Memory
  | m, [] => m
  | m, (a, v) :: rest => storeAll (memStore m a.toNat v) rest

/-- The addresses modified during instance k's command (R115): those already so, while the command
was running at the cycle's start, and the cycle's stores, while it runs now. -/
def racedNext (sc s : State) (k : Fin 8) (stores : List (Word × Byte)) : List Word :=
  (if (sc.instAt k).status.busy then sc.raced[k.val] else []) ++
    (if (s.instAt k).status.busy then stores.map Prod.fst else [])

/-- The races of every instance of a list brought up to date. -/
def noteRaces (sc : State) (stores : List (Word × Byte)) : List (Fin 8) → State → State
  | [], s => s
  | k :: ks, s =>
    noteRaces sc stores ks { s with raced := s.raced.set k (racedNext sc s k stores) }

end Sys2Proof.Machine
end

