-- ==== Sys2Proof/Machine/Cycle.lean ====
section
/-! DEFINITION. One clock cycle of the whole machine: the sequencers by phase (10_state.md R76,
60_exceptions.md R381, R390), and the order of effects inside a cycle (10_state.md R34, R35), with the
reset input (70_reset_and_hazards.md R420, R424, R425). -/

namespace Sys2Proof.Machine

/-- The instance ids, in increasing order (R407). -/
def allIds : List (Fin 8) := [0, 1, 2, 3, 4, 5, 6, 7]

/-- The instances of the build (R9). -/
def State.ids (s : State) : List (Fin 8) := allIds.filter (fun k => decide (k.val < s.params.nInst))

/-- The inputs of this cycle: the first listed, else a free value (R34, R391; log 2). -/
def State.input (s : State) : Env :=
  match s.env with
  | [] => Config.freeEnv s.draws
  | e :: _ => e

/-- The cycle's start: its inputs taken, the ports quiet, the free slots of S_c noted (R253). -/
def State.openCycle (s : State) : State :=
  { s with
    env := s.env.tail
    draws := if s.env.isEmpty then s.draws + 1 else s.draws
    ports := Ports.quiet
    arb := s.freeSlots }

/-- PREEMPT of instance k (R390). -/
def preemptOf (e : Env) (k : Fin 8) : Bool := e.preempt.getLsbD k.val

/-- The sequencer of instance k takes a step in the cycle that starts with `s` (R35, R390). -/
def moves (s : State) (e : Env) (k : Fin 8) : Bool :=
  decide ((s.instAt k).phase ≠ .idle) && !(s.instAt k).stalled (preemptOf e k)

/-- The DECODE cycle (R381): an illegal word ends with ILLEGAL_CMD (R135), a command performs its
action. -/
def decodeStep (s : State) : Host.Outcome State Fault Refusal :=
  match decode s.inst.h.cmdword with
  | .illegal _ => .next (s.onInst (Inst.finish false .illegalCmd))
  | .command i => exec i s

/-- One step of the acting instance's sequencer, by its phase (R76). -/
def seqStep (s : State) : Host.Outcome State Fault Refusal :=
  match s.inst.phase with
  | .idle => .next s
  | .decode => decodeStep s
  | .gate => .next (gateStep s)
  | .awaitSlot => .next (awaitSlotStep s)
  | .holdHigh => .next (holdHighStep s)
  | .finalLow => .next (finalLowStep s)
  | .hwWait => .next (hwWaitStep s)

/-- The machine seen from instance k. -/
def State.focus (s : State) (k : Fin 8) : State := { s with cur := k }

/-- The sequencers of a list of instances, one after another. They meet only in the pool, whose free
slots were noted at the cycle's start, so the order is that of the arbiter (R35, R253). -/
def seqSteps : List (Fin 8) → State → Host.Outcome State Fault Refusal
  | [], s => .next s
  | k :: ks, s =>
    match seqStep (s.focus k) with
    | .next t => seqSteps ks t
    | .fault f => .fault f
    | .refused r => .refused r

/-- Steps (1) and (2) of the cycle for every host, then the stores to the source space and the races
they make (R35, R115). DESIGN CHOICE (log 25): the spec gives the stores of one cycle no order; here the
hosts store by increasing instance id and then the other agents in the order listed, so of several
stores to one address the last of these remains. -/
def hostPhase (s : State) (e : Env) : State :=
  noteRaces s ((hostTurns e.rstLow s.ids s.openCycle).ports.stores ++ e.stores) allIds
    { hostTurns e.rstLow s.ids s.openCycle with
      mem := storeAll s.mem ((hostTurns e.rstLow s.ids s.openCycle).ports.stores ++ e.stores) }

/-- The instances whose sequencers step in this cycle (R35 step (3)). -/
def State.movers (s : State) (e : Env) : List (Fin 8) := s.ids.filter (fun k => moves s e k)

/-- Step (5) and the channels: the translate service answers the pulls, then every channel goes
through its cycle (R35, R266, R281). `sc` is the machine at the cycle's start. -/
def peripheralPhase (sc : State) (e : Env) (s : State) : State :=
  runChans e sc.slots (servePulls sc e sc.slots s)

/-- Step (6), `CYCLE <- CYCLE + 1`, and the arbiter's list closed (R35). -/
def closeCycle (sc s : State) : State :=
  { s with cycle := sc.cycle + 1, arb := [], cur := sc.cur }

/-- The reset state of the unit (R81, R420, R424): instances, pool and CYCLE. The source space, the
channels and the hosts are outside the unit and go on (R425). -/
def State.resetUnit (s : State) : State :=
  { s with
    cycle := 0
    insts := Vector.replicate 8 Inst.reset
    pool := Vector.replicate 15 Slot.reset
    raced := Vector.replicate 8 []
    arb := [] }

/-- A cycle with `rst_n` low (R420). The unit "does not read memory" in it (R424): the translate
service sees the pool as reset leaves it, without a held slot, so that a channel still running is
answered as it is after reset, with no read (R425, R271; log 18). -/
def resetCycle (s : State) (e : Env) : State :=
  (peripheralPhase s.resetUnit e (hostPhase s e)).resetUnit

/-- A cycle with `rst_n` high (R35). -/
def runCycle (s : State) (e : Env) : Host.Outcome State Fault Refusal :=
  match seqSteps (s.movers e) (hostPhase s e) with
  | .next t => .next (closeCycle s (peripheralPhase s e t))
  | .fault f => .fault f
  | .refused r => .refused r

/-- One clock cycle: `S_{c+1} = Step(S_c, In_c)` (R34). -/
def clockCycle (s : State) : Host.Outcome State Fault Refusal :=
  if s.params.legal then
    if s.input.rstLow then .next (resetCycle s s.input) else runCycle s s.input
  else .fault .illegalBuild

/-- Where a command stands for the acting instance's next DECODE cycle (R45, R381): as an accepted
CMD write leaves it, with the cycle's inputs quiet so that the sequencer is not stalled. -/
def placeCommand (s : State) (w : Word) : State :=
  { s.onInst (fun x =>
      { x with
        status := { x.status with busy := true }
        h := { x.h with cmdword := w }
        phase := .decode }) with
    env := Env.quiet :: s.env }

end Sys2Proof.Machine
end

