-- ==== Sys2Proof/Machine/Step.lean ====
section
/-! DEFINITION. The step of the machine, one cycle of `clk` (10_state.md R34), and where an
instruction stands for it: the accepted command word (R45). -/

namespace Sys2Proof.Machine

/-- One step: one clock cycle (R34, R35). -/
def step (s : State) : Host.Outcome State Fault Refusal := clockCycle s

/-- The machine with the instruction whose bits are `w` as the acting instance's accepted command, in
phase DECODE, so that the very next step runs it (log 9). -/
def State.withFetchWord (s : State) (nbits w : Nat) : State :=
  placeCommand s (BitVec.ofNat 32 (w % 2 ^ nbits))

end Sys2Proof.Machine
end

