-- ==== Sys2Proof/Machine/Run.lean ====
section
/-! DEFINITION. A run of a host program and what is observed of it (70_reset_and_hazards.md R452,
92_eei_decisions.md D49). -/

namespace Sys2Proof.Machine

/-- The line in one cycle: the triple DOUT_OE, routed, level (R37, R452). -/
structure LineSample where
  oe : Bool
  routed : Bool
  level : Option Bool
  deriving DecidableEq, Repr

/-- Instance k's line in the cycle that starts with `s` (R37). -/
def State.lineSample (s : State) (k : Fin 8) : LineSample where
  oe := (s.instAt k).pins.doutOe
  routed := (s.instAt k).routed
  level := s.lineLevel k

/-- The observation of a run (R452): the number `cycles` of its last cycle E counted from its start,
`S_E`, the line trace of the cycles 0 to E, the read trace, each address with the value of CYCLE in its
cycle, and the values host reads returned. -/
structure Run where
  cycles : Nat
  final : State
  line : List LineSample
  reads : List (Time × Word)
  values : List Word
  deriving DecidableEq, Repr

/-- The cycle that starts with `s` is the last of instance k's run: "the program's last statement has
been performed and S_E.STATUS.BUSY = 0" (R452). DEDUCED (log 28): a read, a WAIT_IDLE or an IDLE has
been performed in its own cycle, a write and a MEMW, whose effect is in S of the next, from there on. -/
def runEnds (s : State) (k : Fin 8) : Bool :=
  !(s.instAt k).status.busy &&
    match skipIdle (s.hostAt k) with
    | [] => true
    | .read _ _ :: rest => (skipIdle rest).isEmpty
    | .waitIdle :: rest => (skipIdle rest).isEmpty
    | .idle n :: rest => decide (n ≤ 1) && (skipIdle rest).isEmpty
    | .write _ _ _ :: _ => false
    | .memw _ _ :: _ => false

/-- A run that is over in the cycle from `s` to `t`. -/
def lastCycle (k : Fin 8) (s t : State) : Run where
  cycles := 0
  final := s
  line := [s.lineSample k]
  reads := (t.readsOf k).map (fun a => (s.cycle, a))
  values := (t.ports.rdata[k.val]).toList

/-- The observation of a run that goes on with `r` after the cycle from `s` to `t`. -/
def Run.after (k : Fin 8) (s t : State) (r : Run) : Run where
  cycles := r.cycles + 1
  final := r.final
  line := s.lineSample k :: r.line
  reads := (t.readsOf k).map (fun a => (s.cycle, a)) ++ r.reads
  values := (t.ports.rdata[k.val]).toList ++ r.values

/-- Instance k's run from `s`, where its host's list is the program (R452): its observation, none if the
run does not end within `n` cycles. -/
def observe (k : Fin 8) : Nat → State → Option Run
  | 0, _ => none
  | n + 1, s =>
    match step s with
    | .next t =>
      if runEnds s k then some (lastCycle k s t) else (observe k n t).map (Run.after k s t)
    | .fault _ => none
    | .refused _ => none

/-- The start of a run: the program of the assembler stands before instance k's host (R137, R138,
R452); none when the assembler refuses a line. -/
def State.startRun (s : State) (k : Fin 8) (program : List AsmStmt) : Option State :=
  (assembleAll program).map (s.setHostAt k)

end Sys2Proof.Machine
end

