-- ==== Sys2Proof/Safety.lean ====
section
/-! DEFINITION. The terms statements use: what an instruction leaves alone, and the invariant that
rules out the states no run reaches (10_state.md R42 to R65, 42_hw_pulsegen.md R277, R278). -/

namespace Sys2Proof.Machine

/-- Everything outside the acting instance is as before: the build, CYCLE, every other instance, the
pool, the channels, every byte of the source space, and the model's own fields. -/
def SameOutside (s t : State) : Prop :=
  t.params = s.params ∧ t.cycle = s.cycle ∧ (∀ k, k ≠ s.cur → t.instAt k = s.instAt k) ∧
    t.pool = s.pool ∧ t.chans = s.chans ∧ (∀ a, memFind t.mem a = memFind s.mem a) ∧
    t.hosts = s.hosts ∧ t.env = s.env ∧ t.draws = s.draws ∧ t.raced = s.raced ∧
    t.ports = s.ports ∧ t.arb = s.arb ∧ t.cur = s.cur

/-- The fields of CTRL are legal for the build (R42, R43). -/
def Ctrl.Ok (p : Params) (c : Ctrl) : Prop :=
  (c.backend = true → p.hasPulsegen = true) ∧
    (c.intTol = true → p.intTolSupported = true) ∧
    (c.dbgEn = true → p.hasDebugPins = true) ∧
    (c.intTol = false → c.retry = 0)

/-- A profile marked valid has ordered cycle counts and a known frequency (R174). -/
def Profile.Ok (f : Profile) : Prop :=
  0 < f.cycT0h.toNat ∧ f.cycT0h.toNat < f.cycT1h.toNat ∧ f.cycT1h.toNat < f.cycPeriod.toNat ∧
    f.cycPeriod.toNat ≤ f.cycReset.toNat ∧ f.cycPeriod.toNat ≤ f.cycMindisp.toNat ∧
    0 < f.fHz.toNat

/-- `h.mask` is one-hot (R62). -/
def OneHot (m : Byte) : Prop :=
  m = 0x80 ∨ m = 0x40 ∨ m = 0x20 ∨ m = 0x10 ∨ m = 0x08 ∨ m = 0x04 ∨ m = 0x02 ∨ m = 0x01

/-- A transmission command is running: its operands are legal and its profile is valid (R300, R341).
A FORCE_CLEAR has driven the line and has no source buffer (R341). -/
def Inst.Running (x : Inst) : Prop :=
  x.noProfile = false ∧
    (x.h.cmdword.extractLsb' 0 8 = 0x02 ∨ x.h.cmdword.extractLsb' 0 8 = 0x03) ∧
    x.h.src.toNat + x.h.len.toNat ≤ 2 ^ 32 ∧
    (x.h.null = false → x.ctrl.reorder = true → x.h.len.toNat % 3 = 0) ∧
    (x.h.null = true → x.h.bright = 0) ∧
    (x.h.cmdword.extractLsb' 0 8 = 0x03 → x.h.null = true ∧ x.pins.doutOe = true)

/-- The bit loop's cursor and mask (R62, R223). -/
def Inst.InFrame (x : Inst) : Prop :=
  1 ≤ x.h.cursor.toNat ∧ x.h.cursor.toNat ≤ x.h.len.toNat

/-- What holds of the sequencer's registers in each phase. -/
def Inst.PhaseOk (x : Inst) : Prop :=
  match x.phase with
  | .idle => True
  | .decode => True
  | .gate => x.Running
  | .awaitSlot =>
    x.Running ∧ x.ctrl.backend = false ∧ x.InFrame ∧ x.h.eof = false ∧ OneHot x.h.mask
  | .holdHigh =>
    x.Running ∧ x.ctrl.backend = false ∧ x.InFrame ∧
      ((x.h.eof = false ∧ OneHot x.h.mask) ∨ (x.h.eof = true ∧ x.h.mask = 0))
  | .finalLow => x.Running ∧ x.ctrl.backend = false ∧ x.InFrame ∧ x.h.eof = true
  | .hwWait => x.Running ∧ x.ctrl.backend = true ∧ 1 ≤ x.h.len.toNat

/-- The invariant of one instance: BUSY mirrors the phase, CTRL and the profile are legal, the line
register is high exactly in HOLD_HIGH, the attempt count is mirrored, the debug pins are absent with
their parameter. -/
def Inst.Ok (p : Params) (x : Inst) : Prop :=
  (x.status.busy = true ↔ x.phase ≠ .idle) ∧
    x.ctrl.Ok p ∧
    (x.status.profileValid = true → x.prof.Ok) ∧
    (x.status.hwProfileValid = true → x.status.profileValid = true ∧ p.hasPulsegen = true) ∧
    (x.pins.dout = true ↔ x.phase = .holdHigh) ∧
    x.status.attempts = x.h.attempts ∧
    (p.hasDebugPins = false → x.pins.dbgStart = false ∧ x.pins.dbgAbort = false) ∧
    x.PhaseOk

/-- A slot in use is a slot of the build, held by exactly the instance its owner field names, which
waits on that channel, and its metadata are that instance's (R77, R252, R254, R278); a waiting
instance holds the slot it names. A slot not in use is all 0 (R277). -/
def State.PoolOk (s : State) : Prop :=
  (∀ j : Fin 15, (s.slotAt j).inUse = true →
      s.params.hasPulsegen = true ∧ j.val < s.params.nCh ∧
        (s.instAt (s.slotAt j).owner).phase = .hwWait ∧
        (s.instAt (s.slotAt j).owner).h.hwJ = j ∧
        s.slotAt j = fillSlot (s.slotAt j).owner (s.instAt (s.slotAt j).owner)) ∧
    (∀ k : Fin 8, (s.instAt k).phase = .hwWait →
      (s.slotAt (s.instAt k).h.hwJ).inUse = true ∧ (s.slotAt (s.instAt k).h.hwJ).owner = k) ∧
    (∀ j : Fin 15, (s.slotAt j).inUse = false → s.slotAt j = Slot.reset)

/-- The invariant of the machine: a legal build, every instance well kept, the instances outside the
build in their reset state, the pool consistent, the source space in its canonical form, no grant
left over. -/
def State.Inv (s : State) : Prop :=
  s.params.legal ∧ (∀ k, (s.instAt k).Ok s.params) ∧
    (∀ k : Fin 8, s.params.nInst ≤ k.val → s.instAt k = Inst.reset) ∧
    s.PoolOk ∧ Memory.wf s.mem = true ∧ s.arb = []

/-- `n` cycles one after another. -/
def runFor : Nat → State → Host.Outcome State Fault Refusal
  | 0, s => .next s
  | n + 1, s =>
    match step s with
    | .next t => runFor n t
    | .fault f => .fault f
    | .refused r => .refused r

/-- The inputs of the next `n` cycles are listed, without a reset and without a stall of instance k in
the bit loop (R390). -/
def State.Undisturbed (s : State) (k : Fin 8) (n : Nat) : Prop :=
  ∀ i, i < n → ∃ e, s.env[i]? = some e ∧ e.rstLow = false ∧
    (preemptOf e k = false ∨ (s.instAt k).ctrl.intTol = false)

end Sys2Proof.Machine
end

