-- ==== Sys2Proof/Certificates/Slice0/Obligations.lean ====
section
/-! DEFINITION. The statements for the provers, from the spec's numbered rules. -/

open Sys2Proof Sys2Proof.Machine

/-! ## Command words -/

/-- Every well-formed command decodes from its own word, with its operand at every value the field
admits (R131 to R134, R137). -/
def Obligations.DecodeInvertsEncode : Prop :=
  ∀ i : Instr, i.wf = true → decode (encode i) = .command i

/-- What each command word decodes to, by its value as a number, and which words are illegal (R131,
R132, R134). -/
def Obligations.CommandWordValues : Prop :=
  ∀ w : Word,
    (decode w = .command .nop ↔ w.toNat = 0) ∧
    (decode w = .command .loadProfile ↔ w.toNat = 1) ∧
    (∀ b, decode w = .command (.showFrame b) ↔ b < 256 ∧ w.toNat = b * 256 + 2) ∧
    (∀ n, decode w = .command (.forceClear n) ↔ w.toNat = n * 256 + 3) ∧
    (decode w = .command .getStats ↔ w.toNat = 4) ∧
    (decode w = .command .clearStats ↔ w.toNat = 5) ∧
    (decode w = .command .beginLine ↔ w.toNat = 6) ∧
    ((∃ why, decode w = .illegal why) ↔
      7 ≤ w.toNat % 256 ∨
      (w.toNat % 256 ≠ 2 ∧ w.toNat % 256 ≠ 3 ∧ w.toNat / 256 ≠ 0) ∨
      (w.toNat % 256 = 2 ∧ w.toNat / 65536 ≠ 0))

/-- The opcode map's rows: a word selects the row whose mask and match it meets, and at most one
(R133). -/
def Obligations.RowsSelectWords : Prop :=
  (∀ (w : Word) (i : Instr), decode w = .command i → w &&& rowMask i = rowMatch i) ∧
  (∀ (w : Word) (i : Instr), w &&& rowMask i = rowMatch i →
    ∃ j, decode w = .command j ∧ rowMatch j = rowMatch i) ∧
  (∀ (w : Word) (i j : Instr), w &&& rowMask i = rowMatch i → w &&& rowMask j = rowMatch j →
    rowMatch i = rowMatch j) ∧
  (∀ b n, rowMatch .nop = 0 ∧ rowMatch .loadProfile = 1 ∧ rowMatch (.showFrame b) = 2 ∧
    rowMatch (.forceClear n) = 3 ∧ rowMatch .getStats = 4 ∧ rowMatch .clearStats = 5 ∧
    rowMatch .beginLine = 6 ∧ rowMask (.showFrame b) = 0xFFFF00FF ∧
    rowMask (.forceClear n) = 0x000000FF) ∧
  (∀ i, (∀ b, i ≠ .showFrame b) → (∀ n, i ≠ .forceClear n) → rowMask i = 0xFFFFFFFF)

/-- An illegal word is accepted like any command and ends in its DECODE cycle with ILLEGAL_CMD;
nothing else of the machine changes (R135). -/
def Obligations.IllegalWordsEndWithError : Prop :=
  (∀ w : Word, (7 ≤ w.toNat % 256 ∨
      (w.toNat % 256 ≠ 2 ∧ w.toNat % 256 ≠ 3 ∧ w.toNat / 256 ≠ 0) ∨
      (w.toNat % 256 = 2 ∧ w.toNat / 65536 ≠ 0)) → ∃ why, decode w = .illegal why) ∧
  (∀ (p : Params) (x : Inst) (w : Word), x.status.busy = false →
    x.busWrite p 0x0C .word w =
      { x with
        status := { x.status with busy := true }
        h := { x.h with cmdword := w }
        phase := .decode }) ∧
  (∀ (s : State) (why : Illegal), s.inst.phase = .decode → decode s.inst.h.cmdword = .illegal why →
    ∃ t, seqStep s = .next t ∧ SameOutside s t ∧
      t.inst = { s.inst with
        status := { s.inst.status with
          busy := false, lastOk := false, err := .illegalCmd, irqPend := true }
        phase := .idle })

/-- Words written out from the encoding tables (R131, R133, R137). -/
def Obligations.SampleWordsDecode : Prop :=
  decode 0x00000000 = .command .nop ∧ decode 0x00000001 = .command .loadProfile ∧
  decode 0x0000FF02 = .command (.showFrame 255) ∧ decode 0x00000002 = .command (.showFrame 0) ∧
  decode 0x00000103 = .command (.forceClear 1) ∧
  decode 0xFFFFFF03 = .command (.forceClear 16777215) ∧
  decode 0x00000004 = .command .getStats ∧ decode 0x00000005 = .command .clearStats ∧
  decode 0x00000006 = .command .beginLine ∧
  decode 0x00010002 = .illegal (.mustBeZero 0x02) ∧ decode 0x00000100 = .illegal (.mustBeZero 0x00) ∧
  decode 0x00000007 = .illegal (.reservedOp 0x07)

/-- The expansion of the assembler's statements; an operand that does not fit is refused (R137). -/
def Obligations.AssemblerExpandsStatements : Prop :=
  (∀ r imm, assemble (.wr r imm) = some [.write r.offset .word imm]) ∧
  (∀ r, assemble (.rd r) = some [.read r.offset .word]) ∧
  (∀ w, assemble (.raw w) = some [.write 0x0C .word w]) ∧
  assemble (.cmd .nop) = some [.write 0x0C .word 0x00000000] ∧
  assemble (.cmd .loadProfile) = some [.write 0x0C .word 0x00000001] ∧
  (∀ b, assemble (.cmd (.showFrame b)) =
    if b ≤ 255 then some [.write 0x0C .word (BitVec.ofNat 32 (b * 256 + 2))] else none) ∧
  (∀ n, assemble (.cmd (.forceClear n)) =
    if n < 2 ^ 24 then some [.write 0x0C .word (BitVec.ofNat 32 (n * 256 + 3))] else none) ∧
  assemble (.cmd .getStats) = some [.write 0x0C .word 0x00000004] ∧
  assemble (.cmd .clearStats) = some [.write 0x0C .word 0x00000005] ∧
  assemble (.cmd .beginLine) = some [.write 0x0C .word 0x00000006]

/-! ## The cycle -/

/-- A cycle in which instance k's sequencer is not idle and not stalled runs `seqStep` at k's turn, after
the hosts' part and the turns of the instances before k, followed by the turns of those after k, the
translate service and the channels, and CYCLE + 1 (R35, R390). At its turn k is as its own host's turn
leaves it, the source space holds the cycle's stores, and what the sequencer makes of k stands in the next
state. In DECODE the turn is `exec` of the decoded command (R381). -/
def Obligations.StepRunsDecodedCommand : Prop :=
  ∀ (s : State) (k : Fin 8),
    s.params.legal → s.input.rstLow = false → k.val < s.params.nInst →
    (s.instAt k).phase ≠ .idle → (s.instAt k).stalled (preemptOf s.input k) = false →
    ∃ before after u, s.movers s.input = before ++ k :: after ∧
      seqSteps before (hostPhase s s.input) = .next u ∧
      u.instAt k = (hostTurn false k s.openCycle).instAt k ∧
      u.params = s.params ∧ u.cycle = s.cycle ∧ u.chans = s.chans ∧
      u.mem = storeAll s.mem (u.ports.stores ++ s.input.stores) ∧
      step s =
        (match seqStep (u.focus k) with
        | .next v =>
          (match seqSteps after v with
            | .next w => .next (closeCycle s (peripheralPhase s s.input w))
            | .fault f => .fault f
            | .refused r => .refused r)
        | .fault f => .fault f
        | .refused r => .refused r) ∧
      (∀ v t, seqStep (u.focus k) = .next v → step s = .next t → t.instAt k = v.instAt k) ∧
      ∀ i, (s.instAt k).status.busy = true → (s.instAt k).phase = .decode →
        decode (s.instAt k).h.cmdword = .command i → seqStep (u.focus k) = exec i (u.focus k)

/-- The machine never stops: a cycle of a legal build always answers a next state (R34); a build outside
the ranges of R9 is no machine and faults, which is the model's choice (log 4). -/
def Obligations.StepCompletes : Prop :=
  ∀ s : State,
    (s.params.legal → ∃ t, step s = .next t) ∧
    (¬ s.params.legal → step s = .fault .illegalBuild)

/-- CYCLE is 0 after reset and increases by exactly 1 every cycle, modulo 2^64 (R32); a cycle with
`rst_n` low makes it 0 (R420). -/
def Obligations.CycleCounterAdvances : Prop :=
  (∀ p, (State.resetOf p).cycle = 0) ∧
  (∀ s t : State, step s = .next t →
    (s.input.rstLow = false → t.cycle.toNat = (s.cycle.toNat + 1) % 2 ^ 64) ∧
    (s.input.rstLow = true → t.cycle = 0))

/-- A cycle with `rst_n` low leaves the reset state of every instance, slot and CYCLE, whatever the
state and the other inputs; every host read in it returns 0 (R420). No channel is signalled, no source
byte is read, and only the hosts' and other agents' stores change the source space (R424). -/
def Obligations.ResetCycleClearsUnit : Prop :=
  ∀ s t : State, step s = .next t → s.input.rstLow = true →
    (∀ k, t.instAt k = Inst.reset) ∧ (∀ j, t.slotAt j = Slot.reset) ∧ t.cycle = 0 ∧
    (∀ k : Fin 8, ∀ v, t.ports.rdata[k.val] = some v → v = 0) ∧
    t.ports.kicks = [] ∧ t.ports.stops = [] ∧ t.ports.reads = [] ∧
    ∀ a : Nat, (∀ c ∈ t.ports.stores ++ s.input.stores, c.1.toNat ≠ a) →
      memFind t.mem a = memFind s.mem a

/-- The reset state: every register of the window at its reset value, phase IDLE, every hidden
register, output and pool slot 0, the line not driven (R40, R81, R421). -/
def Obligations.ResetRegisterValues : Prop :=
  ∀ (p : Params) (k : Fin 8) (j : Fin 15),
    let x := (State.resetOf p).instAt k
    let q := (State.resetOf p).slotAt j
    (∀ r, readReg (State.resetOf p).cycle x r =
      if r = .id then 0x4E505801 else if r = .status then 0x0F000000
      else if r = .hwTimeout then 0xFFFFFFFF else 0) ∧
    x.phase = .idle ∧
    x.h.cmdword = 0 ∧ x.h.src = 0 ∧ x.h.len = 0 ∧ x.h.bright = 0 ∧ x.h.null = false ∧
    x.h.cur = 0 ∧ x.h.mask = 0 ∧ x.h.cursor = 0 ∧ x.h.eof = false ∧ x.h.first = false ∧
    x.h.tStart = 0 ∧ x.h.tHold = 0 ∧ x.h.left = 0 ∧ x.h.attempts = 0 ∧ x.h.gateT = 0 ∧
    x.h.gateD = 0 ∧ x.h.hwJ = 0 ∧ x.h.hwT = 0 ∧ x.h.err = .none ∧ x.prof.fHz = 0 ∧
    x.prof.kT0h = 0 ∧ x.prof.kT1h = 0 ∧ x.prof.kPeriod = 0 ∧ x.hiLatch = 0 ∧
    x.pins.dout = false ∧ x.pins.doutOe = false ∧ x.pins.dbgStart = false ∧
    x.pins.dbgAbort = false ∧ x.irq = false ∧ (State.resetOf p).lineLevel k = none ∧
    q.inUse = false ∧ q.owner = 0 ∧ q.srcLo = 0 ∧ q.srcHi = 0 ∧ q.null = false ∧ q.vlen = 0 ∧
    q.bit0 = 0 ∧ q.bit1 = 0 ∧ q.bright = 0 ∧ q.reorder = false ∧ q.order.code = 0

/-- The invariant holds after the reset of every legal build. -/
def Obligations.ResetMeetsInv : Prop :=
  (∀ p : Params, p.legal → (State.resetOf p).Inv) ∧ State.reset.Inv

/-- Every cycle keeps the invariant of Safety.lean: BUSY mirrors the phase, CTRL and the profile are
legal, the line register is high exactly in HOLD_HIGH, the bit loop's mask is one-hot and its cursor in
range, a FORCE_CLEAR drives the line, the pool is mutually exclusive and carries its owners' metadata,
the source space stays canonical (R42 to R44, R62, R77, R174, R252 to R254, R277, R278, R280). -/
def Obligations.StepKeepsInv : Prop :=
  ∀ s t : State, s.Inv → step s = .next t → t.Inv

/-! ## The commands -/

/-- NOP ends with success and changes nothing but BUSY, LAST_OK, ERR and IRQ_PEND (R360, R380). -/
def Obligations.NopCompletes : Prop :=
  ∀ s : State, ∃ t, exec .nop s = .next t ∧ SameOutside s t ∧
    t.inst = { s.inst with
      status := { s.inst.status with busy := false, lastOk := true, err := .none, irqPend := true }
      phase := .idle }

/-- LOAD_PROFILE: what it writes, when the profiles are valid, how it ends, and that nothing else
changes (R171 to R176). -/
def Obligations.LoadProfileConverts : Prop :=
  ∀ s : State,
    let g := s.inst.cfg
    let hz (f : Word) : Nat := if f.toNat < 1000000 then f.toNat * 1000000 else f.toNat
    let c (ns : Word) : Nat := hz g.clkFreq * ns.toNat / 1000000000
    let k (ns : Word) : Nat := hz g.periphFreq * ns.toNat / 1000000000
    let okSw : Prop :=
      (0 < g.t0hNs.toNat ∧ g.t0hNs.toNat < g.t1hNs.toNat ∧ g.t1hNs.toNat < g.periodNs.toNat ∧
        g.periodNs.toNat ≤ g.resetNs.toNat) ∧
      (0 < c g.t0hNs ∧ c g.t0hNs < c g.t1hNs ∧ c g.t1hNs < c g.periodNs ∧
        c g.periodNs ≤ c g.resetNs ∧ c g.periodNs ≤ c g.mindispNs) ∧
      (c g.t0hNs < 2 ^ 32 ∧ c g.t1hNs < 2 ^ 32 ∧ c g.periodNs < 2 ^ 32 ∧ c g.resetNs < 2 ^ 32 ∧
        c g.mindispNs < 2 ^ 32)
    let okHw : Prop :=
      s.params.hasPulsegen = true ∧ okSw ∧ 0 < k g.t0hNs ∧ k g.t0hNs < k g.t1hNs ∧
        k g.t1hNs < k g.periodNs ∧ k g.periodNs ≤ 32767
    ∃ t, exec .loadProfile s = .next t ∧ SameOutside s t ∧
      t.inst.ctrl = s.inst.ctrl ∧ t.inst.cfg = s.inst.cfg ∧ t.inst.stats = s.inst.stats ∧
      t.inst.h = s.inst.h ∧ t.inst.hiLatch = s.inst.hiLatch ∧ t.inst.pins = s.inst.pins ∧
      t.inst.phase = .idle ∧
      t.inst.prof.cycT0h.toNat = min (c g.t0hNs) 0xFFFFFFFF ∧
      t.inst.prof.cycT1h.toNat = min (c g.t1hNs) 0xFFFFFFFF ∧
      t.inst.prof.cycPeriod.toNat = min (c g.periodNs) 0xFFFFFFFF ∧
      t.inst.prof.cycReset.toNat = min (c g.resetNs) 0xFFFFFFFF ∧
      t.inst.prof.cycMindisp.toNat = min (c g.mindispNs) 0xFFFFFFFF ∧
      t.inst.prof.fHz.toNat = hz g.clkFreq ∧
      (t.inst.status.profileValid = true ↔ okSw) ∧
      (t.inst.status.hwProfileValid = true ↔ okHw) ∧
      (okHw → t.inst.prof.kT0h.toNat = k g.t0hNs ∧ t.inst.prof.kT1h.toNat = k g.t1hNs ∧
        t.inst.prof.kPeriod.toNat = k g.periodNs ∧
        t.inst.prof.hwBit0 =
          item t.inst.prof.kT0h true (t.inst.prof.kPeriod - t.inst.prof.kT0h) false ∧
        t.inst.prof.hwBit1 =
          item t.inst.prof.kT1h true (t.inst.prof.kPeriod - t.inst.prof.kT1h) false) ∧
      (¬ okHw → t.inst.prof.kT0h = 0 ∧ t.inst.prof.kT1h = 0 ∧ t.inst.prof.kPeriod = 0 ∧
        t.inst.prof.hwBit0 = 0 ∧ t.inst.prof.hwBit1 = 0) ∧
      (t.inst.status.lastOk = true ↔ okSw ∧ (s.inst.ctrl.backend = true → okHw)) ∧
      t.inst.status.err = (if t.inst.status.lastOk then .none else .cfgInvalid) ∧
      t.inst.status.busy = false ∧ t.inst.status.irqPend = true ∧
      t.inst.status.wrIgnored = s.inst.status.wrIgnored ∧
      t.inst.status.attempts = s.inst.status.attempts ∧
      t.inst.status.hwChan = s.inst.status.hwChan

/-- The cycle conversion is exact, and for a frequency read as MHz it is the source's
floor(f × ns / 1000) (R171, R172). Where CLK_FREQ and PERIPH_FREQ are the actual frequencies (R433), a
converted duration, of cycles or of ticks, is at most the nanoseconds asked for and short of them by
less than one cycle or tick (R446, R451), so the two backends agree up to that rounding (R283). -/
def Obligations.ConversionIsExact : Prop :=
  ∀ f ns : Word,
    conv f ns = (if f.toNat < 1000000 then f.toNat * 1000000 else f.toNat) * ns.toNat / 1000000000 ∧
    (f.toNat < 1000000 → conv f ns = f.toNat * ns.toNat / 1000) ∧
    (if f.toNat < 1000000 then f.toNat * 1000000 else f.toNat) * ns.toNat < 2 ^ 72 ∧
    ∀ (p : Params) (g : Word), 1 ≤ p.fClk → 1 ≤ p.fPeriph →
      p.fClk = (if f.toNat < 1000000 then f.toNat * 1000000 else f.toNat) →
      p.fPeriph = (if g.toNat < 1000000 then g.toNat * 1000000 else g.toNat) →
      cyclesNs p (conv f ns) ≤ ns.toNat ∧ ns.toNat < cyclesNs p (conv f ns + 1) ∧
      ticksNs p (conv g ns) ≤ ns.toNat ∧ ns.toNat < ticksNs p (conv g ns + 1) ∧
      cyclesNs p (conv f ns) < ticksNs p (conv g ns) + ticksNs p 1 ∧
      ticksNs p (conv g ns) < cyclesNs p (conv f ns) + cyclesNs p 1

/-- A pulse item holds what it is made of, and a template spans one bit period: high for its high
time, then low for the rest (R155, R156). -/
def Obligations.ItemFieldsAndTemplates : Prop :=
  (∀ (d0 d1 : BitVec 15) (l0 l1 : Bool),
    itemD0 (item d0 l0 d1 l1) = d0.toNat ∧ itemL0 (item d0 l0 d1 l1) = l0 ∧
    itemD1 (item d0 l0 d1 l1) = d1.toNat ∧ itemL1 (item d0 l0 d1 l1) = l1 ∧
    (item d0 l0 d1 l1).toNat =
      d0.toNat + l0.toNat * 2 ^ 15 + d1.toNat * 2 ^ 16 + l1.toNat * 2 ^ 31) ∧
  (∀ k kp : BitVec 15, k.toNat ≤ kp.toNat →
    itemD0 (template k kp) = k.toNat ∧ itemL0 (template k kp) = true ∧
    itemD0 (template k kp) + itemD1 (template k kp) = kp.toNat ∧ itemL1 (template k kp) = false)

/-- The DECODE cycle of SHOW: NO_PROFILE before BAD_LENGTH, else the operands, the retry budget and
the throttle gate (R300, R302, R303, R372). -/
def Obligations.ShowDecodes : Prop :=
  ∀ (s : State) (b : Nat), (Instr.showFrame b).wf = true →
    let x := s.inst
    let noProfile : Prop := x.status.profileValid = false ∨
      (x.ctrl.backend = true ∧ x.status.hwProfileValid = false)
    let badLength : Prop := (x.ctrl.reorder = true ∧ x.cfg.srcLen.toNat % 3 ≠ 0) ∨
      x.cfg.srcAddr.toNat + x.cfg.srcLen.toNat > 2 ^ 32
    ∃ t, exec (.showFrame b) s = .next t ∧ SameOutside s t ∧
      (noProfile → t.inst = { x with
        status := { x.status with busy := false, lastOk := false, err := .noProfile, irqPend := true }
        phase := .idle }) ∧
      (¬ noProfile ∧ badLength → t.inst = { x with
        status := { x.status with busy := false, lastOk := false, err := .badLength, irqPend := true }
        phase := .idle }) ∧
      (¬ noProfile ∧ ¬ badLength →
        t.inst = { x with
          status := { x.status with attempts := 0 }
          h := { x.h with
            src := x.cfg.srcAddr, len := x.cfg.srcLen, bright := t.inst.h.bright, null := false
            left := x.ctrl.retry, attempts := 0, err := .none
            gateT := x.stats.lastDisplay, gateD := x.prof.cycMindisp }
          phase := .gate } ∧
        t.inst.h.bright.toNat = b)

/-- The DECODE cycle of FORCE_CLEAR: the line driven low whatever follows, then NO_PROFILE, or the
null frame of 3N bytes, FC_ATTEMPTS attempts and the reset wait (R341, R303, R343). -/
def Obligations.ForceClearDecodes : Prop :=
  ∀ (s : State) (n : Nat), s.params.legal → (Instr.forceClear n).wf = true →
    let x := s.inst
    let noProfile : Prop := x.status.profileValid = false ∨
      (x.ctrl.backend = true ∧ x.status.hwProfileValid = false)
    ∃ t, exec (.forceClear n) s = .next t ∧ SameOutside s t ∧
      t.inst.pins = { x.pins with doutOe := true, dout := false } ∧
      (noProfile → t.inst = { x with
        status := { x.status with busy := false, lastOk := false, err := .noProfile, irqPend := true }
        pins := t.inst.pins
        phase := .idle }) ∧
      (¬ noProfile →
        t.inst = { x with
          status := { x.status with attempts := 0 }
          h := { x.h with
            src := 0, len := t.inst.h.len, bright := 0, null := true
            left := t.inst.h.left, attempts := 0, err := .none
            gateT := s.cycle, gateD := x.prof.cycReset }
          pins := t.inst.pins
          phase := .gate } ∧
        t.inst.h.len.toNat = 3 * n ∧ t.inst.h.left.toNat + 1 = s.params.fcAttempts)

/-- GET_STATS: the frames-per-second snapshot, and nothing else but the end of the command (R352).
The premise `STAT_START ≤ CYCLE` is R33's. -/
def Obligations.GetStatsSnapshots : Prop :=
  ∀ s : State,
    let x := s.inst
    let ms := (s.cycle.toNat - x.stats.start.toNat) * 1000 / x.prof.fHz.toNat
    ∃ t, exec .getStats s = .next t ∧ SameOutside s t ∧
      t.inst = { x with
        stats := { x.stats with fps := t.inst.stats.fps }
        status := { x.status with busy := false, lastOk := true, err := .none, irqPend := true }
        phase := .idle } ∧
      (x.status.profileValid = false → t.inst.stats.fps = 0) ∧
      (x.status.profileValid = true → x.stats.start.toNat ≤ s.cycle.toNat →
        t.inst.stats.fps.toNat =
          if ms = 0 then 0 else min (x.stats.frames.toNat * 1000 / ms) 0xFFFFFFFF)

/-- CLEAR_STATS: the counters and the snapshot 0, the epoch restarted; LAST_DISPLAY is not changed
(R355). -/
def Obligations.ClearStatsRestartsEpoch : Prop :=
  ∀ s : State, ∃ t, exec .clearStats s = .next t ∧ SameOutside s t ∧
    t.inst = { s.inst with
      stats := {
        frames := 0, aborted := 0, start := s.cycle, fps := 0
        lastDisplay := s.inst.stats.lastDisplay }
      status := { s.inst.status with busy := false, lastOk := true, err := .none, irqPend := true }
      phase := .idle }

/-- BEGIN drives the line low and does nothing else (R358). -/
def Obligations.BeginDrivesLineLow : Prop :=
  ∀ s : State, ∃ t, exec .beginLine s = .next t ∧ SameOutside s t ∧
    t.inst = { s.inst with
      pins := { s.inst.pins with doutOe := true, dout := false }
      status := { s.inst.status with busy := false, lastOk := true, err := .none, irqPend := true }
      phase := .idle } ∧
    t.lineLevel s.cur = some false

/-- The frame of every command: it completes; CTRL, the configuration registers, the CYCLE latch,
HW_CHAN, WR_IGNORED and the debug pins stay; only LOAD_PROFILE writes the profile and its flags, only
GET_STATS and CLEAR_STATS the statistics, none LAST_DISPLAY, only FORCE_CLEAR and BEGIN the line, only
SHOW and FORCE_CLEAR the hidden registers and ATTEMPTS (R176, R300, R341, R352, R355, R358, R360). -/
def Obligations.CommandFrame : Prop :=
  ∀ (i : Instr) (s : State), ∃ t, exec i s = .next t ∧ SameOutside s t ∧
    t.inst.ctrl = s.inst.ctrl ∧ t.inst.cfg = s.inst.cfg ∧ t.inst.hiLatch = s.inst.hiLatch ∧
    t.inst.status.hwChan = s.inst.status.hwChan ∧
    t.inst.status.wrIgnored = s.inst.status.wrIgnored ∧
    t.inst.pins.dbgStart = s.inst.pins.dbgStart ∧ t.inst.pins.dbgAbort = s.inst.pins.dbgAbort ∧
    t.inst.stats.lastDisplay = s.inst.stats.lastDisplay ∧
    t.inst.h.cmdword = s.inst.h.cmdword ∧
    (i ≠ .loadProfile → t.inst.prof = s.inst.prof ∧
      t.inst.status.profileValid = s.inst.status.profileValid ∧
      t.inst.status.hwProfileValid = s.inst.status.hwProfileValid) ∧
    (i ≠ .getStats → i ≠ .clearStats → t.inst.stats = s.inst.stats) ∧
    (i ≠ .beginLine → (∀ n, i ≠ .forceClear n) → t.inst.pins = s.inst.pins) ∧
    ((∀ b, i ≠ .showFrame b) → (∀ n, i ≠ .forceClear n) →
      t.inst.h = s.inst.h ∧ t.inst.status.attempts = s.inst.status.attempts ∧ t.inst.phase = .idle)

/-! ## Attempts -/

/-- A successful attempt: LAST_DISPLAY is its end cycle, a SHOW counts a frame, the command ends with
success, and nothing else changes (R306, R307, R346, R380). -/
def Obligations.AttemptSucceeds : Prop :=
  ∀ (x : Inst) (code : ErrCode) (f : Time),
    let y := x.endAttempt true code f
    y = { x with
      stats := { x.stats with lastDisplay := f, frames := y.stats.frames }
      status := { x.status with busy := false, lastOk := true, err := .none, irqPend := true }
      phase := .idle } ∧
    y.stats.frames.toNat =
      if x.h.cmdword.toNat % 256 = 2 then min (x.stats.frames.toNat + 1) 0xFFFFFFFF
      else x.stats.frames.toNat

/-- A failed attempt: LAST_DISPLAY, the counters of a SHOW, h.err, DBG_ABORT; then the failure of the
command when no retry is left, else a retry behind its gap (R302, R303, R306, R307, R341, R346,
R402). -/
def Obligations.AttemptFails : Prop :=
  ∀ (x : Inst) (code : ErrCode) (f : Time),
    let y := x.endAttempt false code f
    let isShow : Prop := x.h.cmdword.toNat % 256 = 2
    y.ctrl = x.ctrl ∧ y.cfg = x.cfg ∧ y.prof = x.prof ∧ y.hiLatch = x.hiLatch ∧
    y.pins = { x.pins with dbgAbort := if x.ctrl.dbgEn then !x.pins.dbgAbort else x.pins.dbgAbort } ∧
    y.stats = { x.stats with
      lastDisplay := f, frames := y.stats.frames, aborted := y.stats.aborted } ∧
    (isShow → y.stats.frames.toNat = min (x.stats.frames.toNat + 1) 0xFFFFFFFF ∧
      y.stats.aborted.toNat = min (x.stats.aborted.toNat + 1) 0xFFFFFFFF) ∧
    (¬ isShow → y.stats.frames = x.stats.frames ∧ y.stats.aborted = x.stats.aborted) ∧
    (x.h.left = 0 → y.h = { x.h with err := code } ∧ y.phase = .idle ∧
      y.status = { x.status with busy := false, lastOk := false, err := code, irqPend := true }) ∧
    (x.h.left ≠ 0 → y.status = x.status ∧ y.phase = .gate ∧
      y.h = { x.h with err := code, left := y.h.left, gateT := f, gateD := y.h.gateD } ∧
      y.h.left.toNat + 1 = x.h.left.toNat ∧
      y.h.gateD.toNat =
        if isShow then max x.prof.cycReset.toNat x.prof.cycMindisp.toNat else x.prof.cycReset.toNat)

/-- With retry budget R and attempts that always fail, exactly R + 1 attempts occur: up to the R-th the
sequencer goes back to GATE, with the (R + 1)-th the command ends with the last code, ATTEMPTS = R + 1
and both counters increased by R + 1 (R302, R306, R307, R313). An attempt is its start (R304) and its
end; `ends` lists the codes and end cycles. -/
def Obligations.RetryBudgetBoundsAttempts : Prop :=
  ∀ (x : Inst) (b : Byte) (ends : List (ErrCode × Time)),
    x.h.cmdword.toNat % 256 = 2 → ends.length ≤ x.ctrl.retry.toNat + 1 →
    let y := ends.foldl (fun z e => z.countAttempt.toggleStart.failAttempt e.1 e.2)
      (x.captureShow b)
    y.status.attempts.toNat = ends.length ∧
    y.stats.frames.toNat = min (x.stats.frames.toNat + ends.length) 0xFFFFFFFF ∧
    y.stats.aborted.toNat = min (x.stats.aborted.toNat + ends.length) 0xFFFFFFFF ∧
    (ends.length ≤ x.ctrl.retry.toNat → y.phase = .gate ∧
      y.h.left.toNat + ends.length = x.ctrl.retry.toNat) ∧
    (∀ e rest, ends = rest ++ [e] → y.stats.lastDisplay = e.2 ∧
      (ends.length = x.ctrl.retry.toNat + 1 →
        y.phase = .idle ∧ y.status.busy = false ∧ y.status.lastOk = false ∧ y.status.err = e.1))

/-- GATE: before the distance has passed nothing changes; once it has, an attempt starts: it is counted
and mirrored in STATUS, the start trigger toggles with DBG_EN, and the backend CTRL.BACKEND selects
runs (R303, R304, R402). The premise `h.gate_t ≤ CYCLE` is R33's. -/
def Obligations.GateWaitsThenStarts : Prop :=
  ∀ s : State, s.inst.phase = .gate → s.inst.h.gateT.toNat ≤ s.cycle.toNat →
    (s.cycle.toNat - s.inst.h.gateT.toNat < s.inst.h.gateD.toNat → seqStep s = .next s) ∧
    (s.inst.h.gateD.toNat ≤ s.cycle.toNat - s.inst.h.gateT.toNat →
      ∃ n : BitVec 8, n.toNat = min (s.inst.h.attempts.toNat + 1) 255 ∧
        seqStep s = .next ((if s.inst.ctrl.backend then hwStart else swStart)
          (s.onInst (fun x => { x with
            h := { x.h with attempts := n }
            status := { x.status with attempts := n }
            pins := { x.pins with
              dbgStart := if x.ctrl.dbgEn then !x.pins.dbgStart else x.pins.dbgStart } }))))

/-- sw_start: an empty frame succeeds without moving the pin; else byte 0 is loaded and the bit loop
awaits its first slot (R211). That HW_CHAN keeps the channel of the last hardware attempt is log 32's. -/
def Obligations.SoftwareStartLoadsFirstByte : Prop :=
  ∀ s : State,
    (s.inst.h.len = 0 → swStart s = s.onInst (fun x => x.endAttempt true .none s.cycle)) ∧
    (s.inst.h.len ≠ 0 →
      (swStart s).inst = { s.inst with
        h := { s.inst.h with
          cur := fetchByte s 0, cursor := 1, mask := 0x80, eof := false, first := true }
        phase := .awaitSlot } ∧
      (∀ k, k ≠ s.cur → (swStart s).instAt k = s.instAt k) ∧ (swStart s).pool = s.pool ∧
      (swStart s).chans = s.chans ∧ (swStart s).cycle = s.cycle ∧ (swStart s).mem = s.mem)

/-! ## The software bit loop -/

/-- AWAIT_SLOT, RAISE and abort: the frame's first slot raises at once; with INT_TOL a wait past
CYC_PERIOD + SLACK aborts with the line low and OVERRUN; from CYC_PERIOD on the bit is raised, its high
time chosen by the bit, and ADVANCE follows in the same cycle; before, nothing changes (R220, R221,
R222, R227). What `advance` does is AdvanceMovesOneBit. The premise
`h.t_start ≤ CYCLE` is R33's. -/
def Obligations.AwaitSlotRaisesOrAborts : Prop :=
  ∀ s : State, s.inst.phase = .awaitSlot → s.inst.h.tStart.toNat ≤ s.cycle.toNat →
    let x := s.inst
    let e := s.cycle.toNat - x.h.tStart.toNat
    let aborts : Prop := x.h.first = false ∧ x.ctrl.intTol = true ∧
      e > x.prof.cycPeriod.toNat + x.cfg.slack.toNat
    let raises : Prop := x.h.first = true ∨ (¬ aborts ∧ x.prof.cycPeriod.toNat ≤ e)
    (raises → seqStep s = .next ((advance (s.onInst (fun y => { y with
        pins := { y.pins with dout := true }
        h := { y.h with
          tHold := if y.h.cur &&& y.h.mask ≠ 0 then y.prof.cycT1h else y.prof.cycT0h
          tStart := s.cycle, first := false } }))).onInst (fun y => { y with phase := .holdHigh }))) ∧
    (aborts → seqStep s = .next (s.onInst (fun y =>
      ({ y with pins := { y.pins with dout := false } } : Inst).failAttempt .overrun s.cycle))) ∧
    (¬ raises → ¬ aborts → seqStep s = .next s)

/-- ADVANCE: one bit further; after a byte's last bit the next byte is loaded, or the frame's end is
marked; nothing else of the machine moves but the read port (R223). -/
def Obligations.AdvanceMovesOneBit : Prop :=
  ∀ s : State,
    let x := s.inst
    (∀ k, k ≠ s.cur → (advance s).instAt k = s.instAt k) ∧ (advance s).pool = s.pool ∧
    (advance s).chans = s.chans ∧ (advance s).mem = s.mem ∧ (advance s).cycle = s.cycle ∧
    (2 ≤ x.h.mask.toNat → (advance s).inst = { x with
      h := { x.h with mask := (advance s).inst.h.mask } } ∧
      (advance s).inst.h.mask.toNat = x.h.mask.toNat / 2) ∧
    (x.h.mask.toNat < 2 → x.h.cursor = x.h.len →
      (advance s).inst = { x with h := { x.h with mask := 0, eof := true } }) ∧
    (x.h.mask.toNat < 2 → x.h.cursor ≠ x.h.len →
      (advance s).inst = { x with
        h := { x.h with
          mask := 0x80, cur := fetchByte s x.h.cursor.toNat, cursor := x.h.cursor + 1 } })

/-- HOLD_HIGH, LOWER and abort: with INT_TOL a hold past the high time plus SLACK aborts; from the high
time on the line goes low, to FINAL_LOW after the frame's last bit, else to AWAIT_SLOT (R224, R225,
R227). FINAL_LOW: the attempt ends with success once the period of the last bit has passed, with no
overrun test (R226; that R230 keeps a longer low after a late last LOWER is log 30's). The premise
`h.t_start ≤ CYCLE` is R33's. -/
def Obligations.HoldHighAndFinalLow : Prop :=
  ∀ s : State, s.inst.h.tStart.toNat ≤ s.cycle.toNat →
    let x := s.inst
    let e := s.cycle.toNat - x.h.tStart.toNat
    let aborts : Prop := x.ctrl.intTol = true ∧ e > x.h.tHold.toNat + x.cfg.slack.toNat
    (x.phase = .holdHigh →
    (aborts → seqStep s = .next (s.onInst (fun y =>
      ({ y with pins := { y.pins with dout := false } } : Inst).failAttempt .overrun s.cycle))) ∧
    (¬ aborts → x.h.tHold.toNat ≤ e → seqStep s = .next (s.onInst (fun y => { y with
      pins := { y.pins with dout := false }
      phase := if y.h.eof then .finalLow else .awaitSlot }))) ∧
    (¬ aborts → e < x.h.tHold.toNat → seqStep s = .next s)) ∧
    (x.phase = .finalLow →
      (x.prof.cycPeriod.toNat ≤ e →
        seqStep s = .next (s.onInst (fun y => y.endAttempt true .none s.cycle))) ∧
      (e < x.prof.cycPeriod.toNat → seqStep s = .next s))

/-- The waveform of the hardware backend: a channel that holds a frame's items and the idle item after
them emits them in order and back to back, an item's first level for d0 ticks and its second for d1
(R281 item 3); after `ds.length` cycles the time passed is `u`, of which a cycle is F_PERIPH and a tick
F_CLK. So a bit of high time k in a period of kp ticks is high for exactly k ticks and low for the rest
of kp, bit after bit, and after the last the line is low (R283). That a tick lasts 1 / F_PERIPH seconds
whatever PERIPH_FREQ holds, where R281 item 3 writes 1 / F_Hz(PERIPH_FREQ), is the model's reading (log
27). -/
def Obligations.HardwareWaveformIsExact : Prop :=
  (∀ (p : Params) (k : Nat), 1 ≤ p.fClk →
    ticksNs p k = cyclesNs p (tickUnits p k) / cycleUnits p ∧ tickUnits p k = k * p.fClk ∧
      cycleUnits p = p.fPeriph) ∧
  ∀ (p : Params) (c : Channel) (ds : List ChanDraw), 1 ≤ p.fClk → c.phase = .running → c.wait = 0 →
    c.pos = 0 → (∀ d ∈ ds, d.gaps = []) →
    let t := ds.foldl (fun x d => x.cycle p d none) c
    let u := ds.length * p.fPeriph
    (∀ before it after, c.fifo = before ++ it :: after ++ [0] →
      (∀ i ∈ before ++ it :: after, itemD0 i ≠ 0) →
      let start := (before.map (fun i => (itemD0 i + itemD1 i) * p.fClk)).sum
      start ≤ u → u < start + (itemD0 it + itemD1 it) * p.fClk →
      t.phase = .running ∧
        t.level p = if u - start < itemD0 it * p.fClk then itemL0 it else itemL1 it) ∧
    (∀ items, c.fifo = items ++ [0] → items ≠ [] → (∀ i ∈ items, itemD0 i ≠ 0) →
      (items.map (fun i => (itemD0 i + itemD1 i) * p.fClk)).sum ≤ u →
      t.phase ≠ .running ∧ t.level p = false) ∧
    (∀ (bits : List Bool) (k0 k1 kp : BitVec 15), 0 < k0.toNat → k0.toNat ≤ kp.toNat →
      0 < k1.toNat → k1.toNat ≤ kp.toNat →
      c.fifo = bits.map (fun b => template (if b then k1 else k0) kp) ++ [0] →
      ∀ (i : Nat) (b : Bool), bits[i]? = some b →
        i * (kp.toNat * p.fClk) ≤ u → u < (i + 1) * (kp.toNat * p.fClk) →
        (t.level p = true ↔
          u - i * (kp.toNat * p.fClk) < (if b then k1 else k0).toNat * p.fClk))

/-- With CTRL.INT_TOL = 0 the bit loop is never stalled and never aborts: the sequencer steps whatever
PREEMPT does, stays in the bit loop, or ends the command with success (R228, R231, R390). -/
def Obligations.MaskedBitLoopNeverAborts : Prop :=
  ∀ (s t : State) (k : Fin 8), s.Inv → step s = .next t → s.input.rstLow = false →
    k.val < s.params.nInst → (s.instAt k).ctrl.intTol = false →
    ((s.instAt k).phase = .awaitSlot ∨ (s.instAt k).phase = .holdHigh ∨
      (s.instAt k).phase = .finalLow) →
    moves s s.input k = true ∧ (t.instAt k).stats.aborted = (s.instAt k).stats.aborted ∧
    ((t.instAt k).phase = .awaitSlot ∨ (t.instAt k).phase = .holdHigh ∨
      (t.instAt k).phase = .finalLow ∨
      ((t.instAt k).phase = .idle ∧ (t.instAt k).status.lastOk = true ∧
        (t.instAt k).status.err = .none))

/-- The waveform of a software attempt without stalls, cycle by cycle: from the first AWAIT_SLOT, one
bit per CYC_PERIOD, high for exactly the bit's high time, no drift, and success exactly 8 L CYC_PERIOD
cycles after the first raise; every bit of a frame that reads no memory is a 0 bit (R203, R229, R231,
R347). `s` is the machine one cycle after sw_start, with byte 0 loaded. In a frame that reads memory the
bits of byte i ≥ 1 are those of R204, most significant first, of the scaled byte the source space holds
at its address, wherever that address is backed, not raced and not stored to during the run; the bits
of other bytes are unspecified (R106, R115). -/
def Obligations.SoftwareWaveformIsExact : Prop :=
  ∀ (s : State) (k : Fin 8), s.Inv → k.val < s.params.nInst →
    (s.instAt k).phase = .awaitSlot → (s.instAt k).h.first = true → (s.instAt k).h.cursor = 1 →
    (s.instAt k).h.mask = 0x80 → ((s.instAt k).silent = true → (s.instAt k).h.cur = 0) →
    let x := s.instAt k
    let period := x.prof.cycPeriod.toNat
    let total := 8 * x.h.len.toNat * period
    s.Undisturbed k (total + 1) → s.cycle.toNat + total + 1 < 2 ^ 64 →
    ∃ bits : Nat → Bool,
      (∀ m, m < 8 → bits m = x.h.cur.getLsbD (7 - m)) ∧
      (x.silent = true → ∀ n, n < 8 * x.h.len.toNat → bits n = false) ∧
      (x.silent = false → ∀ i, 1 ≤ i → i < x.h.len.toNat →
        let a := byteAddr x.h.src x.ctrl.reorder x.ctrl.order i
        isBacked s.params a.toNat = true → a ∉ s.raced[k.val] →
        (∀ e t, e ≤ total → runFor (e + 1) s = .next t →
          ∀ c ∈ t.ports.stores ++ (s.env.getD e Env.quiet).stores, c.1 ≠ a) →
        ∀ m, m < 8 →
          bits (8 * i + m) = (scale (memByte s.mem a.toNat) x.h.bright).getLsbD (7 - m)) ∧
      (∀ e, e ≤ total → ∃ t, runFor e s = .next t ∧
        t.cycle.toNat = s.cycle.toNat + e ∧ (t.instAt k).status.busy = true ∧
        ((t.instAt k).pins.dout = true ↔ 1 ≤ e ∧
          (e - 1) % period <
            (if bits ((e - 1) / period) then x.prof.cycT1h else x.prof.cycT0h).toNat)) ∧
      (∃ t, runFor (total + 1) s = .next t ∧ (t.instAt k).phase = .idle ∧
        (t.instAt k).status.busy = false ∧ (t.instAt k).status.lastOk = true ∧
        (t.instAt k).stats.lastDisplay.toNat = s.cycle.toNat + total)

/-! ## The byte source -/

/-- Brightness scaling: 0 is off, b ≥ 1 multiplies by b + 1 and divides by 256, 255 is the identity
(R201). -/
def Obligations.ScaleBrightness : Prop :=
  ∀ v b : Byte,
    scale v 0 = 0 ∧ (b ≠ 0 → (scale v b).toNat = v.toNat * (b.toNat + 1) / 256) ∧
    scale v 255 = v ∧ (scale v b).toNat ≤ v.toNat ∧ scale 255 1 = 1 ∧
    (scale v 1).toNat = v.toNat / 128

/-- The order of a frame's bytes: sequential without REORDER; with it the permutation of R150's table
inside each pixel, which for a length that is a multiple of 3 stays inside the frame and meets every
byte once; a byte's address is its offset from the frame's base (R150, R202). -/
def Obligations.ByteOrderIsPermutation : Prop :=
  (∀ (base : Word) r o i,
    (byteAddr base r o i).toNat = (base.toNat + byteOffset r o i) % 2 ^ 32) ∧
  (∀ o i, byteOffset false o i = i) ∧
  (∀ (o : Order) (i : Nat), byteOffset true o i / 3 = i / 3 ∧
    byteOffset true o i = 3 * (i / 3) + o.perm (i % 3)) ∧
  (∀ (r : Bool) (o : Order) (n i : Nat), (r = true → n % 3 = 0) → i < n → byteOffset r o i < n) ∧
  (∀ (r : Bool) (o : Order) (i j : Nat), byteOffset r o i = byteOffset r o j → i = j) ∧
  (∀ o : Order, ∀ k, k < 3 → ∃ i, i < 3 ∧ o.perm i = k) ∧
  (∀ c : BitVec 3,
    (Machine.orderOf c = none ↔ c = 6 ∨ c = 7) ∧ ∀ o, Machine.orderOf c = some o → o.code = c) ∧
  (∀ o : Order, [o.perm 0, o.perm 1, o.perm 2] =
    if o.code = 0 then [0, 1, 2] else if o.code = 1 then [0, 2, 1]
    else if o.code = 2 then [1, 0, 2] else if o.code = 3 then [1, 2, 0]
    else if o.code = 4 then [2, 0, 1] else [2, 1, 0])

/-- The bits of a byte are sent most significant first, one template each (R204, R267). -/
def Obligations.BitsMostSignificantFirst : Prop :=
  ∀ (bit0 bit1 : Word) (v : Byte),
    (byteItems bit0 bit1 v).length = 8 ∧
    ∀ m, m < 8 → (byteItems bit0 bit1 v)[m]? = some (if v.getLsbD (7 - m) then bit1 else bit0)

/-- fetch(i): with brightness 0 or no source buffer it is 0 and reads nothing; else it reads exactly
the byte of R202, inside the frame's range and on its own instance's port, scaled, and the unit's own
state does not change (R107, R203). `memReadByte` is the content M[a] of the source space, and free
where the spec leaves it open (R104, R106, R115). -/
def Obligations.FetchReadsInsideFrame : Prop :=
  ∀ (s : State) (i : Nat), s.inst.Running → i < s.inst.h.len.toNat →
    let x := s.inst
    let a := byteAddr x.h.src x.ctrl.reorder x.ctrl.order i
    (x.h.bright = 0 ∨ x.h.null = true → fetchByte s i = 0 ∧ fetchState s i = s) ∧
    (x.h.bright ≠ 0 ∧ x.h.null = false →
      x.h.src.toNat ≤ a.toNat ∧ a.toNat < x.h.src.toNat + x.h.len.toNat ∧
      fetchByte s i = scale (memReadByte s (.sequencer s.cur) a) x.h.bright ∧
      (fetchState s i).ports.reads =
        s.ports.reads ++ [{ reader := { inst := s.cur, via := s.cur, chan := none }, addr := a }] ∧
      (fetchState s i).insts = s.insts ∧ (fetchState s i).pool = s.pool ∧
      (fetchState s i).mem = s.mem ∧ (fetchState s i).cycle = s.cycle) ∧
    (isBacked s.params a.toNat = true → a ∉ s.raced[s.cur.val] →
      memReadByte s (.sequencer s.cur) a = memByte s.mem a.toNat)

/-! ## The hardware backend -/

/-- hw_start: an empty frame succeeds with no channel; without a free slot the attempt fails with
POOL_EMPTY at once; else the slot is filled, the channel kicked with the byte range, and the sequencer
waits (R252, R254, R255). -/
def Obligations.HardwareStartAcquiresSlot : Prop :=
  ∀ s : State,
    let x := s.inst
    (x.h.len = 0 → hwStart s = s.onInst (fun y =>
      ({ y with status := { y.status with hwChan := 0xF } } : Inst).endAttempt true .none s.cycle)) ∧
    (x.h.len ≠ 0 → s.arb = [] → hwStart s = s.onInst (fun y =>
      ({ y with status := { y.status with hwChan := 0xF } } : Inst).failAttempt .poolEmpty s.cycle)) ∧
    (∀ j rest, x.h.len ≠ 0 → s.arb = j :: rest →
      (hwStart s).inst = { x with
        h := { x.h with hwJ := j, hwT := s.cycle }
        status := { x.status with hwChan := BitVec.ofNat 4 j.val }
        phase := .hwWait } ∧
      (hwStart s).slotAt j = {
        inUse := true, owner := s.cur, srcLo := if x.h.null then 0 else x.h.src
        srcHi := ((hwStart s).slotAt j).srcHi, null := x.h.null, vlen := x.h.len
        bit0 := x.prof.hwBit0, bit1 := x.prof.hwBit1, bright := x.h.bright
        reorder := x.ctrl.reorder, order := x.ctrl.order } ∧
      ((hwStart s).slotAt j).srcHi.toNat =
        (if x.h.null then 0 else x.h.src.toNat + x.h.len.toNat) ∧
      (∀ l, l ≠ j → (hwStart s).slotAt l = s.slotAt l) ∧
      (∀ k, k ≠ s.cur → (hwStart s).instAt k = s.instAt k) ∧
      (hwStart s).ports.kicks = s.ports.kicks ++
        [{ chan := j, base := if x.h.null then 0 else x.h.src, len := x.h.len }] ∧
      (hwStart s).arb = rest ∧ (hwStart s).mem = s.mem)

/-- HW_WAIT: done ends the attempt with success, also in the cycle of the timeout; the timeout stops
the channel and fails with HW_TIMEOUT; both release the slot to all zeros; else nothing changes (R260,
R276, R277). The premise `h.hw_t ≤ CYCLE` is R33's. -/
def Obligations.HardwareWaitReleasesSlot : Prop :=
  ∀ s : State, s.inst.phase = .hwWait → s.inst.h.hwT.toNat ≤ s.cycle.toNat →
    let j := s.inst.h.hwJ
    let timedOut : Prop := s.inst.cfg.hwTimeout.toNat ≤ s.cycle.toNat - s.inst.h.hwT.toNat
    ∃ t, seqStep s = .next t ∧
      ((s.chanAt j).done = true → t.inst = s.inst.endAttempt true .none s.cycle ∧
        t.ports = s.ports) ∧
      ((s.chanAt j).done = false → timedOut → t.inst = s.inst.failAttempt .hwTimeout s.cycle ∧
        t.ports.stops = s.ports.stops ++ [j]) ∧
      ((s.chanAt j).done = true ∨ timedOut → (t.slotAt j).inUse = false ∧ t.slotAt j = Slot.reset ∧
        (∀ l, l ≠ j → t.slotAt l = s.slotAt l) ∧ (∀ k, k ≠ s.cur → t.instAt k = s.instAt k)) ∧
      ((s.chanAt j).done = false → ¬ timedOut → t = s)

/-- The arbiter: a cycle's grants start from the slots free in S_c in increasing index, each grant takes
the lowest that remains, and nothing else takes or returns one, so the k-th requester in increasing id
gets the k-th free slot, and a slot released in a cycle is not granted in it (R253). -/
def Obligations.ArbiterGrantsFreeSlotsInOrder : Prop :=
  (∀ (s : State) (e : Env), (hostPhase s e).arb.Pairwise (· < ·) ∧
    ∀ j, j ∈ (hostPhase s e).arb ↔
      s.params.hasPulsegen = true ∧ j.val < s.params.nCh ∧ (s.slotAt j).inUse = false) ∧
  (∀ (s : State) (e : Env), (s.movers e).Pairwise (· < ·)) ∧
  (∀ s t : State, seqStep s = .next t →
    (t.arb = s.arb ∧ (t.inst.phase = .hwWait → s.inst.phase = .hwWait)) ∨
    (s.inst.phase = .gate ∧ s.inst.ctrl.backend = true ∧ t.inst.phase = .hwWait ∧
      s.arb = t.inst.h.hwJ :: t.arb))

/-- translate: an exhausted channel gets n idle items; an address no held slot contains gets none; else
k = min(r, n / 8, room) bytes are used and answered with 8 items each, the templates of the bits of the
bytes of R268 most significant first, filled with idle items to n when they are the last (R267, R270,
R271). The slot is the channel's own if that has no source, else the lowest held slot that contains the
address (R267, R269, R272). The room of a null slot is its own channel's count (log 17); which races make
a byte unspecified where ranges overlap is log 6's. -/
def Obligations.TranslateCountsItems : Prop :=
  ∀ (s : State) (j : Fin 15) (a r : Word) (n : BitVec 16), 8 ≤ n.toNat →
    let ans := translateAnswer s.pool s j a r n
    let contains (l : Fin 15) : Prop := (s.slotAt l).inUse = true ∧ (s.slotAt l).null = false ∧
      (s.slotAt l).srcLo.toNat ≤ a.toNat ∧ a.toNat < (s.slotAt l).srcHi.toNat
    ans.count.toNat = ans.items.length ∧
    (r = 0 → ans.items = List.replicate n.toNat 0 ∧ ans.used = 0 ∧
      translateEffect s.pool s j a r n = s) ∧
    (r ≠ 0 → pullSlot s.pool j a = none → ans.items = [] ∧ ans.used = 0 ∧
      translateEffect s.pool s j a r n = s) ∧
    (∀ q, r ≠ 0 → pullSlot s.pool j a = some q →
      let x := s.slotAt q
      let room := if x.null then r.toNat else x.srcHi.toNat - a.toNat
      let first := if x.null then x.vlen.toNat - r.toNat else a.toNat - x.srcLo.toNat
      ans.used.toNat = min r.toNat (min (n.toNat / 8) room) ∧ 1 ≤ ans.used.toNat ∧
      ans.items.length = (if ans.used = r then n.toNat else 8 * ans.used.toNat) ∧
      (∀ i, 8 * ans.used.toNat ≤ i → i < ans.items.length → ans.items[i]? = some 0) ∧
      ∃ v : Nat → Byte,
        (∀ t, t < ans.used.toNat → ∀ m, m < 8 →
          ans.items[8 * t + m]? = some (if (v t).getLsbD (7 - m) then x.bit1 else x.bit0)) ∧
        (∀ t, x.null = true ∨ x.bright = 0 → v t = 0) ∧
        (∀ t, t < ans.used.toNat → x.null = false → x.bright ≠ 0 →
          let addr := byteAddr x.srcLo x.reorder x.order (first + t)
          (∃ b, v t = scale b x.bright) ∧
          (isBacked s.params addr.toNat = true →
            s.racedFor (pullReader s.pool j q).inst addr = false →
            s.racedFor (pullReader s.pool j q).via addr = false →
            v t = scale (memByte s.mem addr.toNat) x.bright))) ∧
    ((s.slotAt j).inUse = true → (s.slotAt j).null = true → pullSlot s.pool j a = some j) ∧
    (((s.slotAt j).inUse = false ∨ (s.slotAt j).null = false) →
      (∀ q, pullSlot s.pool j a = some q → contains q ∧ ∀ l, l < q → ¬ contains l) ∧
      (pullSlot s.pool j a = none → ∀ l, ¬ contains l))

/-- A pull of a channel whose slot has no source is answered with bit0 items and no memory read; so is
every pull of a frame of brightness 0 (R268, R269, R284). -/
def Obligations.SilentPullSendsBit0 : Prop :=
  ∀ (s : State) (j q : Fin 15) (a r : Word) (n : BitVec 16), r ≠ 0 → pullSlot s.pool j a = some q →
    ((s.slotAt q).null = true ∨ (s.slotAt q).bright = 0) →
    translateEffect s.pool s j a r n = s ∧
    ∀ i, i < 8 * (translateAnswer s.pool s j a r n).used.toNat →
      (translateAnswer s.pool s j a r n).items[i]? = some (s.slotAt q).bit0

/-- The reads of a pull answered for a held slot are those of R268, one for each byte used, in
increasing index; they lie in the slot's range, in states that keep the invariant (R107, R116, R268).
That they stand on the port of the instance that holds the pulling channel is the model's choice (log
24). -/
def Obligations.TranslateReadsInsideSlot : Prop :=
  ∀ (s : State) (j q : Fin 15) (a r : Word) (n : BitVec 16), s.Inv → r ≠ 0 →
    pullSlot s.pool j a = some q →
    let x := s.slotAt q
    let reads := (List.range (translateAnswer s.pool s j a r n).used.toNat).map (fun t =>
      byteAddr x.srcLo x.reorder x.order (a.toNat - x.srcLo.toNat + t))
    ∃ l, (translateEffect s.pool s j a r n).ports.reads = s.ports.reads ++ l ∧
      l.map MemRead.addr = (if x.null = true ∨ x.bright = 0 then [] else reads) ∧
      (∀ b ∈ l, x.srcLo.toNat ≤ b.addr.toNat ∧ b.addr.toNat < x.srcHi.toNat) ∧
      (∀ b ∈ l, b.reader.chan = some j ∧ b.reader.via = x.owner ∧
        ((s.slotAt j).inUse = true → b.reader.inst = (s.slotAt j).owner))

/-- The channels under their contract, one cycle (R281, R282): a kick starts a transmission at the
submitted range with done low; an idle channel stays as it is, done included; a stop ends the
transmission with the output low, and done rises after it or not, as drawn, unless it was due by then; a
transmission that has ended raises done after the cycles drawn for it, a finite number;
an answer advances the cursor by the bytes used and its items follow those held, or, if it has none, end
the transmission; the output is low except while an item with d0 ≠ 0 is under emission, and then l0 for
d0 ticks and l1 after them. What `emit` emits is HardwareWaveformIsExact. Choices of the
model are that a kick wins over a stop of the same cycle and that the answer's items follow the cycle's
emission (log 29), that a kick drops the items still held (log 31), that a stop comes after the channel's
own part of the cycle and that the output is low in a pause between items (log 10), that an answer
without items ends the transmission after the items held (log 12), and that a cycle counts F_PERIPH
units of time and a tick F_CLK (log 27). In every cycle each channel of the build goes through this, and
a running one that asks for 8 to PULL_MAX items is answered in that cycle, at its own cursor and from the
pool of the cycle's start, whatever PREEMPT, and no other pull is answered (R266, R281 item 2); with
`rst_n` low the pool is the cleared one (log 18). -/
def Obligations.ChannelContract : Prop :=
  (∀ (s t : State) (j : Fin 15), step s = .next t →
    let c := s.chanAt j
    let asks (n : BitVec 16) : Prop := c.phase = .running ∧
      (chanDrawOf s.input j).pull = some n ∧ 8 ≤ n.toNat ∧ n.toNat ≤ s.params.pullMax
    let built : Prop := s.params.hasPulsegen = true ∧ j.val < s.params.nCh
    let answers := t.ports.pulls.filter (fun a => a.chan == j)
    (¬ built → t.chanAt j = c ∧ answers = []) ∧
    (built → t.chanAt j = chanNext s.input { s with ports := t.ports } j) ∧
    ((∀ n, ¬ asks n) → answers = []) ∧
    (∀ n, built → asks n → ∃ u : State,
      u.pool = (if s.input.rstLow then (State.resetOf s.params).pool else s.pool) ∧
      u.params = s.params ∧ u.mem = t.mem ∧
      (s.input.rstLow = false → u.insts = t.insts ∧ u.raced = t.raced) ∧
      answers = [translateAnswer u.pool u j c.addr c.rem n])) ∧
  ∀ (s : State) (e : Env) (j : Fin 15),
    let c := s.chanAt j
    let d := chanDrawOf e j
    let c' := chanNext e s j
    let kick := s.ports.kicks.find? (fun k => k.chan == j)
    let answer := s.ports.pulls.find? (fun a => a.chan == j)
    let rest := emit s.params d.gaps s.params.fPeriph c.wait c.pos c.fifo
    (∀ k, kick = some k →
      c'.phase = .running ∧ c'.done = false ∧ c'.addr = k.base ∧ c'.rem = k.len ∧ c'.fifo = [] ∧
      c'.level s.params = false) ∧
    (kick = none → c.phase = .idle → c' = c) ∧
    (kick = none → j ∈ s.ports.stops → c'.phase ≠ .running ∧ c'.level s.params = false ∧
      (c.phase = .running → rest ≠ none →
        (d.doneAfterStop = false → c'.phase = .idle ∧ c'.done = false) ∧
        (d.doneAfterStop = true → d.latency = 0 → c'.phase = .idle ∧ c'.done = true) ∧
        (d.doneAfterStop = true → d.latency ≠ 0 →
          c'.phase = .ended ∧ c'.done = false ∧ c'.lag + 1 = d.latency)) ∧
      ∀ lag, (c.phase = .ended ∧ lag = c.lag) ∨ (c.phase = .running ∧ rest = none ∧ lag = d.latency) →
        (lag = 0 → c'.phase = .idle ∧ c'.done = true) ∧
        (lag ≠ 0 → d.doneAfterStop = true →
          c'.phase = .ended ∧ c'.done = false ∧ c'.lag + 1 = lag) ∧
        (lag ≠ 0 → d.doneAfterStop = false → c'.phase = .idle ∧ c'.done = false)) ∧
    (kick = none → j ∉ s.ports.stops → c.phase = .ended →
      (c.lag = 0 → c'.phase = .idle ∧ c'.done = true) ∧
      (c.lag ≠ 0 → c'.phase = .ended ∧ c'.done = false ∧ c'.lag + 1 = c.lag)) ∧
    (kick = none → j ∉ s.ports.stops → c.phase = .running → rest = none →
      (d.latency = 0 → c'.phase = .idle ∧ c'.done = true) ∧
      (d.latency ≠ 0 → c'.phase = .ended ∧ c'.done = false ∧ c'.lag + 1 = d.latency)) ∧
    (∀ m, kick = none → j ∉ s.ports.stops → c.phase = .running → rest = some m →
      c'.phase = .running ∧ c'.done = c.done ∧ c'.wait = m.wait ∧ c'.pos = m.pos ∧
      (answer = none → c'.addr = c.addr ∧ c'.rem = c.rem ∧ c'.fifo = m.fifo) ∧
      (∀ a, answer = some a → c'.addr = c.addr + a.used ∧ c'.rem = c.rem - a.used ∧
        c'.fifo = m.fifo ++ (if a.items = [] then [0] else a.items))) ∧
    (c.phase ≠ .running ∨ c.wait ≠ 0 ∨ c.fifo = [] → c.level s.params = false) ∧
    (∀ it items, c.phase = .running → c.wait = 0 → c.fifo = it :: items →
      c.level s.params =
        if itemD0 it = 0 then false
        else if c.pos < itemD0 it * s.params.fClk then itemL0 it else itemL1 it)

/-! ## The register window -/

/-- A CTRL write while idle: the hardwired fields, ORDER 6 and 7, and the refusal of a retry budget
without interrupt tolerance (R42, R43, R373). -/
def Obligations.CtrlWriteIsLegalised : Prop :=
  ∀ (p : Params) (x : Inst) (w : Word), x.status.busy = false →
    let y := x.busWrite p 0x04 .word w
    let tol := w.getLsbD 1 && p.intTolSupported
    (tol = false ∧ w.extractLsb' 8 4 ≠ 0 → y = { x with
      status := { x.status with wrIgnored := true, err := .cfgInvalid } }) ∧
    (tol = true ∨ w.extractLsb' 8 4 = 0 →
      y = { x with ctrl := y.ctrl } ∧
      y.ctrl.backend = (w.getLsbD 0 && p.hasPulsegen) ∧ y.ctrl.intTol = tol ∧
      y.ctrl.reorder = w.getLsbD 2 ∧ y.ctrl.dbgEn = (w.getLsbD 6 && p.hasDebugPins) ∧
      y.ctrl.irqEn = w.getLsbD 7 ∧ y.ctrl.retry = w.extractLsb' 8 4 ∧
      (w.extractLsb' 3 3 = 6 ∨ w.extractLsb' 3 3 = 7 → y.ctrl.order = x.ctrl.order) ∧
      (w.extractLsb' 3 3 ≠ 6 → w.extractLsb' 3 3 ≠ 7 → y.ctrl.order.code = w.extractLsb' 3 3)) ∧
    (∀ now : Time,
      (readReg now y .ctrl).toNat = y.ctrl.backend.toNat + 2 * y.ctrl.intTol.toNat +
        4 * y.ctrl.reorder.toNat + 8 * y.ctrl.order.code.toNat + 64 * y.ctrl.dbgEn.toNat +
        128 * y.ctrl.irqEn.toNat + 256 * y.ctrl.retry.toNat)

/-- A STATUS write clears IRQ_PEND with bit 4 and WR_IGNORED with bit 5 and changes nothing else, while
busy too (R44). A CMD write is accepted while idle and dropped with WR_IGNORED while busy; CMD reads 0
(R45). -/
def Obligations.StatusAndCmdWrites : Prop :=
  ∀ (p : Params) (x : Inst) (w : Word) (now : Time),
    x.busWrite p 0x08 .word w = { x with
      status := { x.status with
        irqPend := if w.getLsbD 4 then false else x.status.irqPend
        wrIgnored := if w.getLsbD 5 then false else x.status.wrIgnored } } ∧
    (x.status.busy = false → x.busWrite p 0x0C .word w = { x with
      status := { x.status with busy := true }
      h := { x.h with cmdword := w }
      phase := .decode }) ∧
    (x.status.busy = true → x.busWrite p 0x0C .word w = { x with
      status := { x.status with wrIgnored := true } }) ∧
    busRead now x 0x0C .word = 0

/-- STATUS reads as the bits of R44, with the phase codes of R76 and the error codes of R370; PINS reads
as the bits of R57. The data line is not driven while DOUT_OE = 0; else it carries the output of channel
h.hw_j while the phase is HW_WAIT, which PINS.ROUTED shows, and DOUT otherwise (R37, R279). -/
def Obligations.StatusWordLayout : Prop :=
  (∀ (s : State) (k : Fin 8),
    ((s.instAt k).pins.doutOe = false → s.lineLevel k = none) ∧
    ((s.instAt k).pins.doutOe = true → (s.instAt k).phase = .hwWait →
      s.lineLevel k = some ((s.chanAt (s.instAt k).h.hwJ).level s.params)) ∧
    ((s.instAt k).pins.doutOe = true → (s.instAt k).phase ≠ .hwWait →
      s.lineLevel k = some (s.instAt k).pins.dout)) ∧
  ∀ (x : Inst) (now : Time),
    (readReg now x .status).toNat =
      x.status.busy.toNat + 2 * x.status.lastOk.toNat + 4 * x.status.profileValid.toNat +
      8 * x.status.hwProfileValid.toNat + 16 * x.status.irqPend.toNat +
      32 * x.status.wrIgnored.toNat +
      2 ^ 8 * x.status.err.code.toNat + 2 ^ 12 * x.phase.code.toNat +
      2 ^ 16 * x.status.attempts.toNat + 2 ^ 24 * x.status.hwChan.toNat ∧
    (readReg now x .pins).toNat =
      x.pins.dout.toNat + 2 * x.pins.doutOe.toNat + 4 * x.pins.dbgStart.toNat +
      8 * x.pins.dbgAbort.toNat + (if x.phase = .hwWait then 16 else 0) ∧
    (Phase.code .idle = 0 ∧ Phase.code .decode = 1 ∧ Phase.code .gate = 2 ∧
      Phase.code .awaitSlot = 3 ∧ Phase.code .holdHigh = 4 ∧ Phase.code .finalLow = 5 ∧
      Phase.code .hwWait = 6) ∧
    (ErrCode.code .none = 0 ∧ ErrCode.code .overrun = 1 ∧ ErrCode.code .poolEmpty = 2 ∧
      ErrCode.code .hwTimeout = 3 ∧ ErrCode.code .cfgInvalid = 4 ∧ ErrCode.code .illegalCmd = 5 ∧
      ErrCode.code .noProfile = 6 ∧ ErrCode.code .badLength = 7)

/-- A run of instance k is over in the first cycle E in which its program has been performed and
S_E.STATUS.BUSY = 0: its host has no statement left but IDLE 0, or besides only one that is performed in E
itself, a read, a WAIT_IDLE or the last cycle of an IDLE. What is observed of the run is S_E, one sample of
the line for every cycle 0 to E, and in cycle order the addresses its instance reads and the values its
host's reads return (R452). Which cycle counts as that of a statement's performance is the model's reading
(log 28). -/
def Obligations.RunEndsAtFirstIdleCycle : Prop :=
  (∀ (k : Fin 8) (s : State),
    let left := (s.hostAt k).filter (fun x => decide (x ≠ .idle 0))
    runEnds s k = true ↔ (s.instAt k).status.busy = false ∧
      (left = [] ∨ (∃ off z, left = [.read off z]) ∨ left = [.waitIdle] ∨ left = [.idle 1])) ∧
  ∀ (k : Fin 8) (n : Nat) (s : State), s.params.legal →
    (∀ r, observe k n s = some r →
      r.cycles < n ∧ runFor r.cycles s = .next r.final ∧ runEnds r.final k = true ∧
      (r.final.instAt k).status.busy = false ∧
      (∀ e t, e < r.cycles → runFor e s = .next t → runEnds t k = false) ∧
      r.line.length = r.cycles + 1 ∧
      (∀ e t, e ≤ r.cycles → runFor e s = .next t → r.line[e]? = some (t.lineSample k)) ∧
      ∃ (reads : Nat → List (Time × Word)) (values : Nat → List Word),
        r.reads = (List.range (r.cycles + 1)).flatMap reads ∧
        r.values = (List.range (r.cycles + 1)).flatMap values ∧
        ∀ e t u, e ≤ r.cycles → runFor e s = .next t → step t = .next u →
          reads e = (u.readsOf k).map (fun a => (t.cycle, a)) ∧
          values e = (u.ports.rdata[k.val]).toList) ∧
    (∀ e t, e < n → runFor e s = .next t → runEnds t k = true → ∃ r, observe k n s = some r)

/-- A write of an RW register at its offset: stored while idle, so that it reads back and no other
register changes; dropped with WR_IGNORED while busy, as is a CTRL write (R40, R46, R47, R49 to R52,
R59). -/
def Obligations.PlainRegistersStoreOrDrop : Prop :=
  ∀ (p : Params) (x : Inst) (w : Word) (now : Time),
    (x.status.busy = true → x.busWrite p 0x04 .word w = { x with
      status := { x.status with wrIgnored := true } }) ∧
    ∀ c ∈ [(Reg.clkFreq, (0x10 : BitVec 8)), (.t0hNs, 0x14), (.t1hNs, 0x18), (.periodNs, 0x1C),
        (.resetNs, 0x20), (.mindispNs, 0x24), (.slack, 0x3C), (.srcAddr, 0x40), (.srcLen, 0x44),
        (.periphFreq, 0x48), (.hwTimeout, 0x4C)],
      (x.status.busy = true → x.busWrite p c.2 .word w = { x with
        status := { x.status with wrIgnored := true } }) ∧
      (x.status.busy = false →
        x.busWrite p c.2 .word w = { x with cfg := (x.busWrite p c.2 .word w).cfg } ∧
        busRead now (x.busWrite p c.2 .word w) c.2 .word = w ∧
        ∀ q, q ≠ c.1 →
          readReg now (x.busWrite p c.2 .word w) q = readReg now x q)

/-- The map of R40: which register each offset reads. Reserved offsets read 0 and ignore writes
silently; a misaligned access reads 0, and a misaligned or narrow write is ignored and flagged; a
read-only register ignores writes (R39, R40, R58, R101). That a misaligned or narrow write is flagged at
a reserved offset too, R101 before R58, is the model's choice (log 13). -/
def Obligations.IgnoredAccesses : Prop :=
  ∀ (p : Params) (x : Inst) (now : Time) (off : BitVec 8) (z : AccessSize) (w : Word),
    (off.toNat % 4 ≠ 0 → busRead now x off z = 0 ∧
      x.busWrite p off z w = { x with status := { x.status with wrIgnored := true } }) ∧
    (z ≠ .word → x.busWrite p off z w = { x with status := { x.status with wrIgnored := true } }) ∧
    (128 ≤ off.toNat → off.toNat % 4 = 0 → busRead now x off z = 0 ∧
      (z = .word → x.busWrite p off z w = x)) ∧
    (∀ o ∈ [(0x00 : BitVec 8), 0x28, 0x2C, 0x30, 0x34, 0x38, 0x50, 0x54, 0x58, 0x5C, 0x60, 0x64, 0x68,
        0x6C, 0x70, 0x74, 0x78, 0x7C],
      x.busWrite p o .word w = x) ∧
    (∀ c ∈ [((0x00 : BitVec 8), Reg.id), (0x04, .ctrl), (0x08, .status), (0x0C, .cmd),
        (0x10, .clkFreq), (0x14, .t0hNs), (0x18, .t1hNs), (0x1C, .periodNs), (0x20, .resetNs),
        (0x24, .mindispNs), (0x28, .cycT0h), (0x2C, .cycT1h), (0x30, .cycPeriod),
        (0x34, .cycReset), (0x38, .cycMindisp), (0x3C, .slack), (0x40, .srcAddr), (0x44, .srcLen),
        (0x48, .periphFreq), (0x4C, .hwTimeout), (0x50, .hwBit0), (0x54, .hwBit1),
        (0x58, .statFrames), (0x5C, .statAborted), (0x60, .statStartLo), (0x64, .statStartHi),
        (0x68, .statFps), (0x6C, .lastDisplayLo), (0x70, .lastDisplayHi), (0x74, .cycleLo),
        (0x78, .cycleHi), (0x7C, .pins)],
      busRead now x c.1 .word = readReg now x c.2 ∧ c.2.offset = c.1) ∧
    (off.toNat % 4 = 0 → off.toNat < 128 → ∃ r : Reg, r.offset = off)

/-- A read of CYCLE_LO returns the low word and latches the high word, which CYCLE_HI returns; no other
read changes anything (R56, R102, R103). That a misaligned read of that word latches nothing, and that a
narrow read of CYCLE_LO latches as a whole one does, is the model's choice (log 13). -/
def Obligations.CycleReadsThroughLatch : Prop :=
  ∀ (x : Inst) (now later : Time) (off : BitVec 8),
    (busRead now x 0x74 .word).toNat +
      2 ^ 32 * (busRead later (x.afterRead now 0x74) 0x78 .word).toNat = now.toNat ∧
    x.afterRead now 0x74 = { x with hiLatch := (x.afterRead now 0x74).hiLatch } ∧
    (off ≠ 0x74 → x.afterRead now off = x)

/-! ## Rules of the whole machine -/

/-- A stalled sequencer takes no step: whatever its host does, phase, hidden registers, profile,
statistics and pins keep their values while CYCLE counts (R390). -/
def Obligations.StalledSequencerHolds : Prop :=
  ∀ (s t : State) (k : Fin 8), s.Inv → step s = .next t → s.input.rstLow = false →
    (s.instAt k).phase ≠ .idle → preemptOf s.input k = true →
    ((s.instAt k).ctrl.intTol = true ∨ ((s.instAt k).phase ≠ .awaitSlot ∧
      (s.instAt k).phase ≠ .holdHigh ∧ (s.instAt k).phase ≠ .finalLow)) →
    (t.instAt k).phase = (s.instAt k).phase ∧ (t.instAt k).h = (s.instAt k).h ∧
    (t.instAt k).prof = (s.instAt k).prof ∧ (t.instAt k).stats = (s.instAt k).stats ∧
    (t.instAt k).pins = (s.instAt k).pins ∧ (t.instAt k).status.busy = true ∧
    (t.instAt k).status.err = (s.instAt k).status.err ∧
    (∀ j, (s.slotAt j).inUse = true → (s.slotAt j).owner = k → t.slotAt j = s.slotAt j) ∧
    t.cycle.toNat = (s.cycle.toNat + 1) % 2 ^ 64

/-- When a command has ended, STATUS describes it: IRQ_PEND is set whatever the host wrote in the same
cycle, the phase is IDLE, ERR is NONE exactly on success, no slot is held and the line register is low
(R380, R383, R386). -/
def Obligations.EndedCommandIsReported : Prop :=
  ∀ (s t : State) (k : Fin 8), s.Inv → step s = .next t → s.input.rstLow = false →
    (s.instAt k).status.busy = true → (t.instAt k).status.busy = false →
    (t.instAt k).status.irqPend = true ∧ (t.instAt k).irq = (t.instAt k).ctrl.irqEn ∧
    (t.instAt k).phase = .idle ∧ (t.instAt k).pins.dout = false ∧
    ((t.instAt k).status.err = .none ↔ (t.instAt k).status.lastOk = true) ∧
    (∀ j, (t.slotAt j).inUse = true → (t.slotAt j).owner ≠ k)

/-- The statistics never decrease, nor does the epoch change, but by CLEAR_STATS or reset; they count
SHOW attempts alone (R350, R346). -/
def Obligations.StatisticsAreMonotone : Prop :=
  ∀ (s t : State) (k : Fin 8), s.Inv → step s = .next t → s.input.rstLow = false →
    ((s.instAt k).phase = .decode → decode (s.instAt k).h.cmdword ≠ .command .clearStats) →
    (s.instAt k).stats.frames.toNat ≤ (t.instAt k).stats.frames.toNat ∧
    (s.instAt k).stats.aborted.toNat ≤ (t.instAt k).stats.aborted.toNat ∧
    (t.instAt k).stats.start = (s.instAt k).stats.start ∧
    ((s.instAt k).h.cmdword.toNat % 256 ≠ 2 →
      (t.instAt k).stats.frames = (s.instAt k).stats.frames ∧
      (t.instAt k).stats.aborted = (s.instAt k).stats.aborted)

/-- While a command runs no configuration register changes, and the profile changes only in the DECODE
cycle of LOAD_PROFILE (R59, R179). -/
def Obligations.ConfigurationFixedWhileBusy : Prop :=
  ∀ (s t : State) (k : Fin 8), s.Inv → step s = .next t → s.input.rstLow = false →
    ((s.instAt k).status.busy = true → (t.instAt k).ctrl = (s.instAt k).ctrl ∧
      (t.instAt k).cfg = (s.instAt k).cfg ∧
      (t.instAt k).h.cmdword = (s.instAt k).h.cmdword) ∧
    (¬ ((s.instAt k).phase = .decode ∧
        decode (s.instAt k).h.cmdword = .command .loadProfile) →
      (t.instAt k).prof = (s.instAt k).prof ∧
      (t.instAt k).status.profileValid = (s.instAt k).status.profileValid ∧
      (t.instAt k).status.hwProfileValid = (s.instAt k).status.hwProfileValid)

/-- After a FORCE_CLEAR has finished, with success or failure, the line is driven low and not routed;
and once driven the line stays driven until reset (R345, R423). -/
def Obligations.ForceClearLeavesLineLow : Prop :=
  ∀ (s t : State) (k : Fin 8), s.Inv → step s = .next t → s.input.rstLow = false →
    ((s.instAt k).status.busy = true → (t.instAt k).status.busy = false →
      (∃ n, decode (s.instAt k).h.cmdword = .command (.forceClear n)) →
      (t.instAt k).pins.doutOe = true ∧ (t.instAt k).pins.dout = false ∧
      (t.instAt k).routed = false ∧ t.lineLevel k = some false) ∧
    ((s.instAt k).pins.doutOe = true → (t.instAt k).pins.doutOe = true)

/-- The source space holds at an address the last byte stored there by a host (MEMW) or another agent,
and the unit never writes it: an address nobody stores to in the cycle reads as before; the canonical
form is kept (R104, R105, R114, R138). While instance k's command runs, the addresses stored to join
those raced for it; with none running, only those of the accepting cycle are, so that a store before it
is read as stored (R114, R115); a reset leaves none. Which of several stores of one cycle to one address is the last is the
model's choice (log 25). -/
def Obligations.SourceSpaceOnlyChangedByStores : Prop :=
  ∀ s t : State, step s = .next t →
    let stores := t.ports.stores ++ s.input.stores
    (∀ a : Nat, (∀ c ∈ stores, c.1.toNat ≠ a) → memFind t.mem a = memFind s.mem a) ∧
    (∀ earlier c later, stores = earlier ++ c :: later → (∀ d ∈ later, d.1 ≠ c.1) →
      memByte t.mem c.1.toNat = c.2) ∧
    (Memory.wf s.mem = true → Memory.wf t.mem = true) ∧
    (s.input.rstLow = false → ∀ k : Fin 8, (s.instAt k).status.busy = true → ∀ a : Word,
      a ∈ t.raced[k.val] ↔ a ∈ s.raced[k.val] ∨ ∃ c ∈ stores, c.1 = a) ∧
    (s.input.rstLow = false → ∀ k : Fin 8, (s.instAt k).status.busy = false → ∀ a : Word,
      (a ∈ t.raced[k.val] → ∃ c ∈ stores, c.1 = a) ∧
      ((s.instAt k).phase = .idle →
        (a ∈ t.raced[k.val] ↔ (t.instAt k).status.busy = true ∧ ∃ c ∈ stores, c.1 = a))) ∧
    (s.input.rstLow = true → ∀ k : Fin 8, t.raced[k.val] = [])

/-- Instances meet only in the pool: a sequencer's step changes no other instance, no slot another
instance holds, no channel, no byte of the source space (R30, R78, R278, R407). `arb` holds what the
cycle's earlier grants left of the free slots. -/
def Obligations.InstancesShareOnlyThePool : Prop :=
  ∀ (s t : State) (k : Fin 8), ({ s with arb := [] } : State).Inv →
    (∀ j ∈ s.arb, (s.slotAt j).inUse = false) → seqStep (s.focus k) = .next t →
    (∀ i, i ≠ k → t.instAt i = s.instAt i) ∧
    (∀ j, (s.slotAt j).inUse = true → (s.slotAt j).owner ≠ k → t.slotAt j = s.slotAt j) ∧
    t.chans = s.chans ∧ (∀ a, memFind t.mem a = memFind s.mem a) ∧ t.params = s.params ∧
    t.cycle = s.cycle

/-- A host performs its statements in order, at most one access a cycle: a read or a write takes a
cycle, IDLE k takes k, WAIT_IDLE reads STATUS until it returns BUSY = 0, and MEMW stores its bytes
(R113, R137, R138). Choices of the model are that MEMW takes one cycle and IDLE 0 none (log 16), that a
MEMW past 0xFFFFFFFF goes on at address 0 (log 26), and what a narrow read returns and that one of
CYCLE_LO latches (log 13). A host's turn touches no other instance, and in every cycle with `rst_n` high
the host of each instance of the build takes exactly one such turn, hosts by increasing id (R35, R113; the
order: log 25). -/
def Obligations.HostPerformsStatementsInOrder : Prop :=
  (∀ (s : State) (k l : Fin 8), l ≠ k →
    (hostTurn false k s).instAt l = s.instAt l ∧ (hostTurn false k s).hostAt l = s.hostAt l) ∧
  (∀ s t : State, step s = .next t → s.input.rstLow = false →
    t.ports.stores = s.ids.flatMap (fun k => (hostTurn false k s.openCycle).ports.stores) ∧
    ∀ k : Fin 8,
      (k.val < s.params.nInst →
        t.hostAt k = (hostTurn false k s.openCycle).hostAt k ∧
        t.ports.rdata[k.val] = (hostTurn false k s.openCycle).ports.rdata[k.val] ∧
        ((s.instAt k).phase = .idle ∨ (s.instAt k).stalled (preemptOf s.input k) = true →
          t.instAt k = (hostTurn false k s.openCycle).instAt k)) ∧
      (s.params.nInst ≤ k.val → t.hostAt k = s.hostAt k ∧ t.instAt k = s.instAt k ∧
        t.ports.rdata[k.val] = none)) ∧
  ∀ (s : State) (k : Fin 8) (rest : List HostStmt),
    (∀ off z, s.hostAt k = .read off z :: rest →
      (hostTurn false k s).hostAt k = rest ∧
      (hostTurn false k s).ports.rdata[k.val] = some (busRead s.cycle (s.instAt k) off z) ∧
      (hostTurn false k s).instAt k = (s.instAt k).afterRead s.cycle off) ∧
    (∀ off z w, s.hostAt k = .write off z w :: rest →
      (hostTurn false k s).hostAt k = rest ∧
      (hostTurn false k s).instAt k = (s.instAt k).busWrite s.params off z w) ∧
    (∀ n, s.hostAt k = .idle (n + 1) :: rest →
      hostTurn false k s = s.setHostAt k (.idle n :: rest)) ∧
    (s.hostAt k = .idle 0 :: rest → hostTurn false k s = hostTurn false k (s.setHostAt k rest)) ∧
    (s.hostAt k = .waitIdle :: rest →
      (hostTurn false k s).instAt k = s.instAt k ∧
      (hostTurn false k s).ports.rdata[k.val] = some (busRead s.cycle (s.instAt k) 0x08 .word) ∧
      (hostTurn false k s).hostAt k =
        if (s.instAt k).status.busy then .waitIdle :: rest else rest) ∧
    (∀ a bs, s.hostAt k = .memw a bs :: rest →
      (hostTurn false k s).hostAt k = rest ∧ (hostTurn false k s).instAt k = s.instAt k ∧
      ∃ l, (hostTurn false k s).ports.stores = s.ports.stores ++ l ∧ l.length = bs.length ∧
        ∀ i, i < bs.length → l[i]? = (bs[i]?).map (fun b => (a + BitVec.ofNat 32 i, b)))
end

