-- ==== Sys2Proof/Laws/Channel.lean ====
section
/-! SUPPORT. What a channel emits when nothing interrupts it: items in order and back to back, each for
its own ticks (42_hw_pulsegen.md R281 item 3). -/

namespace Sys2Proof.Machine

/-- How long a run of items lasts. -/
def runUnits (p : Params) (items : List Word) : Nat := (items.map (itemUnits p)).sum

/-- The emission of a channel that makes no pause, item by item. -/
theorem emit_cons (p : Params) (t pos : Nat) (it : Word) (rest : List Word) :
    emit p [] t 0 pos (it :: rest) =
      if itemD0 it = 0 then none
      else if t + pos < itemUnits p it then some { wait := 0, pos := t + pos, fifo := it :: rest }
      else emit p [] (t + pos - itemUnits p it) 0 0 rest := by
  rw [emit, if_neg (Nat.not_lt_zero t)]
  rfl

/-- Emitting for `t` and then for `u` is emitting for `t + u`. -/
theorem emit_emit (p : Params) (u : Nat) (items : List Word) (t pos : Nat) :
    emit p [] (t + u) 0 pos items =
      match emit p [] t 0 pos items with
      | none => none
      | some m => emit p [] u m.wait m.pos m.fifo := by
  induction items generalizing t pos with
  | nil => rfl
  | cons it rest ih =>
    rw [emit_cons, emit_cons]
    by_cases h0 : itemD0 it = 0
    · rw [if_pos h0, if_pos h0]
    · rw [if_neg h0, if_neg h0]
      by_cases h1 : t + pos < itemUnits p it
      · rw [if_pos h1]
        dsimp only
        rw [emit_cons, if_neg h0, show u + (t + pos) = t + u + pos by omega]
      · rw [if_neg h1, if_neg (by omega),
          show t + u + pos - itemUnits p it = t + pos - itemUnits p it + u by omega]
        exact ih _ _

/-- Within the time of the item after `before`, that item is under emission. -/
theorem emit_inside (p : Params) (before : List Word) (it : Word) (after : List Word) (u : Nat)
    (h0 : ∀ i ∈ before ++ [it], itemD0 i ≠ 0) (h1 : runUnits p before ≤ u)
    (h2 : u < runUnits p before + itemUnits p it) :
    emit p [] u 0 0 (before ++ it :: after) =
      some { wait := 0, pos := u - runUnits p before, fifo := it :: after } := by
  induction before generalizing u with
  | nil =>
    have h : runUnits p [] = 0 := rfl
    rw [h] at h2 ⊢
    rw [List.nil_append, emit_cons, if_neg (h0 it (by simp)), if_pos (by omega)]
    rfl
  | cons b rest ih =>
    have h : runUnits p (b :: rest) = itemUnits p b + runUnits p rest := by simp [runUnits]
    rw [h] at h1 h2 ⊢
    rw [List.cons_append, emit_cons, if_neg (h0 b (by simp)), if_neg (by omega),
      ih _ (fun i hi => h0 i (by simp only [List.cons_append, List.mem_cons]; exact .inr hi))
        (by omega) (by omega)]
    simp only [Nat.add_zero, Nat.sub_sub]

/-- Once the items before the idle item have had their time, the idle item is reached. -/
theorem emit_over (p : Params) (items after : List Word) (u : Nat)
    (h0 : ∀ i ∈ items, itemD0 i ≠ 0) (h1 : runUnits p items ≤ u) :
    emit p [] u 0 0 (items ++ idleItem :: after) = none := by
  induction items generalizing u with
  | nil => exact if_pos rfl
  | cons b rest ih =>
    have h : runUnits p (b :: rest) = itemUnits p b + runUnits p rest := by simp [runUnits]
    rw [h] at h1
    rw [List.cons_append, emit_cons, if_neg (h0 b (by simp)), if_neg (by omega)]
    exact ih _ (fun i hi => h0 i (by simp [hi])) (by omega)

/-- A channel that does not transmit makes no item of itself. -/
theorem Channel.cycle_silent (p : Params) (c : Channel) (d : ChanDraw) (a : Option PullAnswer)
    (h : c.phase ≠ .running) : (c.cycle p d a).phase ≠ .running := by
  unfold Channel.cycle
  cases hp : c.phase with
  | running => exact absurd hp h
  | idle => simp [hp]
  | ended =>
    unfold Channel.endTx
    dsimp only
    split <;> simp

theorem Channel.level_silent (p : Params) (c : Channel) (h : c.phase ≠ .running) :
    c.level p = false := by
  unfold Channel.level
  cases hp : c.phase with
  | running => exact absurd hp h
  | idle => rfl
  | ended => rfl

theorem Channel.endTx_silent (c : Channel) (lag : Nat) : (c.endTx lag).phase ≠ .running := by
  unfold Channel.endTx
  dsimp only
  split <;> simp

/-- A cycle of a transmission without a gap and without an answer moves its emission on by one cycle
and nothing else. -/
theorem Channel.cycle_emits (p : Params) (c : Channel) (d : ChanDraw) (h : c.phase = .running)
    (hd : d.gaps = []) :
    (∀ m, emit p [] (cycleUnits p) c.wait c.pos c.fifo = some m →
      c.cycle p d none = { c with wait := m.wait, pos := m.pos, fifo := m.fifo }) ∧
    (emit p [] (cycleUnits p) c.wait c.pos c.fifo = none →
      (c.cycle p d none).phase ≠ .running) := by
  unfold Channel.cycle
  rw [h, hd]
  dsimp only
  refine ⟨fun m hm => ?_, fun hm => ?_⟩
  · rw [hm]
    dsimp only [Channel.settle]
    rw [h]
  · rw [hm]
    exact c.endTx_silent _

end Sys2Proof.Machine
end

