-- ==== Sys2Proof/Laws/State.lean ====
section
/-! SUPPORT. The small lemmas of the state's accessors and updates: reading after writing an instance,
a slot or a channel, and what each named update leaves alone. -/

namespace Sys2Proof.Machine

@[simp] theorem State.instAt_setInstAt_self (s : State) (k : Fin 8) (x : Inst) :
    (s.setInstAt k x).instAt k = x := by
  simp [State.instAt, State.setInstAt]

theorem State.instAt_setInstAt_ne (s : State) {k l : Fin 8} (x : Inst) (h : l ≠ k) :
    (s.setInstAt k x).instAt l = s.instAt l := by
  have : (k : Nat) ≠ l := fun e => h (Fin.ext e.symm)
  simp [State.instAt, State.setInstAt, Vector.getElem_set_ne, this]

theorem State.instAt_setInstAt (s : State) (k l : Fin 8) (x : Inst) :
    (s.setInstAt k x).instAt l = if l = k then x else s.instAt l := by
  by_cases h : l = k
  · subst h; simp
  · simp [h, State.instAt_setInstAt_ne]

@[simp] theorem State.slotAt_setSlotAt_self (s : State) (j : Fin 15) (q : Slot) :
    (s.setSlotAt j q).slotAt j = q := by
  simp [State.slotAt, State.setSlotAt]

theorem State.slotAt_setSlotAt_ne (s : State) {j l : Fin 15} (q : Slot) (h : l ≠ j) :
    (s.setSlotAt j q).slotAt l = s.slotAt l := by
  have : (j : Nat) ≠ l := fun e => h (Fin.ext e.symm)
  simp [State.slotAt, State.setSlotAt, Vector.getElem_set_ne, this]

theorem State.slotAt_setSlotAt (s : State) (j l : Fin 15) (q : Slot) :
    (s.setSlotAt j q).slotAt l = if l = j then q else s.slotAt l := by
  by_cases h : l = j
  · subst h; simp
  · simp [h, State.slotAt_setSlotAt_ne]

@[simp] theorem State.chanAt_setChanAt_self (s : State) (j : Fin 15) (c : Channel) :
    (s.setChanAt j c).chanAt j = c := by
  simp [State.chanAt, State.setChanAt]

theorem State.chanAt_setChanAt_ne (s : State) {j l : Fin 15} (c : Channel) (h : l ≠ j) :
    (s.setChanAt j c).chanAt l = s.chanAt l := by
  have : (j : Nat) ≠ l := fun e => h (Fin.ext e.symm)
  simp [State.chanAt, State.setChanAt, Vector.getElem_set_ne, this]

/-! What `setInstAt` leaves alone. -/

section
variable (s : State) (k : Fin 8) (x : Inst)
@[simp] theorem State.setInstAt_params : (s.setInstAt k x).params = s.params := rfl
@[simp] theorem State.setInstAt_cycle : (s.setInstAt k x).cycle = s.cycle := rfl
@[simp] theorem State.setInstAt_pool : (s.setInstAt k x).pool = s.pool := rfl
@[simp] theorem State.setInstAt_chans : (s.setInstAt k x).chans = s.chans := rfl
@[simp] theorem State.setInstAt_mem : (s.setInstAt k x).mem = s.mem := rfl
@[simp] theorem State.setInstAt_hosts : (s.setInstAt k x).hosts = s.hosts := rfl
@[simp] theorem State.setInstAt_env : (s.setInstAt k x).env = s.env := rfl
@[simp] theorem State.setInstAt_draws : (s.setInstAt k x).draws = s.draws := rfl
@[simp] theorem State.setInstAt_raced : (s.setInstAt k x).raced = s.raced := rfl
@[simp] theorem State.setInstAt_ports : (s.setInstAt k x).ports = s.ports := rfl
@[simp] theorem State.setInstAt_arb : (s.setInstAt k x).arb = s.arb := rfl
@[simp] theorem State.setInstAt_cur : (s.setInstAt k x).cur = s.cur := rfl
@[simp] theorem State.setInstAt_slotAt (j : Fin 15) : (s.setInstAt k x).slotAt j = s.slotAt j := rfl
@[simp] theorem State.setInstAt_chanAt (j : Fin 15) : (s.setInstAt k x).chanAt j = s.chanAt j := rfl
end

/-! What `onInst` does. -/

section
variable (s : State) (f : Inst → Inst)
@[simp] theorem State.onInst_inst : (s.onInst f).inst = f s.inst := by
  simp [State.onInst, State.inst]
theorem State.onInst_instAt (k : Fin 8) :
    (s.onInst f).instAt k = if k = s.cur then f s.inst else s.instAt k :=
  State.instAt_setInstAt s s.cur k _
theorem State.onInst_instAt_ne {k : Fin 8} (h : k ≠ s.cur) : (s.onInst f).instAt k = s.instAt k :=
  State.instAt_setInstAt_ne s _ h
@[simp] theorem State.onInst_params : (s.onInst f).params = s.params := rfl
@[simp] theorem State.onInst_cycle : (s.onInst f).cycle = s.cycle := rfl
@[simp] theorem State.onInst_pool : (s.onInst f).pool = s.pool := rfl
@[simp] theorem State.onInst_chans : (s.onInst f).chans = s.chans := rfl
@[simp] theorem State.onInst_mem : (s.onInst f).mem = s.mem := rfl
@[simp] theorem State.onInst_hosts : (s.onInst f).hosts = s.hosts := rfl
@[simp] theorem State.onInst_env : (s.onInst f).env = s.env := rfl
@[simp] theorem State.onInst_draws : (s.onInst f).draws = s.draws := rfl
@[simp] theorem State.onInst_raced : (s.onInst f).raced = s.raced := rfl
@[simp] theorem State.onInst_ports : (s.onInst f).ports = s.ports := rfl
@[simp] theorem State.onInst_arb : (s.onInst f).arb = s.arb := rfl
@[simp] theorem State.onInst_cur : (s.onInst f).cur = s.cur := rfl
@[simp] theorem State.onInst_slotAt (j : Fin 15) : (s.onInst f).slotAt j = s.slotAt j := rfl
@[simp] theorem State.onInst_chanAt (j : Fin 15) : (s.onInst f).chanAt j = s.chanAt j := rfl
end

/-! What `setSlotAt` and `setChanAt` leave alone. -/

section
variable (s : State) (j : Fin 15) (q : Slot) (c : Channel)
@[simp] theorem State.setSlotAt_params : (s.setSlotAt j q).params = s.params := rfl
@[simp] theorem State.setSlotAt_cycle : (s.setSlotAt j q).cycle = s.cycle := rfl
@[simp] theorem State.setSlotAt_insts : (s.setSlotAt j q).insts = s.insts := rfl
@[simp] theorem State.setSlotAt_chans : (s.setSlotAt j q).chans = s.chans := rfl
@[simp] theorem State.setSlotAt_mem : (s.setSlotAt j q).mem = s.mem := rfl
@[simp] theorem State.setSlotAt_hosts : (s.setSlotAt j q).hosts = s.hosts := rfl
@[simp] theorem State.setSlotAt_env : (s.setSlotAt j q).env = s.env := rfl
@[simp] theorem State.setSlotAt_draws : (s.setSlotAt j q).draws = s.draws := rfl
@[simp] theorem State.setSlotAt_raced : (s.setSlotAt j q).raced = s.raced := rfl
@[simp] theorem State.setSlotAt_ports : (s.setSlotAt j q).ports = s.ports := rfl
@[simp] theorem State.setSlotAt_arb : (s.setSlotAt j q).arb = s.arb := rfl
@[simp] theorem State.setSlotAt_cur : (s.setSlotAt j q).cur = s.cur := rfl
@[simp] theorem State.setSlotAt_inst : (s.setSlotAt j q).inst = s.inst := rfl
@[simp] theorem State.setSlotAt_instAt (k : Fin 8) : (s.setSlotAt j q).instAt k = s.instAt k := rfl
@[simp] theorem State.setChanAt_params : (s.setChanAt j c).params = s.params := rfl
@[simp] theorem State.setChanAt_cycle : (s.setChanAt j c).cycle = s.cycle := rfl
@[simp] theorem State.setChanAt_insts : (s.setChanAt j c).insts = s.insts := rfl
@[simp] theorem State.setChanAt_pool : (s.setChanAt j c).pool = s.pool := rfl
@[simp] theorem State.setChanAt_mem : (s.setChanAt j c).mem = s.mem := rfl
@[simp] theorem State.setChanAt_hosts : (s.setChanAt j c).hosts = s.hosts := rfl
@[simp] theorem State.setChanAt_env : (s.setChanAt j c).env = s.env := rfl
@[simp] theorem State.setChanAt_draws : (s.setChanAt j c).draws = s.draws := rfl
@[simp] theorem State.setChanAt_raced : (s.setChanAt j c).raced = s.raced := rfl
@[simp] theorem State.setChanAt_ports : (s.setChanAt j c).ports = s.ports := rfl
@[simp] theorem State.setChanAt_arb : (s.setChanAt j c).arb = s.arb := rfl
@[simp] theorem State.setChanAt_cur : (s.setChanAt j c).cur = s.cur := rfl
@[simp] theorem State.setChanAt_instAt (k : Fin 8) : (s.setChanAt j c).instAt k = s.instAt k := rfl
end

/-! The reset machine, part by part. -/

section
variable (p : Params)
@[simp] theorem State.resetOf_params : (State.resetOf p).params = p := rfl
@[simp] theorem State.resetOf_cycle : (State.resetOf p).cycle = 0 := rfl
@[simp] theorem State.resetOf_mem : (State.resetOf p).mem = [] := rfl
@[simp] theorem State.resetOf_arb : (State.resetOf p).arb = [] := rfl
@[simp] theorem State.resetOf_cur : (State.resetOf p).cur = 0 := rfl
@[simp] theorem State.resetOf_instAt (k : Fin 8) : (State.resetOf p).instAt k = Inst.reset := by
  simp [State.instAt, State.resetOf]
@[simp] theorem State.resetOf_slotAt (j : Fin 15) : (State.resetOf p).slotAt j = Slot.reset := by
  simp [State.slotAt, State.resetOf]
@[simp] theorem State.resetOf_chanAt (j : Fin 15) :
    (State.resetOf p).chanAt j = Channel.reset := by
  simp [State.chanAt, State.resetOf]
end

end Sys2Proof.Machine
end

