-- ==== Sys2Proof/Laws/Memory.lean ====
section
/-! SUPPORT. The source space: reading after storing, and that every operation on it keeps the
canonical form. -/

namespace Sys2Proof.Machine

theorem memFind_memStore_self (m : Memory) (x : Nat) (v : Byte) :
    memFind (memStore m x v) x = some v := by
  induction m with
  | nil => simp [memStore, memFind]
  | cons c rest ih =>
    obtain ⟨a, b⟩ := c
    simp only [memStore]
    split
    · simp [memFind]
    · split
      · simp [memFind]
      · rename_i h
        simp [memFind, h, ih]

theorem memFind_memStore_ne (m : Memory) {x y : Nat} (v : Byte) (h : y ≠ x) :
    memFind (memStore m x v) y = memFind m y := by
  induction m with
  | nil => simp [memStore, memFind, h]
  | cons c rest ih =>
    obtain ⟨a, b⟩ := c
    simp only [memStore]
    split
    · simp [memFind, h]
    · split
      · rename_i e
        subst e
        simp [memFind, h]
      · simp [memFind, ih]

theorem memWfFrom_memStore (m : Memory) (lo x : Nat) (v : Byte) (hlo : lo ≤ x) (hx : x < 2 ^ 32)
    (h : memWfFrom lo m = true) : memWfFrom lo (memStore m x v) = true := by
  induction m generalizing lo with
  | nil => simp [memStore, memWfFrom, hlo]; omega
  | cons c rest ih =>
    obtain ⟨a, b⟩ := c
    simp only [memWfFrom, Bool.and_eq_true, decide_eq_true_eq] at h
    obtain ⟨⟨h1, h2⟩, h3⟩ := h
    simp only [memStore]
    split
    · rename_i hlt
      simp [memWfFrom, hlo, h3]
      omega
    · split
      · rename_i e
        subst e
        simp [memWfFrom, hlo, h3]
        omega
      · simp only [memWfFrom, Bool.and_eq_true, decide_eq_true_eq]
        exact ⟨⟨h1, h2⟩, ih (a + 1) (by omega) h3⟩

/-- A store keeps the canonical form. -/
theorem Memory.wf_memStore (m : Memory) (a : Word) (v : Byte) (h : Memory.wf m = true) :
    Memory.wf (memStore m a.toNat v) = true :=
  memWfFrom_memStore m 0 a.toNat v (Nat.zero_le _) a.isLt h

/-- A run of stores keeps the canonical form. -/
theorem Memory.wf_storeAll (l : List (Word × Byte)) (m : Memory) (h : Memory.wf m = true) :
    Memory.wf (storeAll m l) = true := by
  induction l generalizing m with
  | nil => exact h
  | cons c rest ih => exact ih _ (Memory.wf_memStore m c.1 c.2 h)

/-- A run of stores leaves every address outside it alone. -/
theorem memFind_storeAll_ne (l : List (Word × Byte)) (m : Memory) (x : Nat)
    (h : ∀ c ∈ l, c.1.toNat ≠ x) : memFind (storeAll m l) x = memFind m x := by
  induction l generalizing m with
  | nil => rfl
  | cons c rest ih =>
    have := memFind_memStore_ne m (x := c.1.toNat) (y := x) c.2
      (fun e => h c (by simp) e.symm)
    simp only [storeAll]
    rw [ih _ (fun d hd => h d (by simp [hd])), this]

/-- Of a run of stores the last to an address remains. -/
theorem memFind_storeAll_last (l₁ l₂ : List (Word × Byte)) (c : Word × Byte) (m : Memory)
    (h : ∀ d ∈ l₂, d.1 ≠ c.1) : memFind (storeAll m (l₁ ++ c :: l₂)) c.1.toNat = some c.2 := by
  induction l₁ generalizing m with
  | nil =>
    simp only [List.nil_append, storeAll]
    rw [memFind_storeAll_ne _ _ _ (fun d hd e => h d hd (BitVec.eq_of_toNat_eq e)),
      memFind_memStore_self]
  | cons d rest ih => exact ih _

/-- The reset source space is canonical. -/
theorem State.resetOf_mem_wf (p : Params) : Memory.wf (State.resetOf p).mem = true := rfl

end Sys2Proof.Machine
end

