-- ==== Sys2Proof/Laws/Frames.lean ====
section
/-! SUPPORT. What the shared operations can do, once each: a read spends draws and shows an address,
the translate service does nothing else, the channels change nothing but channels, a host's turn
changes its own instance, list and ports. -/

namespace Sys2Proof.Machine

/-- Only `draws` and `ports` differ. -/
structure OnlyServes (s t : State) : Prop where
  params : t.params = s.params
  cycle : t.cycle = s.cycle
  insts : t.insts = s.insts
  pool : t.pool = s.pool
  chans : t.chans = s.chans
  mem : t.mem = s.mem
  hosts : t.hosts = s.hosts
  env : t.env = s.env
  raced : t.raced = s.raced
  arb : t.arb = s.arb
  cur : t.cur = s.cur
  kicks : t.ports.kicks = s.ports.kicks
  stops : t.ports.stops = s.ports.stops
  stores : t.ports.stores = s.ports.stores
  rdata : t.ports.rdata = s.ports.rdata

/-- What one fetch of the source space leaves alone besides: the answers on the response ports. -/
structure OnlyReads (s t : State) extends OnlyServes s t where
  pulls : t.ports.pulls = s.ports.pulls

theorem OnlyServes.refl (s : State) : OnlyServes s s := by constructor <;> rfl

theorem OnlyServes.trans {s t u : State} (h : OnlyServes s t) (g : OnlyServes t u) : OnlyServes s u :=
  ⟨g.params.trans h.params, g.cycle.trans h.cycle, g.insts.trans h.insts, g.pool.trans h.pool,
   g.chans.trans h.chans, g.mem.trans h.mem, g.hosts.trans h.hosts, g.env.trans h.env,
   g.raced.trans h.raced, g.arb.trans h.arb, g.cur.trans h.cur, g.kicks.trans h.kicks,
   g.stops.trans h.stops, g.stores.trans h.stores, g.rdata.trans h.rdata⟩

theorem OnlyServes.instAt {s t : State} (h : OnlyServes s t) (k : Fin 8) :
    t.instAt k = s.instAt k := by simp [State.instAt, h.insts]

theorem OnlyServes.inst {s t : State} (h : OnlyServes s t) : t.inst = s.inst := by
  simp [State.inst, h.cur, h.instAt]

theorem OnlyServes.slotAt {s t : State} (h : OnlyServes s t) (j : Fin 15) :
    t.slotAt j = s.slotAt j := by simp [State.slotAt, h.pool]

theorem OnlyServes.chanAt {s t : State} (h : OnlyServes s t) (j : Fin 15) :
    t.chanAt j = s.chanAt j := by simp [State.chanAt, h.chans]

theorem OnlyReads.refl (s : State) : OnlyReads s s := ⟨.refl s, rfl⟩

theorem OnlyReads.trans {s t u : State} (h : OnlyReads s t) (g : OnlyReads t u) : OnlyReads s u :=
  ⟨h.toOnlyServes.trans g.toOnlyServes, g.pulls.trans h.pulls⟩

theorem memReadState_onlyReads (s : State) (r : Reader) (a : Word) :
    OnlyReads s (memReadState s r a) := by
  unfold memReadState
  split <;> refine ⟨?_, rfl⟩ <;> constructor <;> rfl

/-- A sequencer's read of a backed address that is not raced delivers the content of the source space
(R104). -/
theorem memReadByte_sequencer {s : State} {k : Fin 8} {a : Word}
    (hb : isBacked s.params a.toNat = true) (hr : a ∉ s.raced[k.val]) :
    memReadByte s (.sequencer k) a = memByte s.mem a.toNat := by
  have hf : s.racedFor k a = false := by simp [State.racedFor, hr]
  simp [memReadByte, State.byteKnown, Reader.sequencer, hb, hf]

theorem fetchState_onlyReads (s : State) (i : Nat) : OnlyReads s (fetchState s i) := by
  unfold fetchState
  split
  · exact .refl s
  · exact memReadState_onlyReads s _ _

theorem slotFetchState_onlyReads (r : Reader) (q : Slot) (s : State) (i : Nat) :
    OnlyReads s (slotFetchState r q s i) := by
  unfold slotFetchState
  split
  · exact .refl s
  · exact memReadState_onlyReads s _ _

theorem translateState_onlyReads (r : Reader) (q : Slot) (k i : Nat) (s : State) :
    OnlyReads s (translateState r q k i s) := by
  induction k generalizing i s with
  | zero => exact .refl s
  | succ k ih => exact (slotFetchState_onlyReads r q s i).trans (ih (i + 1) _)

theorem translateEffect_onlyReads (pool : Vector Slot 15) (s : State) (j : Fin 15) (a r : Word)
    (n : BitVec 16) : OnlyReads s (translateEffect pool s j a r n) := by
  unfold translateEffect
  split
  · exact .refl s
  · split
    · exact .refl s
    · exact translateState_onlyReads _ _ _ _ s

theorem logPull_onlyServes (s : State) (a : PullAnswer) : OnlyServes s (s.logPull a) := by
  constructor <;> rfl

theorem servePull_onlyServes (sc : State) (e : Env) (j : Fin 15) (s : State) :
    OnlyServes s (servePull sc e j s) := by
  unfold servePull
  split
  · exact .refl s
  · exact (translateEffect_onlyReads _ s _ _ _ _).toOnlyServes.trans (logPull_onlyServes _ _)

/-- The translate service spends draws and shows ports, and does nothing else (R266). -/
theorem servePulls_onlyServes (sc : State) (e : Env) (l : List (Fin 15)) (s : State) :
    OnlyServes s (servePulls sc e l s) := by
  induction l generalizing s with
  | nil => exact .refl s
  | cons j js ih => exact (servePull_onlyServes sc e j s).trans (ih _)

/-- Only `chans` differs. -/
theorem runChans_eq (e : Env) (l : List (Fin 15)) (s : State) :
    ∃ v, runChans e l s = { s with chans := v } := by
  induction l generalizing s with
  | nil => exact ⟨s.chans, rfl⟩
  | cons j js ih =>
    obtain ⟨v, hv⟩ := ih (s.setChanAt j (chanNext e s j))
    exact ⟨v, by simpa [runChans, State.setChanAt] using hv⟩

/-- Step (5) and the channels change only draws, ports and channels (R35). -/
structure OnlyPeripheral (s t : State) : Prop where
  params : t.params = s.params
  cycle : t.cycle = s.cycle
  insts : t.insts = s.insts
  pool : t.pool = s.pool
  mem : t.mem = s.mem
  hosts : t.hosts = s.hosts
  env : t.env = s.env
  raced : t.raced = s.raced
  arb : t.arb = s.arb
  cur : t.cur = s.cur

theorem peripheralPhase_only (sc : State) (e : Env) (s : State) :
    OnlyPeripheral s (peripheralPhase sc e s) := by
  have h := servePulls_onlyServes sc e sc.slots s
  obtain ⟨v, hv⟩ := runChans_eq e sc.slots (servePulls sc e sc.slots s)
  unfold peripheralPhase
  rw [hv]
  exact ⟨h.params, h.cycle, h.insts, h.pool, h.mem, h.hosts, h.env, h.raced, h.arb, h.cur⟩

theorem OnlyPeripheral.instAt {s t : State} (h : OnlyPeripheral s t) (k : Fin 8) :
    t.instAt k = s.instAt k := by simp [State.instAt, h.insts]

theorem OnlyPeripheral.slotAt {s t : State} (h : OnlyPeripheral s t) (j : Fin 15) :
    t.slotAt j = s.slotAt j := by simp [State.slotAt, h.pool]

/-- Step (5) and the channels show only source reads and pull answers on the ports. -/
theorem peripheralPhase_ports (sc : State) (e : Env) (s : State) :
    (peripheralPhase sc e s).ports.rdata = s.ports.rdata ∧
      (peripheralPhase sc e s).ports.kicks = s.ports.kicks ∧
      (peripheralPhase sc e s).ports.stops = s.ports.stops ∧
      (peripheralPhase sc e s).ports.stores = s.ports.stores := by
  have h := servePulls_onlyServes sc e sc.slots s
  obtain ⟨v, hv⟩ := runChans_eq e sc.slots (servePulls sc e sc.slots s)
  unfold peripheralPhase
  rw [hv]
  exact ⟨h.rdata, h.kicks, h.stops, h.stores⟩

/-- With no slot held a pull reads nothing (R271). -/
theorem translateEffect_noSlot (pool : Vector Slot 15) (hp : ∀ q : Fin 15, (pool[q.val]).inUse = false)
    (s : State) (j : Fin 15) (a r : Word) (n : BitVec 16) : translateEffect pool s j a r n = s := by
  have h : pullSlot pool j a = none := by
    unfold pullSlot
    rw [if_neg (by simp [hp j]), List.find?_eq_none]
    intro q _
    simp [Slot.holds, hp q]
  unfold translateEffect
  rw [h]
  split <;> rfl

theorem servePulls_noSlot (sc : State) (hp : ∀ q : Fin 15, (sc.slotAt q).inUse = false) (e : Env)
    (l : List (Fin 15)) (s : State) :
    (servePulls sc e l s).ports.reads = s.ports.reads := by
  induction l generalizing s with
  | nil => rfl
  | cons j js ih =>
    refine (ih _).trans ?_
    unfold servePull
    split
    · rfl
    · rw [translateEffect_noSlot sc.pool hp]
      rfl

/-- With no slot held the channels' cycle reads nothing (R424). -/
theorem peripheralPhase_noSlot (sc : State) (hp : ∀ q : Fin 15, (sc.slotAt q).inUse = false) (e : Env)
    (s : State) : (peripheralPhase sc e s).ports.reads = s.ports.reads := by
  obtain ⟨v, hv⟩ := runChans_eq e sc.slots (servePulls sc e sc.slots s)
  unfold peripheralPhase
  rw [hv]
  exact servePulls_noSlot sc hp e sc.slots s

/-! ## The hosts -/

/-- What a host's turn on instance k leaves alone: all but instance k, the hosts' lists, the values
read and the bytes stored. -/
structure OnlyHost (k : Fin 8) (s t : State) : Prop where
  params : t.params = s.params
  cycle : t.cycle = s.cycle
  others : ∀ l, l ≠ k → t.instAt l = s.instAt l
  pool : t.pool = s.pool
  chans : t.chans = s.chans
  mem : t.mem = s.mem
  env : t.env = s.env
  draws : t.draws = s.draws
  raced : t.raced = s.raced
  arb : t.arb = s.arb
  cur : t.cur = s.cur
  kicks : t.ports.kicks = s.ports.kicks
  stops : t.ports.stops = s.ports.stops
  reads : t.ports.reads = s.ports.reads
  pulls : t.ports.pulls = s.ports.pulls

theorem OnlyHost.refl (k : Fin 8) (s : State) : OnlyHost k s s := by constructor <;> intros <;> rfl

theorem OnlyHost.trans {k : Fin 8} {s t u : State} (h : OnlyHost k s t) (g : OnlyHost k t u) :
    OnlyHost k s u where
  params := g.params.trans h.params
  cycle := g.cycle.trans h.cycle
  others l hl := (g.others l hl).trans (h.others l hl)
  pool := g.pool.trans h.pool
  chans := g.chans.trans h.chans
  mem := g.mem.trans h.mem
  env := g.env.trans h.env
  draws := g.draws.trans h.draws
  raced := g.raced.trans h.raced
  arb := g.arb.trans h.arb
  cur := g.cur.trans h.cur
  kicks := g.kicks.trans h.kicks
  stops := g.stops.trans h.stops
  reads := g.reads.trans h.reads
  pulls := g.pulls.trans h.pulls

theorem OnlyHost.setInstAt (k : Fin 8) (s : State) (x : Inst) : OnlyHost k s (s.setInstAt k x) := by
  constructor
  case others => exact fun l hl => State.instAt_setInstAt_ne _ _ hl
  all_goals rfl

theorem OnlyHost.setHostAt (k : Fin 8) (s : State) (l : List HostStmt) :
    OnlyHost k s (s.setHostAt k l) := by constructor <;> intros <;> rfl

theorem OnlyHost.logRdata (k : Fin 8) (s : State) (v : Word) : OnlyHost k s (s.logRdata k v) := by
  constructor <;> intros <;> rfl

theorem OnlyHost.logStores (k : Fin 8) (s : State) (l : List (Word × Byte)) :
    OnlyHost k s (s.logStores l) := by constructor <;> intros <;> rfl

theorem hostRead_instAt (rst : Bool) (s : State) (k : Fin 8) (off : BitVec 8) (z : AccessSize) :
    (hostRead rst s k off z).instAt k =
      if rst then s.instAt k else (s.instAt k).afterRead s.cycle off := by
  unfold hostRead
  split
  · rfl
  · exact State.instAt_setInstAt_self _ _ _

theorem hostRead_only (rst : Bool) (s : State) (k : Fin 8) (off : BitVec 8) (z : AccessSize) :
    OnlyHost k s (hostRead rst s k off z) := by
  unfold hostRead
  split
  · exact .logRdata k s 0
  · exact (OnlyHost.logRdata k s _).trans (.setInstAt k _ _)

theorem hostWrite_instAt (rst : Bool) (s : State) (k : Fin 8) (off : BitVec 8) (z : AccessSize)
    (w : Word) :
    (hostWrite rst s k off z w).instAt k =
      if rst then s.instAt k else (s.instAt k).busWrite s.params off z w := by
  unfold hostWrite
  split
  · rfl
  · exact State.instAt_setInstAt_self _ _ _

theorem hostWrite_only (rst : Bool) (s : State) (k : Fin 8) (off : BitVec 8) (z : AccessSize)
    (w : Word) : OnlyHost k s (hostWrite rst s k off z w) := by
  unfold hostWrite
  split
  · exact .refl k s
  · exact .setInstAt k s _

/-- A host's turn leaves everything else alone. -/
theorem hostTurn_only (rst : Bool) (k : Fin 8) (s : State) : OnlyHost k s (hostTurn rst k s) := by
  have set (t : State) (l : List HostStmt) (h : OnlyHost k s t) : OnlyHost k s (t.setHostAt k l) :=
    h.trans (.setHostAt k t l)
  unfold hostTurn
  split
  · exact set _ _ (.refl k s)
  · exact set _ _ (hostRead_only rst s k _ _)
  · exact set _ _ (hostWrite_only rst s k _ _ _)
  · exact set _ _ (.refl k s)
  · split <;> exact set _ _ (hostRead_only rst s k _ _)
  · exact set _ _ (.logStores k s _)

/-- What a host's turn can do to its instance: nothing, a read's side effect, or a write. -/
theorem hostTurn_instAt (rst : Bool) (k : Fin 8) (s : State) :
    (hostTurn rst k s).instAt k = s.instAt k ∨
      (rst = false ∧ ∃ off, (hostTurn rst k s).instAt k = (s.instAt k).afterRead s.cycle off) ∨
      (rst = false ∧ ∃ off z w,
        (hostTurn rst k s).instAt k = (s.instAt k).busWrite s.params off z w) := by
  have set (t : State) (l : List HostStmt) : (t.setHostAt k l).instAt k = t.instAt k := rfl
  have rd (off : BitVec 8) (z : AccessSize) (l : List HostStmt) :
      ((hostRead rst s k off z).setHostAt k l).instAt k = s.instAt k ∨
        (rst = false ∧ ∃ o, ((hostRead rst s k off z).setHostAt k l).instAt k =
          (s.instAt k).afterRead s.cycle o) := by
    rw [set, hostRead_instAt]
    cases rst
    · exact .inr ⟨rfl, off, rfl⟩
    · exact .inl rfl
  unfold hostTurn
  split
  · exact .inl (set _ _)
  · rcases rd _ _ _ with h | h
    · exact .inl h
    · exact .inr (.inl h)
  · rw [set, hostWrite_instAt]
    cases rst
    · exact .inr (.inr ⟨rfl, _, _, _, rfl⟩)
    · exact .inl rfl
  · exact .inl (set _ _)
  · split
    · rcases rd Reg.status.offset .word _ with h | h
      · exact .inl h
      · exact .inr (.inl h)
    · rcases rd Reg.status.offset .word _ with h | h
      · exact .inl h
      · exact .inr (.inl h)
  · exact .inl (set _ _)

end Sys2Proof.Machine
end

