-- ==== Sys2Proof/Laws/Cycle.lean ====
section
/-! SUPPORT. The cycle taken apart: the hosts' part, the stores, the sequencers one by one, and what
a step can answer. -/

namespace Sys2Proof.Machine

/-- What the host phase can do to one instance in a cycle that starts at `now`. -/
def HostMove (rst : Bool) (p : Params) (now : Time) (x y : Inst) : Prop :=
  y = x ∨ (rst = false ∧ ∃ off, y = x.afterRead now off) ∨
    (rst = false ∧ ∃ off z w, y = x.busWrite p off z w)

theorem State.ids_nodup (s : State) : s.ids.Nodup := List.Nodup.filter _ (by decide)

theorem State.slots_nodup (s : State) : s.slots.Nodup := by
  unfold State.slots
  split
  · exact List.Nodup.filter _ (by decide)
  · exact List.nodup_nil

theorem State.mem_ids (s : State) (k : Fin 8) : k ∈ s.ids ↔ k.val < s.params.nInst := by
  have : k ∈ allIds := by revert k; decide
  simp [State.ids, this]

theorem State.mem_slots (s : State) (j : Fin 15) :
    j ∈ s.slots ↔ s.params.hasPulsegen = true ∧ j.val < s.params.nCh := by
  have : j ∈ allSlots := by revert j; decide
  unfold State.slots
  split <;> simp [*]

theorem State.mem_freeSlots (s : State) (j : Fin 15) :
    j ∈ s.freeSlots ↔
      (s.params.hasPulsegen = true ∧ j.val < s.params.nCh) ∧ (s.slotAt j).inUse = false := by
  simp [State.freeSlots, State.mem_slots]

/-- What the hosts of a list leave alone. -/
structure OnlyHosts (s t : State) : Prop where
  params : t.params = s.params
  cycle : t.cycle = s.cycle
  pool : t.pool = s.pool
  chans : t.chans = s.chans
  mem : t.mem = s.mem
  env : t.env = s.env
  draws : t.draws = s.draws
  raced : t.raced = s.raced
  arb : t.arb = s.arb
  cur : t.cur = s.cur
  kicks : t.ports.kicks = s.ports.kicks
  stops : t.ports.stops = s.ports.stops
  reads : t.ports.reads = s.ports.reads
  pulls : t.ports.pulls = s.ports.pulls

theorem hostTurns_only (rst : Bool) (l : List (Fin 8)) (s : State) :
    OnlyHosts s (hostTurns rst l s) := by
  induction l generalizing s with
  | nil => constructor <;> rfl
  | cons k ks ih =>
    have h := hostTurn_only rst k s
    have g := ih (hostTurn rst k s)
    exact ⟨g.params.trans h.params, g.cycle.trans h.cycle, g.pool.trans h.pool,
      g.chans.trans h.chans, g.mem.trans h.mem, g.env.trans h.env, g.draws.trans h.draws,
      g.raced.trans h.raced, g.arb.trans h.arb, g.cur.trans h.cur, g.kicks.trans h.kicks,
      g.stops.trans h.stops, g.reads.trans h.reads, g.pulls.trans h.pulls⟩

theorem hostTurns_instAt_notMem (rst : Bool) (l : List (Fin 8)) (s : State) (k : Fin 8)
    (h : k ∉ l) : (hostTurns rst l s).instAt k = s.instAt k := by
  induction l generalizing s with
  | nil => rfl
  | cons i is ih =>
    have hi : k ≠ i := fun e => h (by simp [e])
    have : k ∉ is := fun e => h (by simp [e])
    exact (ih _ this).trans ((hostTurn_only rst i s).others k hi)

/-- Hosts with no statement left do nothing (log 1). -/
theorem hostTurns_done (rst : Bool) (l : List (Fin 8)) (s : State) (h : ∀ k, s.hostAt k = []) :
    hostTurns rst l s = s := by
  induction l generalizing s with
  | nil => rfl
  | cons k ks ih =>
    have hk : hostTurn rst k s = s := by
      unfold hostTurn
      rw [h k]
      show ({ s with hosts := s.hosts.set k [] } : State) = s
      rw [← h k]
      simp [State.hostAt]
    rw [hostTurns, hk]
    exact ih s h

/-- The hosts of a list without repeats move each instance once at most. -/
theorem hostTurns_instAt (rst : Bool) (l : List (Fin 8)) (hl : l.Nodup) (s : State) (k : Fin 8) :
    HostMove rst s.params s.cycle (s.instAt k) ((hostTurns rst l s).instAt k) := by
  induction l generalizing s with
  | nil => exact .inl rfl
  | cons i is ih =>
    obtain ⟨hi, his⟩ := List.nodup_cons.mp hl
    by_cases e : k = i
    · subst e
      have : (hostTurns rst (k :: is) s).instAt k = (hostTurn rst k s).instAt k :=
        hostTurns_instAt_notMem rst is _ k hi
      rw [this]
      exact hostTurn_instAt rst k s
    · have h := hostTurn_only rst i s
      have := ih his (hostTurn rst i s)
      rwa [h.params, h.cycle, h.others k e] at this

theorem noteRaces_eq (sc : State) (st : List (Word × Byte)) (l : List (Fin 8)) (s : State) :
    ∃ v, noteRaces sc st l s = { s with raced := v } := by
  induction l generalizing s with
  | nil => exact ⟨s.raced, rfl⟩
  | cons k ks ih =>
    obtain ⟨v, hv⟩ := ih { s with raced := s.raced.set k (racedNext sc s k st) }
    exact ⟨v, by simpa [noteRaces] using hv⟩

/-- Noting the races of a list without repeats brings each instance's up to date once. -/
theorem noteRaces_raced (sc : State) (st : List (Word × Byte)) (l : List (Fin 8)) (hl : l.Nodup)
    (s : State) (k : Fin 8) :
    (noteRaces sc st l s).raced[k.val] =
      if k ∈ l then racedNext sc s k st else s.raced[k.val] := by
  induction l generalizing s with
  | nil => rfl
  | cons i is ih =>
    obtain ⟨hi, his⟩ := List.nodup_cons.mp hl
    have := ih his { s with raced := s.raced.set i (racedNext sc s i st) }
    simp only [noteRaces]
    rw [this]
    by_cases e : k = i
    · subst e
      simp [hi]
    · have e' : i.val ≠ k.val := fun q => e (Fin.ext q.symm)
      have hr : racedNext sc { s with raced := s.raced.set i (racedNext sc s i st) } k st =
          racedNext sc s k st := rfl
      simp [e, hr, Vector.getElem_set_ne _ _ e']

/-- The bytes stored to the source space in this cycle by the hosts and by others. -/
def State.cycleStores (s : State) (e : Env) : List (Word × Byte) :=
  (hostTurns e.rstLow s.ids s.openCycle).ports.stores ++ e.stores

/-- The host phase: instances move as their hosts say, the source space takes the cycle's stores,
and the rest is as the cycle opened. -/
structure HostPhaseSpec (s : State) (e : Env) (t : State) : Prop where
  params : t.params = s.params
  cycle : t.cycle = s.cycle
  insts : ∀ k, HostMove e.rstLow s.params s.cycle (s.instAt k) (t.instAt k)
  outside : ∀ k : Fin 8, s.params.nInst ≤ k.val → t.instAt k = s.instAt k
  pool : t.pool = s.pool
  chans : t.chans = s.chans
  mem : t.mem = storeAll s.mem (s.cycleStores e)
  arb : t.arb = s.freeSlots
  cur : t.cur = s.cur
  env : t.env = s.env.tail

theorem hostPhase_spec (s : State) (e : Env) : HostPhaseSpec s e (hostPhase s e) := by
  have h := hostTurns_only e.rstLow s.ids s.openCycle
  have hi := hostTurns_instAt e.rstLow s.ids s.ids_nodup s.openCycle
  have ho := hostTurns_instAt_notMem e.rstLow s.ids s.openCycle
  unfold hostPhase
  obtain ⟨v, hv⟩ := noteRaces_eq s (s.cycleStores e) allIds
    { hostTurns e.rstLow s.ids s.openCycle with mem := storeAll s.mem (s.cycleStores e) }
  unfold State.cycleStores at hv
  rw [hv]
  refine ⟨h.params, h.cycle, hi, fun k hk => ho k ?_, h.pool, h.chans, rfl, h.arb, h.cur, h.env⟩
  simp [State.mem_ids, hk]

/-- The races after the host phase (R115). -/
theorem hostPhase_raced (s : State) (e : Env) (k : Fin 8) :
    (hostPhase s e).raced[k.val] = racedNext s (hostPhase s e) k (s.cycleStores e) := by
  have hk : k ∈ allIds := by revert k; decide
  unfold hostPhase
  obtain ⟨v, hv⟩ := noteRaces_eq s (s.cycleStores e) allIds
    { hostTurns e.rstLow s.ids s.openCycle with mem := storeAll s.mem (s.cycleStores e) }
  have h := noteRaces_raced s (s.cycleStores e) allIds (by decide)
    { hostTurns e.rstLow s.ids s.openCycle with mem := storeAll s.mem (s.cycleStores e) } k
  rw [if_pos hk] at h
  unfold State.cycleStores at h hv ⊢
  rw [h, hv]
  rfl

/-- The races noted, the ports are as the hosts left them. -/
theorem hostPhase_ports (s : State) (e : Env) :
    (hostPhase s e).ports = (hostTurns e.rstLow s.ids s.openCycle).ports := by
  unfold hostPhase
  obtain ⟨v, hv⟩ := noteRaces_eq s (s.cycleStores e) allIds
    { hostTurns e.rstLow s.ids s.openCycle with mem := storeAll s.mem (s.cycleStores e) }
  unfold State.cycleStores at hv
  rw [hv]

/-! ## The sequencers -/

/-- Every sequencer step answers a next state: no command faults or refuses. -/
theorem seqStep_next (s : State) : ∃ t, seqStep s = .next t := by
  unfold seqStep
  cases s.inst.phase
  case decode =>
    simp only [decodeStep]
    split
    · exact ⟨_, rfl⟩
    · rename_i i _
      cases i <;> exact ⟨_, rfl⟩
  all_goals exact ⟨_, rfl⟩

/-- A property that every sequencer step of the list keeps holds after all of them. -/
theorem seqSteps_keeps (P : State → Prop)
    (hP : ∀ (s t : State) (k : Fin 8), P s → seqStep (s.focus k) = .next t → P t)
    (l : List (Fin 8)) (s : State) (h : P s) : ∃ t, seqSteps l s = .next t ∧ P t := by
  induction l generalizing s with
  | nil => exact ⟨s, rfl, h⟩
  | cons k ks ih =>
    obtain ⟨t, ht⟩ := seqStep_next (s.focus k)
    obtain ⟨u, hu, hPu⟩ := ih t (hP s t k h ht)
    exact ⟨u, by simp [seqSteps, ht, hu], hPu⟩

/-- The same for the instances of the list alone. -/
theorem seqSteps_keeps_mem (P : State → Prop) (l : List (Fin 8))
    (hP : ∀ (s t : State) (k : Fin 8), k ∈ l → P s → seqStep (s.focus k) = .next t → P t)
    (s : State) (h : P s) : ∃ t, seqSteps l s = .next t ∧ P t := by
  induction l generalizing s with
  | nil => exact ⟨s, rfl, h⟩
  | cons k ks ih =>
    obtain ⟨t, ht⟩ := seqStep_next (s.focus k)
    obtain ⟨u, hu, hPu⟩ :=
      ih (fun a b i hi => hP a b i (List.mem_cons_of_mem k hi)) t (hP s t k (by simp) h ht)
    exact ⟨u, by simp [seqSteps, ht, hu], hPu⟩

/-- What a step can answer on a legal build: the reset state's cycle, or the cycle of the sequencers
that move. -/
theorem step_cases {s t : State} (h : step s = .next t) :
    s.params.legal ∧
      ((s.input.rstLow = true ∧ t = resetCycle s s.input) ∨
        (s.input.rstLow = false ∧ ∃ u, seqSteps (s.movers s.input) (hostPhase s s.input) = .next u ∧
          t = closeCycle s (peripheralPhase s s.input u))) := by
  unfold step clockCycle at h
  split at h
  · rename_i hl
    refine ⟨hl, ?_⟩
    split at h
    · rename_i hr
      injection h with h
      exact .inl ⟨hr, h.symm⟩
    · rename_i hr
      unfold runCycle at h
      split at h
      · rename_i u hu
        injection h with h
        exact .inr ⟨by simpa using hr, u, hu, h.symm⟩
      · cases h
      · cases h
  · cases h

end Sys2Proof.Machine
end

