-- ==== Sys2Proof/Laws/Encoding.lean ====
section
/-! SUPPORT. The fields of a command word as numbers, and decoding by the word's value. -/

namespace Sys2Proof

theorem opField_toNat (w : Word) : (opField w).toNat = w.toNat % 256 := by
  simp [opField, BitVec.extractLsb'_toNat]

theorem operandField_toNat (w : Word) : (operandField w).toNat = w.toNat / 256 := by
  have := w.isLt
  simp [operandField, BitVec.extractLsb'_toNat, Nat.shiftRight_eq_div_pow]
  omega

theorem brightField_toNat (w : Word) : (brightField w).toNat = w.toNat / 256 % 256 := by
  simp [brightField, BitVec.extractLsb'_toNat, Nat.shiftRight_eq_div_pow]

theorem upperHalf_toNat (w : Word) : (upperHalf w).toNat = w.toNat / 65536 := by
  have := w.isLt
  simp [upperHalf, BitVec.extractLsb'_toNat, Nat.shiftRight_eq_div_pow]
  omega

/-- The opcode field is a number exactly when the word's low byte is. -/
theorem opField_eq_iff (w : Word) (m : Nat) (h : m < 256) :
    opField w = BitVec.ofNat 8 m ↔ w.toNat % 256 = m := by
  rw [BitVec.toNat_eq, opField_toNat, BitVec.toNat_ofNat, Nat.mod_eq_of_lt h]

/-- Decoding as a chain of tests on the word's value. -/
theorem decode_by_value (w : Word) :
    decode w =
      if w.toNat = 0 then .command .nop
      else if w.toNat = 1 then .command .loadProfile
      else if w.toNat % 256 = 2 ∧ w.toNat / 65536 = 0 then
        .command (.showFrame (w.toNat / 256 % 256))
      else if w.toNat % 256 = 3 then .command (.forceClear (w.toNat / 256))
      else if w.toNat = 4 then .command .getStats
      else if w.toNat = 5 then .command .clearStats
      else if w.toNat = 6 then .command .beginLine
      else if 7 ≤ w.toNat % 256 then .illegal (.reservedOp (opField w))
      else .illegal (.mustBeZero (opField w)) := by
  have hlt := w.isLt
  have hr : operandField w = 0#24 ↔ w.toNat / 256 = 0 := by
    rw [BitVec.toNat_eq, operandField_toNat]
    rfl
  have hu : upperHalf w = 0#16 ↔ w.toNat / 65536 = 0 := by
    rw [BitVec.toNat_eq, upperHalf_toNat]
    rfl
  have hz (m : Nat) (hm : m < 256) : w.toNat = m ↔ w.toNat % 256 = m ∧ w.toNat / 256 = 0 := by omega
  by_cases h7 : w.toNat % 256 < 7
  · have : w.toNat % 256 = 0 ∨ w.toNat % 256 = 1 ∨ w.toNat % 256 = 2 ∨ w.toNat % 256 = 3 ∨
        w.toNat % 256 = 4 ∨ w.toNat % 256 = 5 ∨ w.toNat % 256 = 6 := by omega
    rcases this with h | h | h | h | h | h | h
    all_goals
      unfold decode decodePlain
      simp only [(opField_eq_iff w _ (by omega)).mpr h]
      simp [hr, hu, h, hz, operandField_toNat, brightField_toNat]
  · have hne (m : Nat) (hm : m < 7) : opField w ≠ BitVec.ofNat 8 m := by
      rw [Ne, opField_eq_iff w m (by omega)]
      omega
    have hmod (m : Nat) (hm : m < 7) : w.toNat % 256 ≠ m := by omega
    simp [decode, hz, hmod, hne 0, hne 1, hne 2, hne 3, hne 4, hne 5, hne 6, Nat.le_of_not_lt h7]

/-- The word of SHOW as a number (R131). -/
theorem encode_showFrame_toNat (b : Nat) (h : b < 256) :
    (encode (.showFrame b)).toNat = b * 256 + 2 := by
  show ((0 : BitVec 16) ++ BitVec.ofNat 8 b ++ (0x02 : BitVec 8)).toNat = _
  rw [BitVec.toNat_append, BitVec.toNat_append, ← Nat.shiftLeft_add_eq_or_of_lt (by decide),
    ← Nat.shiftLeft_add_eq_or_of_lt (by simp; omega)]
  simp [Nat.shiftLeft_eq]
  omega

/-- The word of FORCE_CLEAR as a number (R131). -/
theorem encode_forceClear_toNat (n : Nat) (h : n < 2 ^ 24) :
    (encode (.forceClear n)).toNat = n * 256 + 3 := by
  show (BitVec.ofNat 24 n ++ (0x03 : BitVec 8)).toNat = _
  rw [BitVec.toNat_append, ← Nat.shiftLeft_add_eq_or_of_lt (by decide)]
  simp [Nat.shiftLeft_eq]
  omega

end Sys2Proof
end

