-- ==== Sys2Proof/Laws/Hosts.lean ====
section
/-! SUPPORT. The hosts' turns of a cycle taken apart: each host sees and changes its own instance only
(20_memory.md R113). -/

namespace Sys2Proof.Machine

/-- The bytes a host with these statements stores in its turn (R138). -/
def storedBy (l : List HostStmt) : List (Word × Byte) :=
  match skipIdle l with
  | [] => []
  | .read _ _ :: _ => []
  | .write _ _ _ :: _ => []
  | .idle _ :: _ => []
  | .waitIdle :: _ => []
  | .memw a bs :: _ => byteRun a bs

/-- Two machines that instance k's host cannot tell apart. -/
structure SameHost (k : Fin 8) (s t : State) : Prop where
  host : t.hostAt k = s.hostAt k
  inst : t.instAt k = s.instAt k
  cycle : t.cycle = s.cycle
  params : t.params = s.params
  rdata : t.ports.rdata[k.val] = s.ports.rdata[k.val]

theorem SameHost.trans {k : Fin 8} {s t u : State} (h : SameHost k s t) (g : SameHost k t u) :
    SameHost k s u :=
  ⟨g.host.trans h.host, g.inst.trans h.inst, g.cycle.trans h.cycle, g.params.trans h.params,
   g.rdata.trans h.rdata⟩

@[simp] theorem State.hostAt_setHostAt_self (s : State) (k : Fin 8) (l : List HostStmt) :
    (s.setHostAt k l).hostAt k = l := by simp [State.setHostAt, State.hostAt]

theorem State.hostAt_setHostAt_ne (s : State) {k i : Fin 8} (l : List HostStmt) (h : i ≠ k) :
    (s.setHostAt k l).hostAt i = s.hostAt i :=
  Vector.getElem_set_ne k.isLt i.isLt (fun e => h (Fin.ext e).symm)

/-- What a host's turn does on instance k, as a function of what the host sees. -/
structure HostTurn (rst : Bool) (k : Fin 8) (s t : State) : Prop where
  host : t.hostAt k =
    match skipIdle (s.hostAt k) with
    | [] => []
    | .read _ _ :: rest => rest
    | .write _ _ _ :: rest => rest
    | .idle n :: rest => .idle (n - 1) :: rest
    | .waitIdle :: rest =>
      if (hostReadValue rst s k Reg.status.offset .word).getLsbD 0 then .waitIdle :: rest else rest
    | .memw _ _ :: rest => rest
  inst : t.instAt k =
    match skipIdle (s.hostAt k) with
    | [] => s.instAt k
    | .read off _ :: _ => if rst then s.instAt k else (s.instAt k).afterRead s.cycle off
    | .write off z w :: _ => if rst then s.instAt k else (s.instAt k).busWrite s.params off z w
    | .idle _ :: _ => s.instAt k
    | .waitIdle :: _ =>
      if rst then s.instAt k else (s.instAt k).afterRead s.cycle Reg.status.offset
    | .memw _ _ :: _ => s.instAt k
  rdata : t.ports.rdata[k.val] =
    match skipIdle (s.hostAt k) with
    | [] => s.ports.rdata[k.val]
    | .read off z :: _ => some (hostReadValue rst s k off z)
    | .write _ _ _ :: _ => s.ports.rdata[k.val]
    | .idle _ :: _ => s.ports.rdata[k.val]
    | .waitIdle :: _ => some (hostReadValue rst s k Reg.status.offset .word)
    | .memw _ _ :: _ => s.ports.rdata[k.val]
  stores : t.ports.stores = s.ports.stores ++ storedBy (s.hostAt k)
  others : ∀ i, i ≠ k → SameHost i s t

theorem hostRead_rdata (rst : Bool) (s : State) (k : Fin 8) (off : BitVec 8) (z : AccessSize) :
    (hostRead rst s k off z).ports.rdata = s.ports.rdata.set k (some (hostReadValue rst s k off z)) := by
  unfold hostRead hostReadValue
  split <;> rfl

theorem hostRead_hosts (rst : Bool) (s : State) (k : Fin 8) (off : BitVec 8) (z : AccessSize) :
    (hostRead rst s k off z).hosts = s.hosts ∧
      (hostRead rst s k off z).ports.stores = s.ports.stores := by
  unfold hostRead
  split <;> exact ⟨rfl, rfl⟩

theorem hostWrite_ports (rst : Bool) (s : State) (k : Fin 8) (off : BitVec 8) (z : AccessSize)
    (w : Word) :
    (hostWrite rst s k off z w).hosts = s.hosts ∧ (hostWrite rst s k off z w).ports = s.ports := by
  unfold hostWrite
  split <;> exact ⟨rfl, rfl⟩

theorem hostTurn_spec (rst : Bool) (k : Fin 8) (s : State) : HostTurn rst k s (hostTurn rst k s) := by
  have o := hostTurn_only rst k s
  have oth (i : Fin 8) (hi : i ≠ k) (h1 : (hostTurn rst k s).hostAt i = s.hostAt i)
      (h2 : (hostTurn rst k s).ports.rdata[i.val] = s.ports.rdata[i.val]) :
      SameHost i s (hostTurn rst k s) := ⟨h1, o.others i hi, o.cycle, o.params, h2⟩
  have hr (off : BitVec 8) (z : AccessSize) (l : List HostStmt) (i : Fin 8) (hi : i ≠ k) :
      ((hostRead rst s k off z).setHostAt k l).hostAt i = s.hostAt i ∧
        ((hostRead rst s k off z).setHostAt k l).ports.rdata[i.val] = s.ports.rdata[i.val] := by
    refine ⟨?_, ?_⟩
    · rw [State.hostAt_setHostAt_ne _ _ hi]
      simp [State.hostAt, (hostRead_hosts rst s k off z).1]
    · show (hostRead rst s k off z).ports.rdata[i.val] = _
      simp only [hostRead_rdata]
      exact Vector.getElem_set_ne _ _ (fun e => hi (Fin.ext e).symm)
  have hv (off : BitVec 8) (z : AccessSize) (l : List HostStmt) :
      ((hostRead rst s k off z).setHostAt k l).ports.rdata[k.val] =
        some (hostReadValue rst s k off z) := by
    show (hostRead rst s k off z).ports.rdata[k.val] = _
    simp [hostRead_rdata]
  cases h : skipIdle (s.hostAt k) with
  | nil =>
    have e : hostTurn rst k s = s.setHostAt k [] := by unfold hostTurn; rw [h]
    refine ⟨?_, ?_, ?_, ?_, fun i hi => oth i hi ?_ ?_⟩ <;> rw [e] <;> try simp only [h]
    · exact State.hostAt_setHostAt_self _ _ _
    · rfl
    · rfl
    · simp [storedBy, h, State.setHostAt]
    · exact State.hostAt_setHostAt_ne _ _ hi
    · rfl
  | cons x rest =>
    cases x with
    | read off z =>
      have e : hostTurn rst k s = (hostRead rst s k off z).setHostAt k rest := by
        unfold hostTurn; rw [h]
      refine ⟨?_, ?_, ?_, ?_, fun i hi => oth i hi ?_ ?_⟩ <;> rw [e] <;> try simp only [h]
      · exact State.hostAt_setHostAt_self _ _ _
      · exact hostRead_instAt rst s k off z
      · exact hv off z rest
      · rw [show storedBy (s.hostAt k) = [] by simp [storedBy, h], List.append_nil]
        exact (hostRead_hosts rst s k off z).2
      · exact (hr off z rest i hi).1
      · exact (hr off z rest i hi).2
    | write off z w =>
      have e : hostTurn rst k s = (hostWrite rst s k off z w).setHostAt k rest := by
        unfold hostTurn; rw [h]
      have hp := hostWrite_ports rst s k off z w
      have hq : ((hostWrite rst s k off z w).setHostAt k rest).ports = s.ports := hp.2
      refine ⟨?_, ?_, ?_, ?_, fun i hi => oth i hi ?_ ?_⟩ <;> rw [e] <;> try simp only [h]
      · exact State.hostAt_setHostAt_self _ _ _
      · exact hostWrite_instAt rst s k off z w
      · rw [hq]
      · rw [hq, show storedBy (s.hostAt k) = [] by simp [storedBy, h], List.append_nil]
      · rw [State.hostAt_setHostAt_ne _ _ hi]
        simp [State.hostAt, hp.1]
      · rw [hq]
    | idle n =>
      have e : hostTurn rst k s = s.setHostAt k (.idle (n - 1) :: rest) := by
        unfold hostTurn; rw [h]
      refine ⟨?_, ?_, ?_, ?_, fun i hi => oth i hi ?_ ?_⟩ <;> rw [e] <;> try simp only [h]
      · exact State.hostAt_setHostAt_self _ _ _
      · rfl
      · rfl
      · simp [storedBy, h, State.setHostAt]
      · exact State.hostAt_setHostAt_ne _ _ hi
      · rfl
    | waitIdle =>
      have e : hostTurn rst k s = (hostRead rst s k Reg.status.offset .word).setHostAt k
          (if (hostReadValue rst s k Reg.status.offset .word).getLsbD 0 then .waitIdle :: rest
            else rest) := by
        unfold hostTurn
        rw [h]
        dsimp only
        split <;> rfl
      refine ⟨?_, ?_, ?_, ?_, fun i hi => oth i hi ?_ ?_⟩ <;> rw [e] <;> try simp only [h]
      · exact State.hostAt_setHostAt_self _ _ _
      · exact hostRead_instAt rst s k Reg.status.offset .word
      · exact hv Reg.status.offset .word _
      · rw [show storedBy (s.hostAt k) = [] by simp [storedBy, h], List.append_nil]
        exact (hostRead_hosts rst s k Reg.status.offset .word).2
      · exact (hr Reg.status.offset .word _ i hi).1
      · exact (hr Reg.status.offset .word _ i hi).2
    | memw a bs =>
      have e : hostTurn rst k s = (s.logStores (byteRun a bs)).setHostAt k rest := by
        unfold hostTurn; rw [h]
      refine ⟨?_, ?_, ?_, ?_, fun i hi => oth i hi ?_ ?_⟩ <;> rw [e] <;> try simp only [h]
      · exact State.hostAt_setHostAt_self _ _ _
      · rfl
      · rfl
      · simp [storedBy, h, State.setHostAt, State.logStores]
      · exact State.hostAt_setHostAt_ne _ _ hi
      · rfl

/-- A host's turn is the same on machines it cannot tell apart. -/
theorem hostTurn_congr (rst : Bool) {k : Fin 8} {s t : State} (h : SameHost k s t) :
    SameHost k (hostTurn rst k s) (hostTurn rst k t) := by
  have a := hostTurn_spec rst k s
  have b := hostTurn_spec rst k t
  have os := hostTurn_only rst k s
  have ot := hostTurn_only rst k t
  have hv (off : BitVec 8) (z : AccessSize) :
      hostReadValue rst t k off z = hostReadValue rst s k off z := by
    unfold hostReadValue
    rw [h.cycle, h.inst]
  refine ⟨?_, ?_, ot.cycle.trans (h.cycle.trans os.cycle.symm),
    ot.params.trans (h.params.trans os.params.symm), ?_⟩
  · rw [a.host, b.host, h.host]
    simp only [hv]
  · rw [a.inst, b.inst, h.host, h.inst, h.cycle, h.params]
  · rw [a.rdata, b.rdata, h.host, h.rdata]
    simp only [hv]

/-- Of the hosts of a list without k none touches what k's host sees. -/
theorem hostTurns_notMem (rst : Bool) (l : List (Fin 8)) (s : State) (k : Fin 8) (h : k ∉ l) :
    SameHost k s (hostTurns rst l s) := by
  induction l generalizing s with
  | nil => constructor <;> rfl
  | cons i is ih =>
    have hi : k ≠ i := fun e => h (by simp [e])
    exact ((hostTurn_spec rst i s).others k hi).trans (ih _ (fun e => h (by simp [e])))

/-- The hosts of a list without repeats each take one turn, as if alone. -/
theorem hostTurns_turn (rst : Bool) (l : List (Fin 8)) (hl : l.Nodup) (s : State) (k : Fin 8)
    (hk : k ∈ l) : SameHost k (hostTurn rst k s) (hostTurns rst l s) := by
  induction l generalizing s with
  | nil => cases hk
  | cons i is ih =>
    obtain ⟨hi, his⟩ := List.nodup_cons.mp hl
    by_cases e : k = i
    · subst e
      exact hostTurns_notMem rst is _ k hi
    · exact (hostTurn_congr rst ((hostTurn_spec rst i s).others k e)).trans
        (ih his _ ((List.mem_cons.mp hk).resolve_left e))

/-- The bytes the hosts of a list without repeats store, one host after another. -/
theorem hostTurns_stores (rst : Bool) (l : List (Fin 8)) (hl : l.Nodup) (s : State) :
    (hostTurns rst l s).ports.stores = s.ports.stores ++ l.flatMap (fun k => storedBy (s.hostAt k)) := by
  induction l generalizing s with
  | nil => simp [hostTurns]
  | cons i is ih =>
    obtain ⟨hi, his⟩ := List.nodup_cons.mp hl
    have a := hostTurn_spec rst i s
    have hc : is.flatMap (fun k => storedBy ((hostTurn rst i s).hostAt k)) =
        is.flatMap (fun k => storedBy (s.hostAt k)) :=
      List.flatMap_congr fun k hk => by rw [(a.others k (fun e => hi (e ▸ hk))).host]
    rw [hostTurns, ih his, a.stores, hc, List.flatMap_cons, List.append_assoc]

/-- After the host phase an instance of the build, its host and its port are as its own host's turn
leaves them; what lies outside the build is untouched (R35, R113). -/
theorem hostPhase_turn (s : State) (e : Env) (k : Fin 8) :
    (k.val < s.params.nInst →
      SameHost k (hostTurn e.rstLow k s.openCycle) (hostPhase s e)) ∧
    (s.params.nInst ≤ k.val → SameHost k s.openCycle (hostPhase s e)) := by
  have hp : SameHost k (hostTurns e.rstLow s.ids s.openCycle) (hostPhase s e) := by
    unfold hostPhase
    obtain ⟨v, hv⟩ := noteRaces_eq s (s.cycleStores e) allIds
      { hostTurns e.rstLow s.ids s.openCycle with mem := storeAll s.mem (s.cycleStores e) }
    unfold State.cycleStores at hv
    rw [hv]
    constructor <;> rfl
  refine ⟨fun h => ?_, fun h => ?_⟩
  · exact (hostTurns_turn _ _ s.ids_nodup _ k ((s.mem_ids k).mpr h)).trans hp
  · refine (hostTurns_notMem _ _ _ k fun q => ?_).trans hp
    have := (s.mem_ids k).mp q
    omega

end Sys2Proof.Machine
end

