-- ==== Sys2Proof/Laws/Sequencer.lean ====
section
/-! SUPPORT. What a sequencer step can do: which fields of an instance each named action keeps, what a
step of each phase leaves alone, and the acting instance after it. -/

namespace Sys2Proof.Machine

/-! ## Named actions on one instance -/

/-- What the debug triggers leave alone. -/
structure OnlyDebugPins (x y : Inst) : Prop where
  ctrl : y.ctrl = x.ctrl
  status : y.status = x.status
  cfg : y.cfg = x.cfg
  prof : y.prof = x.prof
  stats : y.stats = x.stats
  phase : y.phase = x.phase
  h : y.h = x.h
  hiLatch : y.hiLatch = x.hiLatch
  dout : y.pins.dout = x.pins.dout
  doutOe : y.pins.doutOe = x.pins.doutOe

theorem toggleStart_only (x : Inst) : OnlyDebugPins x x.toggleStart := by
  unfold Inst.toggleStart
  split <;> constructor <;> rfl

theorem toggleAbort_only (x : Inst) : OnlyDebugPins x x.toggleAbort := by
  unfold Inst.toggleAbort
  split <;> constructor <;> rfl

/-- The error is recorded, and at most a debug pin moves. -/
theorem noteError_only (x : Inst) (c : ErrCode) :
    OnlyDebugPins { x with h := { x.h with err := c } } (x.noteError c) :=
  toggleAbort_only _

/-- Only statistics and the throttle reference differ. -/
structure OnlyStats (x y : Inst) : Prop where
  ctrl : y.ctrl = x.ctrl
  status : y.status = x.status
  cfg : y.cfg = x.cfg
  prof : y.prof = x.prof
  phase : y.phase = x.phase
  h : y.h = x.h
  hiLatch : y.hiLatch = x.hiLatch
  pins : y.pins = x.pins

theorem noteEnd_only (x : Inst) (ok : Bool) (f : Time) : OnlyStats x (x.noteEnd ok f) := by
  unfold Inst.noteEnd
  split <;> constructor <;> rfl

theorem showAfterFail_phase (x : Inst) (f : Time) :
    (x.showAfterFail f).phase = .idle ∨ (x.showAfterFail f).phase = .gate := by
  unfold Inst.showAfterFail
  split
  · exact .inl rfl
  · exact .inr rfl

theorem forceClearAfterFail_phase (x : Inst) (f : Time) :
    (x.forceClearAfterFail f).phase = .idle ∨ (x.forceClearAfterFail f).phase = .gate := by
  unfold Inst.forceClearAfterFail
  split
  · exact .inl rfl
  · exact .inr rfl

/-- The end of an attempt leaves the sequencer in IDLE or in GATE (R306). -/
theorem endAttempt_phase (x : Inst) (ok : Bool) (c : ErrCode) (f : Time) :
    (x.endAttempt ok c f).phase = .idle ∨ (x.endAttempt ok c f).phase = .gate := by
  unfold Inst.endAttempt
  split
  · exact .inl rfl
  · split
    · exact showAfterFail_phase _ f
    · exact forceClearAfterFail_phase _ f

theorem endAttempt_not_wait (x : Inst) (ok : Bool) (c : ErrCode) (f : Time) :
    (x.endAttempt ok c f).phase ≠ .hwWait := by
  rcases endAttempt_phase x ok c f with e | e <;> rw [e] <;> simp

/-- What the end of an attempt leaves alone (R306). -/
structure OnlyAttemptEnd (x y : Inst) : Prop where
  ctrl : y.ctrl = x.ctrl
  cfg : y.cfg = x.cfg
  prof : y.prof = x.prof
  hiLatch : y.hiLatch = x.hiLatch
  dout : y.pins.dout = x.pins.dout
  doutOe : y.pins.doutOe = x.pins.doutOe
  cmdword : y.h.cmdword = x.h.cmdword
  fps : y.stats.fps = x.stats.fps
  start : y.stats.start = x.stats.start

theorem OnlyAttemptEnd.finish {x y : Inst} (h : OnlyAttemptEnd x y) (ok : Bool) (c : ErrCode) :
    OnlyAttemptEnd x (y.finish ok c) :=
  ⟨h.ctrl, h.cfg, h.prof, h.hiLatch, h.dout, h.doutOe, h.cmdword, h.fps, h.start⟩

theorem OnlyAttemptEnd.again {x y : Inst} (h : OnlyAttemptEnd x y) (t : Time) (d : Word) :
    OnlyAttemptEnd x (y.spendRetry.enterGate t d) :=
  ⟨h.ctrl, h.cfg, h.prof, h.hiLatch, h.dout, h.doutOe, h.cmdword, h.fps, h.start⟩

theorem noteEnd_end (x : Inst) (ok : Bool) (f : Time) : OnlyAttemptEnd x (x.noteEnd ok f) := by
  unfold Inst.noteEnd
  split <;> constructor <;> rfl

theorem OnlyAttemptEnd.noteError {x y : Inst} (h : OnlyAttemptEnd x y) (c : ErrCode) :
    OnlyAttemptEnd x (y.noteError c) := by
  unfold Inst.noteError Inst.toggleAbort
  split <;>
    exact ⟨h.ctrl, h.cfg, h.prof, h.hiLatch, h.dout, h.doutOe, h.cmdword, h.fps, h.start⟩

theorem endAttempt_only (x : Inst) (ok : Bool) (c : ErrCode) (f : Time) :
    OnlyAttemptEnd x (x.endAttempt ok c f) := by
  have hn := (noteEnd_end x false f).noteError c
  unfold Inst.endAttempt
  split
  · exact (noteEnd_end x true f).finish true .none
  · split
    · unfold Inst.showAfterFail
      split
      · exact hn.finish false _
      · exact hn.again f _
    · unfold Inst.forceClearAfterFail
      split
      · exact hn.finish false _
      · exact hn.again f _

/-! ## What a step of the machine's acting instance leaves alone -/

/-- A step of the acting instance that does not touch the pool. -/
structure OnlyActing (s t : State) : Prop where
  params : t.params = s.params
  cycle : t.cycle = s.cycle
  others : ∀ k, k ≠ s.cur → t.instAt k = s.instAt k
  pool : t.pool = s.pool
  chans : t.chans = s.chans
  mem : t.mem = s.mem
  hosts : t.hosts = s.hosts
  env : t.env = s.env
  raced : t.raced = s.raced
  arb : t.arb = s.arb
  cur : t.cur = s.cur
  kicks : t.ports.kicks = s.ports.kicks
  stops : t.ports.stops = s.ports.stops
  stores : t.ports.stores = s.ports.stores
  rdata : t.ports.rdata = s.ports.rdata
  pulls : t.ports.pulls = s.ports.pulls

theorem OnlyActing.refl (s : State) : OnlyActing s s := by
  constructor <;> intros <;> rfl

theorem OnlyActing.trans {s t u : State} (h : OnlyActing s t) (g : OnlyActing t u) :
    OnlyActing s u :=
  ⟨g.params.trans h.params, g.cycle.trans h.cycle,
   fun k hk => (g.others k (by rw [h.cur]; exact hk)).trans (h.others k hk), g.pool.trans h.pool,
   g.chans.trans h.chans, g.mem.trans h.mem, g.hosts.trans h.hosts, g.env.trans h.env,
   g.raced.trans h.raced, g.arb.trans h.arb, g.cur.trans h.cur, g.kicks.trans h.kicks,
   g.stops.trans h.stops, g.stores.trans h.stores, g.rdata.trans h.rdata, g.pulls.trans h.pulls⟩

theorem OnlyReads.onlyActing {s t : State} (h : OnlyReads s t) : OnlyActing s t :=
  ⟨h.params, h.cycle, fun k _ => h.instAt k, h.pool, h.chans, h.mem, h.hosts, h.env, h.raced, h.arb,
   h.cur, h.kicks, h.stops, h.stores, h.rdata,
   h.pulls⟩

theorem onInst_only (s : State) (f : Inst → Inst) : OnlyActing s (s.onInst f) := by
  constructor
  case others => exact fun _ hk => State.onInst_instAt_ne s f hk
  all_goals rfl

theorem OnlyActing.instAt {s t : State} (h : OnlyActing s t) (k : Fin 8) :
    t.instAt k = if k = s.cur then t.inst else s.instAt k := by
  split
  · rename_i e
    rw [e, ← h.cur]
    rfl
  · exact h.others k ‹_›

theorem OnlyActing.slotAt {s t : State} (h : OnlyActing s t) (j : Fin 15) :
    t.slotAt j = s.slotAt j := by simp [State.slotAt, h.pool]

theorem swStart_only (s : State) : OnlyActing s (swStart s) := by
  unfold swStart
  split
  · exact onInst_only _ _
  · exact (fetchState_onlyReads s 0).onlyActing.trans (onInst_only _ _)

theorem advance_only (s : State) : OnlyActing s (advance s) := by
  unfold advance
  split
  · exact onInst_only _ _
  · split
    · exact onInst_only _ _
    · exact (fetchState_onlyReads s _).onlyActing.trans (onInst_only _ _)

theorem raiseAndAdvance_only (s : State) : OnlyActing s (raiseAndAdvance s) :=
  ((onInst_only _ _).trans (advance_only _)).trans (onInst_only _ _)

theorem awaitSlotStep_only (s : State) : OnlyActing s (awaitSlotStep s) := by
  unfold awaitSlotStep
  split
  · exact raiseAndAdvance_only s
  · split
    · exact onInst_only _ _
    · split
      · exact raiseAndAdvance_only s
      · exact .refl s

theorem holdHighStep_only (s : State) : OnlyActing s (holdHighStep s) := by
  unfold holdHighStep
  split
  · exact onInst_only _ _
  · split
    · exact onInst_only _ _
    · exact .refl s

theorem finalLowStep_only (s : State) : OnlyActing s (finalLowStep s) := by
  unfold finalLowStep
  split
  · exact onInst_only _ _
  · exact .refl s

/-- The DECODE cycle changes the acting instance alone: every command and every illegal word (R381). -/
theorem decodeStep_eq (s : State) : ∃ f, decodeStep s = .next (s.onInst f) := by
  unfold decodeStep
  split
  · exact ⟨_, rfl⟩
  · rename_i i _
    cases i <;> exact ⟨_, rfl⟩

/-- What a step of any sequencer leaves alone: other instances, channels, the source space, the build
and the inputs. -/
structure OnlyTurn (s t : State) : Prop where
  params : t.params = s.params
  cycle : t.cycle = s.cycle
  others : ∀ k, k ≠ s.cur → t.instAt k = s.instAt k
  chans : t.chans = s.chans
  mem : t.mem = s.mem
  hosts : t.hosts = s.hosts
  env : t.env = s.env
  raced : t.raced = s.raced
  cur : t.cur = s.cur
  stores : t.ports.stores = s.ports.stores
  rdata : t.ports.rdata = s.ports.rdata
  pulls : t.ports.pulls = s.ports.pulls

theorem OnlyActing.onlyTurn {s t : State} (h : OnlyActing s t) : OnlyTurn s t :=
  ⟨h.params, h.cycle, h.others, h.chans, h.mem, h.hosts, h.env, h.raced, h.cur, h.stores, h.rdata,
   h.pulls⟩

theorem OnlyTurn.trans {s t u : State} (h : OnlyTurn s t) (g : OnlyTurn t u) : OnlyTurn s u :=
  ⟨g.params.trans h.params, g.cycle.trans h.cycle,
   fun k hk => (g.others k (by rw [h.cur]; exact hk)).trans (h.others k hk), g.chans.trans h.chans,
   g.mem.trans h.mem, g.hosts.trans h.hosts, g.env.trans h.env, g.raced.trans h.raced,
   g.cur.trans h.cur, g.stores.trans h.stores, g.rdata.trans h.rdata, g.pulls.trans h.pulls⟩

theorem hwStart_only (s : State) : OnlyTurn s (hwStart s) := by
  unfold hwStart
  split
  · exact (onInst_only _ _).onlyTurn
  · split
    · exact (onInst_only _ _).onlyTurn
    · constructor
      case others => exact fun _ hk => State.onInst_instAt_ne _ _ hk
      all_goals rfl

theorem hwWaitStep_only (s : State) : OnlyTurn s (hwWaitStep s) := by
  unfold hwWaitStep
  split
  · constructor
    case others => exact fun _ hk => State.onInst_instAt_ne _ _ hk
    all_goals rfl
  · split
    · constructor
      case others => exact fun _ hk => State.onInst_instAt_ne _ _ hk
      all_goals rfl
    · exact (OnlyActing.refl s).onlyTurn

theorem gateStep_only (s : State) : OnlyTurn s (gateStep s) := by
  unfold gateStep startAttempt
  split
  · split
    · exact (onInst_only _ _).onlyTurn.trans (hwStart_only _)
    · exact (onInst_only _ _).onlyTurn.trans (swStart_only _).onlyTurn
  · exact (OnlyActing.refl s).onlyTurn

/-- A sequencer's step leaves everything else alone. -/
theorem seqStep_only {s t : State} (h : seqStep s = .next t) : OnlyTurn s t := by
  unfold seqStep at h
  split at h
  · injection h with h
    exact h ▸ (OnlyActing.refl s).onlyTurn
  · obtain ⟨f, hf⟩ := decodeStep_eq s
    rw [hf] at h
    injection h with h
    exact h ▸ (onInst_only s f).onlyTurn
  · injection h with h
    exact h ▸ gateStep_only s
  · injection h with h
    exact h ▸ (awaitSlotStep_only s).onlyTurn
  · injection h with h
    exact h ▸ (holdHighStep_only s).onlyTurn
  · injection h with h
    exact h ▸ (finalLowStep_only s).onlyTurn
  · injection h with h
    exact h ▸ hwWaitStep_only s

/-! ## The acting instance after the bit loop's actions -/

theorem swStart_inst (s : State) :
    (swStart s).inst =
      if s.inst.h.len = 0 then s.inst.endAttempt true .none s.cycle
      else s.inst.loadFirst (fetchByte s 0) := by
  unfold swStart
  split
  · simp
  · simp [(fetchState_onlyReads s 0).inst]

theorem advance_inst (s : State) :
    (advance s).inst =
      if s.inst.h.mask >>> 1 ≠ 0 then s.inst.shiftMask
      else if s.inst.h.cursor = s.inst.h.len then s.inst.shiftMask.markEof
      else s.inst.loadNext (fetchByte s s.inst.h.cursor.toNat) := by
  unfold advance
  split
  · simp
  · split
    · simp
    · simp [(fetchState_onlyReads s _).inst]

theorem raiseAndAdvance_inst (s : State) :
    (raiseAndAdvance s).inst =
      (if s.inst.h.mask >>> 1 ≠ 0 then (s.inst.raise s.cycle).shiftMask
       else if s.inst.h.cursor = s.inst.h.len then (s.inst.raise s.cycle).shiftMask.markEof
       else (s.inst.raise s.cycle).loadNext
        (fetchByte (s.onInst (Inst.raise s.cycle)) s.inst.h.cursor.toNat)).goTo .holdHigh := by
  simp only [raiseAndAdvance, State.onInst_inst, advance_inst]
  rfl

/-- The grant of a slot, seen from the instance that gets it (R252). -/
theorem grantSlot_inst (s : State) (rest : List (Fin 15)) (j : Fin 15) :
    (grantSlot (s.setArb rest) j).inst = s.inst.enterWait j s.cycle := by
  show (State.onInst _ _).inst = _
  rw [State.onInst_inst]
  rfl

/-- A slot that is not about to be granted and that the acting instance does not wait on stays as it is
(R278). -/
theorem seqStep_slot_kept {s t : State} {j : Fin 15} (h : seqStep s = .next t)
    (harb : j ∉ s.arb)
    (hw : s.inst.phase = .hwWait → s.inst.h.hwJ ≠ j) : t.slotAt j = s.slotAt j := by
  unfold seqStep at h
  split at h
  · injection h with h
    exact h ▸ rfl
  · obtain ⟨f, hf⟩ := decodeStep_eq s
    rw [hf] at h
    injection h with h
    exact h ▸ rfl
  · injection h with h
    subst h
    unfold gateStep startAttempt
    split
    · split
      · unfold hwStart
        split
        · rfl
        · split
          · rfl
          · rename_i l rest hl
            have hne : j ≠ l := by
              rintro rfl
              exact harb (by change s.arb = _ at hl; simp [hl])
            exact (State.slotAt_setSlotAt _ l j _).trans (if_neg hne)
      · exact (swStart_only _).slotAt j
    · rfl
  · injection h with h
    exact h ▸ (awaitSlotStep_only s).slotAt j
  · injection h with h
    exact h ▸ (holdHighStep_only s).slotAt j
  · injection h with h
    exact h ▸ (finalLowStep_only s).slotAt j
  · rename_i hp
    injection h with h
    subst h
    have hne : j ≠ s.inst.h.hwJ := (hw hp).symm
    unfold hwWaitStep
    split
    · exact (State.slotAt_setSlotAt s _ j _).trans (if_neg hne)
    · split
      · exact (State.slotAt_setSlotAt (s.stop _) _ j _).trans (if_neg hne)
      · rfl

end Sys2Proof.Machine
end

