-- ==== Sys2Proof/Laws/Invariant.lean ====
section
/-! SUPPORT. The invariant of Safety.lean, piece by piece: every named action on an instance keeps the
instance well kept, the host phase establishes the invariant of a turn, and every sequencer step keeps
it. -/

namespace Sys2Proof.Machine

/-! ## One instance -/

/-- The part of `Inst.Ok` that no phase and no data line enters. -/
structure Inst.Core (p : Params) (x : Inst) : Prop where
  ctrl : x.ctrl.Ok p
  prof : x.status.profileValid = true → x.prof.Ok
  hwProf : x.status.hwProfileValid = true → x.status.profileValid = true ∧ p.hasPulsegen = true
  attempts : x.status.attempts = x.h.attempts
  pins : p.hasDebugPins = false → x.pins.dbgStart = false ∧ x.pins.dbgAbort = false

theorem Inst.ok_iff (p : Params) (x : Inst) :
    x.Ok p ↔ x.Core p ∧ (x.status.busy = true ↔ x.phase ≠ .idle) ∧
      (x.pins.dout = true ↔ x.phase = .holdHigh) ∧ x.PhaseOk :=
  ⟨fun ⟨a, b, c, d, e, f, g, h⟩ => ⟨⟨b, c, d, f, g⟩, a, e, h⟩,
   fun ⟨⟨b, c, d, f, g⟩, a, e, h⟩ => ⟨a, b, c, d, e, f, g, h⟩⟩

theorem Inst.Ok.core {p : Params} {x : Inst} (h : x.Ok p) : x.Core p := ((Inst.ok_iff p x).mp h).1

theorem Inst.Ok.phaseOk {p : Params} {x : Inst} (h : x.Ok p) : x.PhaseOk :=
  ((Inst.ok_iff p x).mp h).2.2.2

theorem Inst.Ok.busy {p : Params} {x : Inst} (h : x.Ok p) (hp : x.phase ≠ .idle) :
    x.status.busy = true := h.1.mpr hp

theorem Inst.Ok.idle {p : Params} {x : Inst} (h : x.Ok p) (hb : x.status.busy = false) :
    x.phase = .idle := by
  by_contra e
  have := h.1.mpr e
  simp [hb] at this

theorem Inst.Ok.low {p : Params} {x : Inst} (h : x.Ok p) (hp : x.phase ≠ .holdHigh) :
    x.pins.dout = false := by
  have := ((Inst.ok_iff p x).mp h).2.2.1
  cases e : x.pins.dout
  · rfl
  · exact absurd (this.mp e) hp

theorem Inst.Core.congr {p : Params} {x y : Inst} (h : x.Core p) (hc : y.ctrl = x.ctrl)
    (hs : y.status = x.status) (hp : y.prof = x.prof) (ha : y.h.attempts = x.h.attempts)
    (h1 : y.pins.dbgStart = x.pins.dbgStart) (h2 : y.pins.dbgAbort = x.pins.dbgAbort) :
    y.Core p :=
  ⟨hc ▸ h.ctrl, by rw [hs, hp]; exact h.prof, by rw [hs]; exact h.hwProf,
   by rw [hs, ha]; exact h.attempts, by rw [h1, h2]; exact h.pins⟩

theorem Inst.Running.congr {x y : Inst} (h : x.Running)
    (hs : y.status.profileValid = x.status.profileValid)
    (hs' : y.status.hwProfileValid = x.status.hwProfileValid) (hc : y.ctrl = x.ctrl)
    (h1 : y.h.cmdword = x.h.cmdword) (h2 : y.h.src = x.h.src) (h3 : y.h.len = x.h.len)
    (h4 : y.h.null = x.h.null) (h5 : y.h.bright = x.h.bright)
    (h6 : y.pins.doutOe = x.pins.doutOe) : y.Running := by
  unfold Inst.Running Inst.noProfile at *
  rw [hs, hs', hc, h1, h2, h3, h4, h5, h6]
  exact h

theorem Inst.Core.finish {p : Params} {x : Inst} (h : x.Core p) (hd : x.pins.dout = false)
    (ok : Bool) (c : ErrCode) : (x.finish ok c).Ok p := by
  rw [Inst.ok_iff]
  exact ⟨⟨h.ctrl, h.prof, h.hwProf, h.attempts, h.pins⟩, by simp [Inst.finish],
    by simp [Inst.finish, hd], by simp [Inst.PhaseOk, Inst.finish]⟩

theorem Inst.Core.debug {p : Params} {x y : Inst} (h : x.Core p) (o : OnlyDebugPins x y)
    (hp : p.hasDebugPins = false → y.pins.dbgStart = x.pins.dbgStart ∧
      y.pins.dbgAbort = x.pins.dbgAbort) : y.Core p :=
  ⟨o.ctrl ▸ h.ctrl, by rw [o.status, o.prof]; exact h.prof, by rw [o.status]; exact h.hwProf,
   by rw [o.status, o.h]; exact h.attempts,
   fun e => by rw [(hp e).1, (hp e).2]; exact h.pins e⟩

/-- Without debug pins DBG_EN is 0 (R42), so nothing toggles (R402). -/
theorem Inst.Core.dbgOff {p : Params} {x : Inst} (h : x.Core p) (e : p.hasDebugPins = false) :
    x.ctrl.dbgEn = false := by
  cases hd : x.ctrl.dbgEn
  · rfl
  · have := h.ctrl.2.2.1 hd
    simp [e] at this

theorem Inst.Core.toggleStart {p : Params} {x : Inst} (h : x.Core p) : x.toggleStart.Core p :=
  h.debug (toggleStart_only x) (fun e => by simp [Inst.toggleStart, h.dbgOff e])

theorem Inst.Core.toggleAbort {p : Params} {x : Inst} (h : x.Core p) : x.toggleAbort.Core p :=
  h.debug (toggleAbort_only x) (fun e => by simp [Inst.toggleAbort, h.dbgOff e])

/-! ### Host moves -/

theorem Inst.Ok.afterRead {p : Params} {x : Inst} (h : x.Ok p) (now : Time) (off : BitVec 8) :
    (x.afterRead now off).Ok p := by
  unfold Inst.afterRead
  split <;> exact h

theorem ctrlLegalised_ok (p : Params) (old : Ctrl) (w : Word)
    (h : (ctrlLegalised p old w).budgetInvalid = false) : (ctrlLegalised p old w).Ok p := by
  refine ⟨by simp [ctrlLegalised], by simp [ctrlLegalised], by simp [ctrlLegalised], fun hi => ?_⟩
  simpa [Ctrl.budgetInvalid, hi] using h

theorem Inst.Ok.writeReg {p : Params} {x : Inst} (h : x.Ok p) (r : Reg) (w : Word) :
    (x.writeReg p r w).Ok p := by
  have hl (hi : x.phase = .idle) : x.pins.dout = false := h.low (by simp [hi])
  unfold Inst.writeReg
  split
  · exact h
  · split
    · split
      · exact h
      · rename_i e
        have hi := h.idle (by simpa using e)
        rw [Inst.ok_iff]
        exact ⟨⟨h.core.ctrl, h.core.prof, h.core.hwProf, h.core.attempts, h.core.pins⟩,
          by simp [Inst.acceptCmd], by simp [Inst.acceptCmd, hl hi],
          by simp [Inst.PhaseOk, Inst.acceptCmd]⟩
    · split
      · split
        · exact h
        · rename_i e
          have hi := h.idle (by simpa using e)
          unfold Inst.writeCtrl
          split
          · exact h
          · rename_i hv
            rw [Inst.ok_iff] at h ⊢
            exact ⟨⟨ctrlLegalised_ok p _ w (by simpa using hv), h.1.prof, h.1.hwProf, h.1.attempts,
              h.1.pins⟩, h.2.1, h.2.2.1, by simp [Inst.PhaseOk, hi]⟩
      · split
        · split
          · exact h
          · rename_i e
            have hi := h.idle (by simpa using e)
            rw [Inst.ok_iff] at h ⊢
            exact ⟨h.1.congr rfl rfl rfl rfl rfl rfl, h.2.1, h.2.2.1, by simp [Inst.PhaseOk, hi]⟩
        · exact h

theorem Inst.Ok.busWrite {p : Params} {x : Inst} (h : x.Ok p) (off : BitVec 8) (z : AccessSize)
    (w : Word) : (x.busWrite p off z w).Ok p := by
  unfold Inst.busWrite
  split
  · exact h
  · split
    · exact h
    · exact h.writeReg _ _

theorem Inst.Ok.hostMove {rst : Bool} {p : Params} {now : Time} {x y : Inst} (h : x.Ok p)
    (m : HostMove rst p now x y) : y.Ok p := by
  rcases m with rfl | ⟨-, off, rfl⟩ | ⟨-, off, z, w, rfl⟩
  · exact h
  · exact h.afterRead _ _
  · exact h.busWrite _ _ _

/-- What a host access to a busy instance leaves alone: all but IRQ_PEND, WR_IGNORED and the CYCLE
latch (R44, R45, R56, R59). -/
structure OnlyAck (x y : Inst) : Prop where
  ctrl : y.ctrl = x.ctrl
  cfg : y.cfg = x.cfg
  prof : y.prof = x.prof
  stats : y.stats = x.stats
  phase : y.phase = x.phase
  h : y.h = x.h
  pins : y.pins = x.pins
  busy : y.status.busy = x.status.busy
  lastOk : y.status.lastOk = x.status.lastOk
  profileValid : y.status.profileValid = x.status.profileValid
  hwProfileValid : y.status.hwProfileValid = x.status.hwProfileValid
  err : y.status.err = x.status.err
  attempts : y.status.attempts = x.status.attempts
  hwChan : y.status.hwChan = x.status.hwChan

theorem OnlyAck.refl (x : Inst) : OnlyAck x x := by constructor <;> rfl

theorem afterRead_ack (x : Inst) (now : Time) (off : BitVec 8) : OnlyAck x (x.afterRead now off) := by
  unfold Inst.afterRead
  split <;> constructor <;> rfl

theorem markIgnored_ack (x : Inst) : OnlyAck x x.markIgnored := by constructor <;> rfl

theorem writeReg_ack (p : Params) (x : Inst) (r : Reg) (w : Word) (h : x.status.busy = true) :
    OnlyAck x (x.writeReg p r w) := by
  unfold Inst.writeReg
  simp only [h, if_true]
  split
  · constructor <;> rfl
  · split
    · exact markIgnored_ack x
    · split
      · exact markIgnored_ack x
      · split
        · exact markIgnored_ack x
        · exact .refl x

/-- The host changes nothing of a running command. -/
theorem hostMove_ack {rst : Bool} {p : Params} {now : Time} {x y : Inst}
    (m : HostMove rst p now x y) (h : x.status.busy = true) : OnlyAck x y := by
  rcases m with rfl | ⟨-, off, rfl⟩ | ⟨-, off, z, w, rfl⟩
  · exact .refl _
  · exact afterRead_ack _ _ _
  · unfold Inst.busWrite
    split
    · exact markIgnored_ack x
    · split
      · exact .refl x
      · exact writeReg_ack p x _ _ h

/-- The host never puts an instance into HW_WAIT. -/
theorem hostMove_wait {rst : Bool} {p : Params} {now : Time} {x y : Inst}
    (m : HostMove rst p now x y) (hx : x.Ok p) (hy : y.phase = .hwWait) : OnlyAck x y := by
  by_cases hb : x.status.busy = true
  · exact hostMove_ack m hb
  · exfalso
    have hb' : x.status.busy = false := by simpa using hb
    have hi := hx.idle hb'
    rcases m with rfl | ⟨-, off, rfl⟩ | ⟨-, off, z, w, rfl⟩
    · simp [hi] at hy
    · rw [(afterRead_ack _ _ _).phase, hi] at hy
      cases hy
    · unfold Inst.busWrite at hy
      split at hy
      · simp [Inst.markIgnored, hi] at hy
      · split at hy
        · simp [hi] at hy
        · unfold Inst.writeReg at hy
          simp only [hb'] at hy
          split at hy
          · simp [Inst.writeStatus, hi] at hy
          · split at hy
            · simp [Inst.acceptCmd] at hy
            · split at hy
              · simp only [Bool.false_eq_true, if_false] at hy
                unfold Inst.writeCtrl at hy
                split at hy <;> simp [hi] at hy
              · split at hy <;> simp [hi] at hy

/-! ### The end of an attempt -/

theorem Inst.Core.enterGate {p : Params} {x : Inst} (h : x.Core p) (hb : x.status.busy = true)
    (hd : x.pins.dout = false) (hr : x.Running) (t : Time) (d : Word) : (x.enterGate t d).Ok p := by
  rw [Inst.ok_iff]
  exact ⟨h.congr rfl rfl rfl rfl rfl rfl, by simp [Inst.enterGate, hb], by simp [Inst.enterGate, hd],
    hr.congr rfl rfl rfl rfl rfl rfl rfl rfl rfl⟩

theorem Inst.Core.showAfterFail {p : Params} {x : Inst} (h : x.Core p) (hb : x.status.busy = true)
    (hd : x.pins.dout = false) (hr : x.Running) (t : Time) : (x.showAfterFail t).Ok p := by
  unfold Inst.showAfterFail
  split
  · exact h.finish hd _ _
  · exact Inst.Core.enterGate (x := x.spendRetry) (h.congr rfl rfl rfl rfl rfl rfl) hb hd
      (hr.congr rfl rfl rfl rfl rfl rfl rfl rfl rfl) _ _

theorem Inst.Core.forceClearAfterFail {p : Params} {x : Inst} (h : x.Core p)
    (hb : x.status.busy = true) (hd : x.pins.dout = false) (hr : x.Running) (t : Time) :
    (x.forceClearAfterFail t).Ok p := by
  unfold Inst.forceClearAfterFail
  split
  · exact h.finish hd _ _
  · exact Inst.Core.enterGate (x := x.spendRetry) (h.congr rfl rfl rfl rfl rfl rfl) hb hd
      (hr.congr rfl rfl rfl rfl rfl rfl rfl rfl rfl) _ _

theorem Inst.Core.endAttempt {p : Params} {x : Inst} (h : x.Core p) (hb : x.status.busy = true)
    (hd : x.pins.dout = false) (hr : x.Running) (ok : Bool) (c : ErrCode) (t : Time) :
    (x.endAttempt ok c t).Ok p := by
  have n := noteEnd_only x ok t
  have hn : (x.noteEnd ok t).Core p :=
    h.congr n.ctrl n.status n.prof (by rw [n.h]) (by rw [n.pins]) (by rw [n.pins])
  cases ok
  · have e := noteError_only (x.noteEnd false t) c
    have he : ((x.noteEnd false t).noteError c).Core p :=
      Inst.Core.toggleAbort (x := { x.noteEnd false t with h := { (x.noteEnd false t).h with err := c } })
        (hn.congr rfl rfl rfl rfl rfl rfl)
    have hb' : ((x.noteEnd false t).noteError c).status.busy = true := by
      rw [e.status]; simpa [n.status] using hb
    have hd' : ((x.noteEnd false t).noteError c).pins.dout = false := by
      rw [e.dout]; simpa [n.pins] using hd
    have hr' : ((x.noteEnd false t).noteError c).Running := by
      apply hr.congr <;>
        simp [e.status, e.ctrl, e.h, e.doutOe, n.status, n.ctrl, n.h, n.pins]
    unfold Inst.endAttempt
    simp only [Bool.false_eq_true, if_false]
    split
    · exact he.showAfterFail hb' hd' hr' t
    · exact he.forceClearAfterFail hb' hd' hr' t
  · exact hn.finish (by rw [n.pins]; exact hd) _ _

/-! ### The commands -/

theorem freqHz_lt (f : Word) : freqHz f < 2 ^ 40 := by
  unfold freqHz
  have := f.isLt
  split <;> omega

theorem sat32_toNat {v : Nat} (h : v < 2 ^ 32) : (sat32 v).toNat = v := by
  unfold sat32
  simp
  omega

theorem profileOf_ok (p : Params) (g : Settings) (h : g.validSw = true) : (profileOf p g).Ok := by
  simp only [Settings.validSw, Settings.nsOrdered, Settings.cyclesOrdered, Settings.cyclesFit,
    Bool.and_eq_true, decide_eq_true_eq] at h
  obtain ⟨⟨-, ⟨⟨⟨b1, b2⟩, b3⟩, b4⟩, b5⟩, ⟨⟨⟨c1, c2⟩, c3⟩, c4⟩, c5⟩ := h
  simp only [Profile.Ok, profileOf, sat32_toNat c1, sat32_toNat c2, sat32_toNat c3, sat32_toNat c4,
    sat32_toNat c5]
  refine ⟨b1, b2, b3, b4, b5, ?_⟩
  have := freqHz_lt g.clkFreq
  have h0 : freqHz g.clkFreq ≠ 0 := by
    intro e
    simp [Settings.cyc, conv, e] at b1
  simp [BitVec.toNat_ofNat]
  omega

theorem Inst.Core.loadProfile {p : Params} {x : Inst} (h : x.Core p) (hd : x.pins.dout = false) :
    (x.loadProfile p).Ok p := by
  have hc : (x.writeProfile p).Core p := by
    refine ⟨h.ctrl, profileOf_ok p _, fun hv => ?_, h.attempts, h.pins⟩
    simp only [Inst.writeProfile, validHw, Bool.and_eq_true] at hv ⊢
    exact ⟨hv.1.1.1.1.2, hv.1.1.1.1.1⟩
  unfold Inst.loadProfile
  split
  · exact hc.finish hd _ _
  · exact hc.finish hd _ _

theorem Inst.Core.showDecode {p : Params} {x : Inst} (b : Byte) (h : x.Core p)
    (hb : x.status.busy = true) (hd : x.pins.dout = false)
    (ho : x.h.cmdword.extractLsb' 0 8 = 0x02) : (x.showDecode b).Ok p := by
  unfold Inst.showDecode
  split
  · exact h.finish hd _ _
  · rename_i hn
    split
    · exact h.finish hd _ _
    · rename_i hl
      rw [Inst.ok_iff]
      refine ⟨⟨h.ctrl, h.prof, h.hwProf, rfl, h.pins⟩, by simp [Inst.captureShow, hb],
        by simp [Inst.captureShow, hd], ?_⟩
      simp only [Inst.badLength, rangeTooLong, Bool.or_eq_true, Bool.and_eq_true,
        decide_eq_true_eq, not_or, not_and, Nat.not_lt, Decidable.not_not, gt_iff_lt] at hl
      refine ⟨by simpa [Inst.noProfile, Inst.captureShow] using hn, .inl ho, hl.2,
        fun _ hr => hl.1 hr, by simp [Inst.captureShow], fun e => ?_⟩
      exact absurd (ho.symm.trans e) (by decide)

theorem Inst.Core.forceClear {p : Params} {x : Inst} (n : Nat) (t : Time) (h : x.Core p)
    (hb : x.status.busy = true) : x.h.cmdword.extractLsb' 0 8 = 0x03 → (x.forceClear p n t).Ok p := by
  intro ho
  have hd : x.driveLow.Core p := h.congr rfl rfl rfl rfl rfl rfl
  unfold Inst.forceClear
  split
  · exact hd.finish rfl _ _
  · rename_i hn
    rw [Inst.ok_iff]
    refine ⟨⟨h.ctrl, h.prof, h.hwProf, rfl, h.pins⟩, by simp [Inst.captureClear, Inst.driveLow, hb],
      by simp [Inst.captureClear, Inst.driveLow], ?_⟩
    refine ⟨by simpa [Inst.noProfile, Inst.captureClear, Inst.driveLow] using hn, .inr ho, ?_,
      by simp [Inst.captureClear], by simp [Inst.captureClear],
      by simp [Inst.captureClear, Inst.driveLow]⟩
    simp [Inst.captureClear]
    omega

/-! ### The bit loop -/

theorem OneHot.shift {m : Byte} (h : OneHot m) : m >>> 1 ≠ 0 → OneHot (m >>> 1) := by
  rcases h with rfl | rfl | rfl | rfl | rfl | rfl | rfl | rfl <;> simp [OneHot]

theorem Inst.Core.holdHigh {p : Params} {y : Inst} (hc : y.Core p) (hp : y.phase = .holdHigh)
    (hb : y.status.busy = true) (hd : y.pins.dout = true) (hr : y.Running)
    (hk : y.ctrl.backend = false) (hf : y.InFrame)
    (hm : (y.h.eof = false ∧ OneHot y.h.mask) ∨ (y.h.eof = true ∧ y.h.mask = 0)) : y.Ok p := by
  rw [Inst.ok_iff, Inst.PhaseOk, hp]
  exact ⟨hc, by simp [hb], by simp [hd], hr, hk, hf, hm⟩

/-- A bit raised and the mask advanced, whatever byte is loaded (R222, R223). -/
theorem Inst.Ok.raised {p : Params} {x : Inst} (h : x.Ok p) (hp : x.phase = .awaitSlot) (c : Time)
    (b : Byte) :
    ((if x.h.mask >>> 1 ≠ 0 then (x.raise c).shiftMask
      else if x.h.cursor = x.h.len then (x.raise c).shiftMask.markEof
      else (x.raise c).loadNext b).goTo .holdHigh).Ok p := by
  have hP := h.phaseOk
  simp only [Inst.PhaseOk, hp] at hP
  obtain ⟨hr, hk, hf, he, hm⟩ := hP
  have hb := h.busy (by simp [hp])
  have hc := h.core
  have hr' (y : Inst) (hs : y.status = x.status) (hc : y.ctrl = x.ctrl)
      (h1 : y.h.cmdword = x.h.cmdword) (h2 : y.h.src = x.h.src) (h3 : y.h.len = x.h.len)
      (h4 : y.h.null = x.h.null) (h5 : y.h.bright = x.h.bright)
      (h6 : y.pins.doutOe = x.pins.doutOe) : y.Running :=
    hr.congr (by rw [hs]) (by rw [hs]) hc h1 h2 h3 h4 h5 h6
  split
  · rename_i hne
    exact Inst.Core.holdHigh (hc.congr rfl rfl rfl rfl rfl rfl) rfl hb rfl
      (hr' _ rfl rfl rfl rfl rfl rfl rfl rfl) hk hf (.inl ⟨he, hm.shift hne⟩)
  · rename_i hz
    split
    · simp only [Inst.goTo, Inst.markEof, Inst.shiftMask, Inst.raise]
      exact Inst.Core.holdHigh (hc.congr rfl rfl rfl rfl rfl rfl) rfl hb rfl
        (hr' _ rfl rfl rfl rfl rfl rfl rfl rfl) hk hf (.inr ⟨rfl, Classical.not_not.mp hz⟩)
    · rename_i hne
      refine Inst.Core.holdHigh (hc.congr rfl rfl rfl rfl rfl rfl) rfl hb rfl
        (hr' _ rfl rfl rfl rfl rfl rfl rfl rfl) hk ?_ (.inl ⟨he, .inl rfl⟩)
      have h2 : x.h.cursor.toNat ≠ x.h.len.toNat := fun e => hne (BitVec.eq_of_toNat_eq e)
      have h3 := x.h.len.isLt
      obtain ⟨h4, h5⟩ := hf
      have : (x.h.cursor + 1).toNat = x.h.cursor.toNat + 1 := by
        rw [BitVec.toNat_add]
        simp
        omega
      constructor
      · show 1 ≤ (x.h.cursor + 1).toNat
        omega
      · show (x.h.cursor + 1).toNat ≤ x.h.len.toNat
        omega

theorem Inst.Ok.lower {p : Params} {x : Inst} (h : x.Ok p) (hp : x.phase = .holdHigh) :
    x.lower.Ok p := by
  have hP := h.phaseOk
  simp only [Inst.PhaseOk, hp] at hP
  obtain ⟨hr, hk, hf, hm⟩ := hP
  have hb := h.busy (by simp [hp])
  have h1 : x.lower.Core p := h.core.congr rfl rfl rfl rfl rfl rfl
  have h2 : x.lower.Running := hr.congr rfl rfl rfl rfl rfl rfl rfl rfl rfl
  rw [Inst.ok_iff]
  rcases hm with ⟨he, hm⟩ | ⟨he, -⟩
  · have hq : x.lower.phase = .awaitSlot := by simp [Inst.lower, Inst.goTo, he]
    rw [Inst.PhaseOk, hq]
    exact ⟨h1, iff_of_true hb (by simp), by simp [Inst.lower, Inst.goTo, Inst.setPin], h2, hk, hf, he,
      hm⟩
  · have hq : x.lower.phase = .finalLow := by simp [Inst.lower, Inst.goTo, he]
    rw [Inst.PhaseOk, hq]
    exact ⟨h1, iff_of_true hb (by simp), by simp [Inst.lower, Inst.goTo, Inst.setPin], h2, hk, hf, he⟩

theorem Inst.Ok.abort {p : Params} {x : Inst} (h : x.Ok p) (hb : x.status.busy = true)
    (hr : x.Running) (c : Time) : (x.abort c).Ok p :=
  Inst.Core.endAttempt (x := x.setPin false) (h.core.congr rfl rfl rfl rfl rfl rfl) hb rfl
    (hr.congr rfl rfl rfl rfl rfl rfl rfl rfl rfl) false .overrun c

/-! ### The start of an attempt -/

/-- Counted and, with DBG_EN, the start trigger toggled (R304). -/
theorem Inst.Ok.started {p : Params} {x : Inst} (h : x.Ok p) (hp : x.phase = .gate) :
    x.countAttempt.toggleStart.Ok p ∧ x.countAttempt.toggleStart.phase = .gate := by
  have o := toggleStart_only x.countAttempt
  have hP := h.phaseOk
  simp only [Inst.PhaseOk, hp] at hP
  have hq : x.countAttempt.toggleStart.phase = .gate := o.phase.trans hp
  have hc : x.countAttempt.Core p := ⟨h.core.ctrl, h.core.prof, h.core.hwProf, rfl, h.core.pins⟩
  refine ⟨?_, hq⟩
  rw [Inst.ok_iff, Inst.PhaseOk, hq]
  refine ⟨hc.toggleStart, iff_of_true ?_ (by simp), ?_, ?_⟩
  · rw [o.status]
    exact h.busy (by simp [hp])
  · rw [o.dout]
    simpa [Inst.countAttempt] using h.low (by simp [hp])
  · apply hP.congr <;> simp [o.status, o.ctrl, o.h, o.doutOe] <;> rfl

theorem Inst.Ok.loadFirst {p : Params} {x : Inst} (h : x.Ok p) (hp : x.phase = .gate)
    (hk : x.ctrl.backend = false) (hl : x.h.len ≠ 0) (b : Byte) : (x.loadFirst b).Ok p := by
  have hP := h.phaseOk
  simp only [Inst.PhaseOk, hp] at hP
  rw [Inst.ok_iff, Inst.PhaseOk]
  refine ⟨h.core.congr rfl rfl rfl rfl rfl rfl,
    iff_of_true (h.busy (by simp [hp])) (by simp [Inst.loadFirst]),
    by simp [Inst.loadFirst, h.low (by simp [hp])],
    hP.congr rfl rfl rfl rfl rfl rfl rfl rfl rfl, hk, ?_, rfl, .inl rfl⟩
  have : x.h.len.toNat ≠ 0 := fun e => hl (BitVec.eq_of_toNat_eq (by simpa using e))
  constructor
  · show 1 ≤ (1 : Word).toNat
    decide
  · show (1 : Word).toNat ≤ x.h.len.toNat
    have : (1 : Word).toNat = 1 := rfl
    omega

theorem Inst.Ok.enterWait {p : Params} {x : Inst} (h : x.Ok p) (hp : x.phase = .gate)
    (hk : x.ctrl.backend = true) (hl : x.h.len ≠ 0) (j : Fin 15) (t : Time) :
    (x.enterWait j t).Ok p := by
  have hP := h.phaseOk
  simp only [Inst.PhaseOk, hp] at hP
  rw [Inst.ok_iff, Inst.PhaseOk]
  refine ⟨⟨h.core.ctrl, h.core.prof, h.core.hwProf, h.core.attempts, h.core.pins⟩,
    iff_of_true (h.busy (by simp [hp])) (by simp [Inst.enterWait]),
    by simp [Inst.enterWait, h.low (by simp [hp])],
    hP.congr rfl rfl rfl rfl rfl rfl rfl rfl rfl, hk, ?_⟩
  have : x.h.len.toNat ≠ 0 := fun e => hl (BitVec.eq_of_toNat_eq (by simpa using e))
  show 1 ≤ x.h.len.toNat
  omega

theorem Inst.reset_ok (p : Params) : Inst.reset.Ok p := by
  simp [Inst.Ok, Inst.reset, Status.reset, Ctrl.Ok, Ctrl.reset, Pins.reset, Hidden.reset,
    Inst.PhaseOk]

/-! ## Inside a cycle -/

/-- What holds between two sequencers' turns: the invariant, with the slots still to be granted free. -/
structure State.Turning (s : State) : Prop where
  legal : s.params.legal
  ok : ∀ k, (s.instAt k).Ok s.params
  outside : ∀ k : Fin 8, s.params.nInst ≤ k.val → s.instAt k = Inst.reset
  pool : s.PoolOk
  mem : Memory.wf s.mem = true
  arbNodup : s.arb.Nodup
  arbFree : ∀ j ∈ s.arb,
    s.params.hasPulsegen = true ∧ j.val < s.params.nCh ∧ (s.slotAt j).inUse = false

theorem State.Turning.focus {s : State} (h : s.Turning) (k : Fin 8) : (s.focus k).Turning :=
  ⟨h.legal, h.ok, h.outside, h.pool, h.mem, h.arbNodup, h.arbFree⟩

/-- The acting instance changes, waiting neither before nor after, and the pool does not. -/
theorem State.Turning.acting {s t : State} (h : s.Turning) (hk : s.cur.val < s.params.nInst)
    (o : OnlyActing s t) (hf : t.inst.Ok s.params) (h1 : s.inst.phase ≠ .hwWait)
    (h2 : t.inst.phase ≠ .hwWait) : t.Turning := by
  have hi := o.instAt
  have hs := o.slotAt
  refine ⟨o.params ▸ h.legal, fun k => ?_, fun k hk' => ?_, ⟨fun j hj => ?_, fun k hk' => ?_,
    fun j hj => ?_⟩, o.mem ▸ h.mem, o.arb ▸ h.arbNodup, fun j hj => ?_⟩
  · rw [hi, o.params]
    split
    · exact hf
    · exact h.ok k
  · rw [o.params] at hk'
    rw [hi, if_neg]
    · exact h.outside k hk'
    · rintro rfl
      omega
  · rw [hs] at hj
    have hu := h.pool.1 j hj
    have : (s.slotAt j).owner ≠ s.cur := by
      intro e
      rw [e] at hu
      exact h1 hu.2.2.1
    rw [hs, hi, if_neg this, o.params]
    exact hu
  · by_cases e : k = s.cur
    · rw [hi, if_pos e] at hk'
      exact absurd hk' h2
    · rw [hi, if_neg e] at hk' ⊢
      rw [hs]
      exact h.pool.2.1 k hk'
  · rw [hs] at hj ⊢
    exact h.pool.2.2 j hj
  · rw [o.arb] at hj
    rw [hs, o.params]
    exact h.arbFree j hj

theorem State.Turning.onInst {s : State} (h : s.Turning) (hk : s.cur.val < s.params.nInst)
    (f : Inst → Inst) (hf : (f s.inst).Ok s.params) (h1 : s.inst.phase ≠ .hwWait)
    (h2 : (f s.inst).phase ≠ .hwWait) : (s.onInst f).Turning :=
  h.acting hk (onInst_only s f) (by rwa [State.onInst_inst]) h1 (by rwa [State.onInst_inst])

theorem State.Turning.awaitSlot {s : State} (h : s.Turning) (hk : s.cur.val < s.params.nInst)
    (hp : s.inst.phase = .awaitSlot) : (awaitSlotStep s).Turning := by
  have hw : s.inst.phase ≠ .hwWait := by simp [hp]
  have hok : s.inst.Ok s.params := h.ok s.cur
  have hP := hok.phaseOk
  simp only [Inst.PhaseOk, hp] at hP
  have hra : (raiseAndAdvance s).Turning := by
    refine h.acting hk (raiseAndAdvance_only s) ?_ hw ?_
    · rw [raiseAndAdvance_inst]
      exact hok.raised hp _ _
    · simp [raiseAndAdvance, Inst.goTo]
  unfold awaitSlotStep
  split
  · exact hra
  · split
    · exact h.onInst hk _ (hok.abort (hok.busy (by simp [hp])) hP.1 _) hw (endAttempt_not_wait _ _ _ _)
    · split
      · exact hra
      · exact h

theorem State.Turning.holdHigh {s : State} (h : s.Turning) (hk : s.cur.val < s.params.nInst)
    (hp : s.inst.phase = .holdHigh) : (holdHighStep s).Turning := by
  have hw : s.inst.phase ≠ .hwWait := by simp [hp]
  have hok : s.inst.Ok s.params := h.ok s.cur
  have hP := hok.phaseOk
  simp only [Inst.PhaseOk, hp] at hP
  unfold holdHighStep
  split
  · exact h.onInst hk _ (hok.abort (hok.busy (by simp [hp])) hP.1 _) hw (endAttempt_not_wait _ _ _ _)
  · split
    · refine h.onInst hk _ (hok.lower hp) hw ?_
      simp only [Inst.lower, Inst.goTo]
      split <;> simp
    · exact h

theorem State.Turning.finalLow {s : State} (h : s.Turning) (hk : s.cur.val < s.params.nInst)
    (hp : s.inst.phase = .finalLow) : (finalLowStep s).Turning := by
  have hw : s.inst.phase ≠ .hwWait := by simp [hp]
  have hok : s.inst.Ok s.params := h.ok s.cur
  have hP := hok.phaseOk
  simp only [Inst.PhaseOk, hp] at hP
  unfold finalLowStep
  split
  · exact h.onInst hk _
      (hok.core.endAttempt (hok.busy (by simp [hp])) (hok.low (by simp [hp])) hP.1 _ _ _) hw
      (endAttempt_not_wait _ _ _ _)
  · exact h

theorem State.Turning.swStart {s : State} (h : s.Turning) (hk : s.cur.val < s.params.nInst)
    (hp : s.inst.phase = .gate) (hb : s.inst.ctrl.backend = false) : (swStart s).Turning := by
  have hok : s.inst.Ok s.params := h.ok s.cur
  have hP := hok.phaseOk
  simp only [Inst.PhaseOk, hp] at hP
  refine h.acting hk (swStart_only s) ?_ (by simp [hp]) ?_ <;> rw [swStart_inst] <;> split
  · exact hok.core.endAttempt (hok.busy (by simp [hp])) (hok.low (by simp [hp])) hP _ _ _
  · exact hok.loadFirst hp hb ‹_› _
  · exact endAttempt_not_wait _ _ _ _
  · simp [Inst.loadFirst]

/-- The grant of the first slot that remains (R252 to R255). -/
theorem State.Turning.grant {s : State} (h : s.Turning) (hk : s.cur.val < s.params.nInst)
    (hp : s.inst.phase = .gate) (hb : s.inst.ctrl.backend = true) (hl : s.inst.h.len ≠ 0)
    (j : Fin 15) (rest : List (Fin 15)) (ha : s.arb = j :: rest) :
    (grantSlot (s.setArb rest) j).Turning := by
  have hok : s.inst.Ok s.params := h.ok s.cur
  have hnd := h.arbNodup
  rw [ha, List.nodup_cons] at hnd
  obtain ⟨hgen, hlt, hfree⟩ := h.arbFree j (by simp [ha])
  have hi (k : Fin 8) : (grantSlot (s.setArb rest) j).instAt k =
      if k = s.cur then s.inst.enterWait j s.cycle else s.instAt k := State.onInst_instAt _ _ k
  have hs (l : Fin 15) : (grantSlot (s.setArb rest) j).slotAt l =
      if l = j then fillSlot s.cur s.inst else s.slotAt l :=
    State.slotAt_setSlotAt (s.setArb rest) j l _
  refine ⟨h.legal, fun k => ?_, fun k hk' => ?_, ⟨fun l hlu => ?_, fun k hk' => ?_,
    fun l hlu => ?_⟩, h.mem, hnd.2, fun l hlr => ?_⟩
  · rw [hi]
    split
    · exact hok.enterWait hp hb hl _ _
    · exact h.ok k
  · rw [hi, if_neg]
    · exact h.outside k hk'
    · rintro rfl
      exact absurd hk (Nat.not_lt.mpr hk')
  · rw [hs] at hlu ⊢
    by_cases e : l = j
    · subst e
      refine ⟨hgen, hlt, ?_, ?_, ?_⟩ <;> simp [hi, fillSlot, Inst.enterWait]
    · simp only [e, if_false] at hlu ⊢
      have hu := h.pool.1 l hlu
      have hne : (s.slotAt l).owner ≠ s.cur := by
        intro e'
        rw [e'] at hu
        have : s.inst.phase = .hwWait := hu.2.2.1
        simp [hp] at this
      rw [hi, if_neg hne]
      exact hu
  · rw [hi] at hk' ⊢
    by_cases e : k = s.cur
    · simp only [e, if_true]
      rw [hs]
      simp [Inst.enterWait, fillSlot]
    · simp only [e, if_false] at hk' ⊢
      have := h.pool.2.1 k hk'
      rw [hs, if_neg]
      · exact this
      · intro e'
        rw [e', hfree] at this
        simp at this
  · rw [hs] at hlu ⊢
    split
    · simp [*, fillSlot] at hlu
    · simp only [*, if_false] at hlu
      exact h.pool.2.2 l hlu
  · obtain ⟨a, b, c⟩ := h.arbFree l (by rw [ha]; exact List.mem_cons_of_mem _ hlr)
    refine ⟨a, b, ?_⟩
    rw [hs, if_neg]
    · exact c
    · rintro rfl
      exact hnd.1 hlr

theorem State.Turning.hwStart {s : State} (h : s.Turning) (hk : s.cur.val < s.params.nInst)
    (hp : s.inst.phase = .gate) (hb : s.inst.ctrl.backend = true) : (hwStart s).Turning := by
  have hw : s.inst.phase ≠ .hwWait := by simp [hp]
  have hok : s.inst.Ok s.params := h.ok s.cur
  have hP := hok.phaseOk
  simp only [Inst.PhaseOk, hp] at hP
  have he (ok : Bool) (c : ErrCode) : ((s.inst.setHwChan 0xF).endAttempt ok c s.cycle).Ok s.params :=
    Inst.Core.endAttempt (x := s.inst.setHwChan 0xF)
      ⟨hok.core.ctrl, hok.core.prof, hok.core.hwProf, hok.core.attempts, hok.core.pins⟩
      (hok.busy (by simp [hp])) (hok.low (by simp [hp]))
      (hP.congr rfl rfl rfl rfl rfl rfl rfl rfl rfl) _ _ _
  unfold Machine.hwStart
  split
  · exact h.onInst hk _ (he _ _) hw (endAttempt_not_wait _ _ _ _)
  · split
    · exact h.onInst hk _ (he _ _) hw (endAttempt_not_wait _ _ _ _)
    · exact h.grant hk hp hb ‹_› _ _ ‹_›

theorem State.Turning.gate {s : State} (h : s.Turning) (hk : s.cur.val < s.params.nInst)
    (hp : s.inst.phase = .gate) : (gateStep s).Turning := by
  have hok : s.inst.Ok s.params := h.ok s.cur
  obtain ⟨hok', hq⟩ := hok.started hp
  have hcb : s.inst.countAttempt.toggleStart.ctrl = s.inst.ctrl := (toggleStart_only _).ctrl
  have h' : (s.onInst (fun x => x.countAttempt.toggleStart)).Turning :=
    h.onInst hk _ hok' (by simp [hp]) (by simp [hq])
  unfold gateStep startAttempt
  split
  · split
    · rename_i hb
      exact h'.hwStart hk (by rw [State.onInst_inst]; exact hq)
        (by rw [State.onInst_inst, hcb]; exact hb)
    · rename_i hb
      exact h'.swStart hk (by rw [State.onInst_inst]; exact hq)
        (by rw [State.onInst_inst, hcb]; simpa using hb)
  · exact h

/-- The acting instance leaves HW_WAIT and its slot is released (R277). -/
theorem State.Turning.released {s t : State} (h : s.Turning) (hk : s.cur.val < s.params.nInst)
    (hp : s.inst.phase = .hwWait) (hpar : t.params = s.params) (hmem : t.mem = s.mem)
    (harb : t.arb = s.arb) (hi : ∀ k, t.instAt k = if k = s.cur then t.inst else s.instAt k)
    (hs : ∀ l, t.slotAt l = if l = s.inst.h.hwJ then Slot.reset else s.slotAt l)
    (hok : t.inst.Ok s.params) (hw : t.inst.phase ≠ .hwWait) : t.Turning := by
  obtain ⟨-, ho⟩ := h.pool.2.1 s.cur hp
  refine ⟨hpar ▸ h.legal, fun k => ?_, fun k hk' => ?_, ⟨fun l hlu => ?_, fun k hk' => ?_,
    fun l hlu => ?_⟩, hmem ▸ h.mem, harb ▸ h.arbNodup, fun l hlr => ?_⟩
  · rw [hi, hpar]
    split
    · exact hok
    · exact h.ok k
  · rw [hpar] at hk'
    rw [hi, if_neg]
    · exact h.outside k hk'
    · rintro rfl
      exact absurd hk (Nat.not_lt.mpr hk')
  · rw [hs] at hlu ⊢
    by_cases e : l = s.inst.h.hwJ
    · simp [e, Slot.reset] at hlu
    · simp only [e, if_false] at hlu ⊢
      have hu := h.pool.1 l hlu
      have hne : (s.slotAt l).owner ≠ s.cur := by
        intro e'
        rw [e'] at hu
        exact e hu.2.2.2.1.symm
      rw [hi, if_neg hne, hpar]
      exact hu
  · rw [hi] at hk' ⊢
    by_cases e : k = s.cur
    · simp only [e, if_true] at hk'
      exact absurd hk' hw
    · simp only [e, if_false] at hk' ⊢
      have := h.pool.2.1 k hk'
      rw [hs, if_neg]
      · exact this
      · intro e'
        rw [e'] at this
        exact e (this.2.symm.trans ho)
  · rw [hs] at hlu ⊢
    split
    · rfl
    · simp only [*, if_false] at hlu
      exact h.pool.2.2 l hlu
  · rw [harb] at hlr
    obtain ⟨a, b, c⟩ := h.arbFree l hlr
    refine ⟨hpar ▸ a, hpar ▸ b, ?_⟩
    rw [hs]
    split
    · rfl
    · exact c

theorem State.Turning.hwWait {s : State} (h : s.Turning) (hk : s.cur.val < s.params.nInst)
    (hp : s.inst.phase = .hwWait) : (hwWaitStep s).Turning := by
  have hok : s.inst.Ok s.params := h.ok s.cur
  have hP := hok.phaseOk
  simp only [Inst.PhaseOk, hp] at hP
  have he (ok : Bool) (c : ErrCode) : (s.inst.endAttempt ok c s.cycle).Ok s.params :=
    hok.core.endAttempt (hok.busy (by simp [hp])) (hok.low (by simp [hp])) hP.1 _ _ _
  unfold hwWaitStep
  split
  · refine h.released hk hp rfl rfl rfl (fun k => ?_) (fun l => State.slotAt_setSlotAt s _ l _)
      ?_ ?_ <;> rw [State.onInst_inst]
    · exact State.onInst_instAt _ _ k
    · exact he _ _
    · exact endAttempt_not_wait _ _ _ _
  · split
    · refine h.released hk hp rfl rfl rfl (fun k => ?_)
        (fun l => State.slotAt_setSlotAt (s.stop _) _ l _) ?_ ?_ <;> rw [State.onInst_inst]
      · exact State.onInst_instAt _ _ k
      · exact he _ _
      · exact endAttempt_not_wait _ _ _ _
    · exact h

theorem decode_showFrame {w : Word} {b : Nat} (h : decode w = .command (.showFrame b)) :
    w.extractLsb' 0 8 = 0x02 := by
  refine (opField_eq_iff w 2 (by decide)).mpr ?_
  rw [decode_by_value] at h
  by_contra hn
  rw [if_neg (fun e : _ ∧ _ => hn e.1)] at h
  split_ifs at h <;> simp at h

theorem decode_forceClear {w : Word} {n : Nat} (h : decode w = .command (.forceClear n)) :
    w.extractLsb' 0 8 = 0x03 := by
  refine (opField_eq_iff w 3 (by decide)).mpr ?_
  rw [decode_by_value] at h
  by_contra hn
  rw [if_neg hn] at h
  split_ifs at h <;> simp at h

theorem State.Turning.decode {s t : State} (h : s.Turning) (hk : s.cur.val < s.params.nInst)
    (hp : s.inst.phase = .decode) (ht : decodeStep s = .next t) : t.Turning := by
  have hw : s.inst.phase ≠ .hwWait := by simp [hp]
  have hok : s.inst.Ok s.params := h.ok s.cur
  have hc := hok.core
  have hb := hok.busy (by simp [hp])
  have hd := hok.low (by simp [hp])
  unfold decodeStep at ht
  split at ht
  · injection ht with ht
    subst ht
    exact h.onInst hk _ (hc.finish hd _ _) hw (by simp [Inst.finish])
  · rename_i i hdec
    cases i <;> injection ht with ht <;> subst ht
    case nop => exact h.onInst hk _ (hc.finish hd _ _) hw (by simp [Inst.finish])
    case loadProfile =>
      refine h.onInst hk _ (hc.loadProfile hd) hw ?_
      unfold Inst.loadProfile
      split <;> simp [Inst.finish]
    case showFrame b =>
      refine h.onInst hk _ (hc.showDecode _ hb hd (decode_showFrame hdec)) hw ?_
      unfold Inst.showDecode
      repeat' split
      all_goals simp [Inst.finish, Inst.captureShow]
    case forceClear n =>
      refine h.onInst hk _ (hc.forceClear _ _ hb (decode_forceClear hdec)) hw ?_
      unfold Inst.forceClear
      split <;> simp [Inst.finish, Inst.captureClear]
    case getStats =>
      exact h.onInst hk _ (Inst.Core.finish (x := s.inst.snapshotFps s.cycle)
        (hc.congr rfl rfl rfl rfl rfl rfl) hd _ _) hw (by simp [Inst.finish])
    case clearStats =>
      exact h.onInst hk _ (Inst.Core.finish (x := s.inst.restartEpoch s.cycle)
        (hc.congr rfl rfl rfl rfl rfl rfl) hd _ _) hw (by simp [Inst.finish])
    case beginLine =>
      exact h.onInst hk _ (Inst.Core.finish (x := s.inst.driveLow)
        (hc.congr rfl rfl rfl rfl rfl rfl) rfl _ _) hw (by simp [Inst.finish])

/-- Every sequencer's step keeps the invariant of a turn. -/
theorem State.Turning.seqStep {s t : State} (h : s.Turning) (hk : s.cur.val < s.params.nInst)
    (ht : seqStep s = .next t) : t.Turning := by
  unfold Machine.seqStep at ht
  split at ht
  · injection ht with ht
    exact ht ▸ h
  · exact h.decode hk ‹_› ht
  · injection ht with ht
    exact ht ▸ h.gate hk ‹_›
  · injection ht with ht
    exact ht ▸ h.awaitSlot hk ‹_›
  · injection ht with ht
    exact ht ▸ h.holdHigh hk ‹_›
  · injection ht with ht
    exact ht ▸ h.finalLow hk ‹_›
  · injection ht with ht
    exact ht ▸ h.hwWait hk ‹_›

/-- The host phase of a cycle that starts in the invariant establishes the invariant of a turn. -/
theorem State.Inv.hostPhase {s : State} (h : s.Inv) (e : Env) : (hostPhase s e).Turning := by
  obtain ⟨hl, hok, ho, ⟨hu, hw, hf⟩, hm, -⟩ := h
  have g := hostPhase_spec s e
  have hs (j : Fin 15) : (Machine.hostPhase s e).slotAt j = s.slotAt j := by
    simp [State.slotAt, g.pool]
  refine ⟨g.params ▸ hl, fun k => ?_, fun k hk => ?_, ⟨fun j hj => ?_, fun k hk => ?_,
    fun j hj => ?_⟩, ?_, ?_, fun j hj => ?_⟩
  · rw [g.params]
    exact (hok k).hostMove (g.insts k)
  · rw [g.params] at hk
    rw [g.outside k hk]
    exact ho k hk
  · rw [hs] at hj ⊢
    obtain ⟨a, b, c, d, e⟩ := hu j hj
    have m := hostMove_ack (g.insts (s.slotAt j).owner) ((hok _).busy (by rw [c]; simp))
    rw [m.phase, m.h, g.params]
    refine ⟨a, b, c, d, e.trans ?_⟩
    simp [fillSlot, m.h, m.ctrl, m.prof]
  · have m := hostMove_wait (g.insts k) (hok k) hk
    rw [m.h, hs]
    exact hw k (m.phase ▸ hk)
  · rw [hs] at hj ⊢
    exact hf j hj
  · rw [g.mem]
    exact Memory.wf_storeAll _ _ hm
  · rw [g.arb]
    exact List.Nodup.filter _ s.slots_nodup
  · rw [g.arb, State.mem_freeSlots] at hj
    rw [g.params, hs]
    exact ⟨hj.1.1, hj.1.2, hj.2⟩

end Sys2Proof.Machine
end

