-- ==== Sys2Proof/Laws/PerInstr.lean ====
section
/-! SUPPORT. Statements made once per command (LAWS.json): each command's word is a word of its own row
of the opcode map (30_encoding.md R133). -/

namespace Sys2Proof.Laws.MatchesRow

/-- The word under the row's mask is the row's match value (R133). -/
def Statement (i : Instr) : Prop := encode i &&& rowMask i = rowMatch i

theorem nop : Statement .nop := rfl

theorem loadProfile : Statement .loadProfile := rfl

theorem showFrame (b : Nat) : Statement (.showFrame b) :=
  have key : ∀ x : BitVec 8,
      ((0 : BitVec 16) ++ x ++ (0x02 : BitVec 8)) &&& 0xFFFF00FF = (0x00000002 : Word) := by decide
  key _

theorem forceClear (n : Nat) : Statement (.forceClear n) :=
  have key (x : BitVec 24) : (x ++ (0x03 : BitVec 8)) &&& 0x000000FF = (0x00000003 : Word) := by
    apply BitVec.eq_of_toNat_eq
    have h : (x ++ (0x03 : BitVec 8)).toNat = x.toNat * 256 + 3 := by
      rw [BitVec.toNat_append, ← Nat.shiftLeft_add_eq_or_of_lt (by decide), Nat.shiftLeft_eq]
      rfl
    have e := Nat.and_two_pow_sub_one_eq_mod (x.toNat * 256 + 3) 8
    rw [BitVec.toNat_and, h]
    exact e.trans (by simp)
  key _

theorem getStats : Statement .getStats := rfl

theorem clearStats : Statement .clearStats := rfl

theorem beginLine : Statement .beginLine := rfl

end Sys2Proof.Laws.MatchesRow
end

