-- ==== Sys2Proof/Laws/Service.lean ====
section
/-! SUPPORT. The translate service and the channels in a cycle, channel by channel (42_hw_pulsegen.md
R266, R281). -/

namespace Sys2Proof.Machine

/-- What a channel's pull in this cycle asks for, in the contract's words (R281 item 2). -/
theorem pullWanted_iff (p : Params) (c : Channel) (d : ChanDraw) (n : BitVec 16) :
    pullWanted p c d = some n ↔
      c.phase = .running ∧ d.pull = some n ∧ 8 ≤ n.toNat ∧ n.toNat ≤ p.pullMax := by
  unfold pullWanted
  split
  · rename_i m hc hd
    rw [hc, hd]
    split <;> rename_i hm
    · constructor
      · intro h
        injection h with h
        subst h
        exact ⟨rfl, rfl, hm⟩
      · rintro ⟨-, h, -⟩
        exact h
    · constructor
      · intro h
        cases h
      · rintro ⟨-, h, h2⟩
        injection h with h
        subst h
        exact absurd h2 hm
  · rename_i hne
    constructor
    · intro h
      cases h
    · rintro ⟨h1, h2, -⟩
      exact (hne n h1 h2).elim

/-- The answer to a pull names its channel. -/
theorem translateAnswer_chan (pool : Vector Slot 15) (s : State) (j : Fin 15) (a r : Word)
    (n : BitVec 16) : (translateAnswer pool s j a r n).chan = j := by
  unfold translateAnswer
  split
  · rfl
  · split <;> rfl

/-- The service reads nothing of the state's own pool: it is given the pool of the cycle's start. -/
theorem translateAnswer_withPool (pool q : Vector Slot 15) (s : State) (j : Fin 15) (a r : Word)
    (n : BitVec 16) :
    translateAnswer pool { s with pool := q } j a r n = translateAnswer pool s j a r n := by
  have rd (r : Reader) (x : Slot) (u : State) (i : Nat) :
      slotFetchState r x { u with pool := q } i =
        { slotFetchState r x u i with pool := q } := by
    unfold slotFetchState memReadState
    split
    · rfl
    · show (if (u.byteKnown r _).isSome then _ else _) = _
      split <;> rfl
  have it (r : Reader) (x : Slot) (k i : Nat) (u : State) :
      translateItems r x k i { u with pool := q } = translateItems r x k i u := by
    induction k generalizing i u with
    | zero => rfl
    | succ k ih =>
      simp only [translateItems]
      rw [rd, ih]
      rfl
  unfold translateAnswer
  split
  · rfl
  · split
    · rfl
    · rw [it]

theorem servePull_pulls (sc : State) (e : Env) (i : Fin 15) (s : State) :
    (servePull sc e i s).ports.pulls = s.ports.pulls ++
      match pullWanted sc.params (sc.chanAt i) (chanDrawOf e i) with
      | none => []
      | some n => [translateAnswer sc.pool s i (sc.chanAt i).addr (sc.chanAt i).rem n] := by
  unfold servePull
  cases pullWanted sc.params (sc.chanAt i) (chanDrawOf e i) with
  | none => exact (List.append_nil _).symm
  | some n =>
    exact congrArg (· ++ _)
      (translateEffect_onlyReads sc.pool s i (sc.chanAt i).addr (sc.chanAt i).rem n).pulls

/-- The service answers the pulls of a list of channels without repeats, each once and from the state
its reads find. -/
theorem servePulls_pulls (sc : State) (e : Env) (l : List (Fin 15)) (hl : l.Nodup) (s : State)
    (j : Fin 15) :
    ∃ u, OnlyServes s u ∧
      (servePulls sc e l s).ports.pulls.filter (fun a => a.chan == j) =
        s.ports.pulls.filter (fun a => a.chan == j) ++
          if j ∈ l then
            match pullWanted sc.params (sc.chanAt j) (chanDrawOf e j) with
            | none => []
            | some n => [translateAnswer sc.pool u j (sc.chanAt j).addr (sc.chanAt j).rem n]
          else [] := by
  induction l generalizing s with
  | nil => exact ⟨s, .refl s, by simp [servePulls]⟩
  | cons i is ih =>
    obtain ⟨hi, his⟩ := List.nodup_cons.mp hl
    obtain ⟨u, hu, h⟩ := ih his (servePull sc e i s)
    have o := servePull_onlyServes sc e i s
    rw [servePulls, h, servePull_pulls, List.filter_append]
    by_cases e' : j = i
    · subst e'
      refine ⟨s, .refl s, ?_⟩
      rw [if_neg hi, if_pos (by simp), List.append_nil]
      congr 1
      cases pullWanted sc.params (sc.chanAt j) (chanDrawOf e j) with
      | none => rfl
      | some n => simp [translateAnswer_chan]
    · refine ⟨u, o.trans hu, ?_⟩
      have hf : (match pullWanted sc.params (sc.chanAt i) (chanDrawOf e i) with
          | none => []
          | some n => [translateAnswer sc.pool s i (sc.chanAt i).addr (sc.chanAt i).rem n]).filter
            (fun a : PullAnswer => a.chan == j) = [] := by
        cases pullWanted sc.params (sc.chanAt i) (chanDrawOf e i) with
        | none => rfl
        | some n => simpa [translateAnswer_chan] using Ne.symm e'
      rw [hf, List.append_nil]
      by_cases hj : j ∈ is
      · rw [if_pos hj, if_pos (by simp [hj])]
      · rw [if_neg hj, if_neg (by simp [hj, e'])]

theorem chanNext_congr (e : Env) {s t : State} {j : Fin 15} (h1 : t.chanAt j = s.chanAt j)
    (h2 : t.params = s.params) (h3 : t.ports = s.ports) : chanNext e t j = chanNext e s j := by
  unfold chanNext chanCycle
  rw [h1, h2, h3]

/-- The channels of a list without repeats go through their cycles, each from the state all start
from. -/
theorem runChans_chanAt (e : Env) (l : List (Fin 15)) (hl : l.Nodup) (s : State) (j : Fin 15) :
    (runChans e l s).chanAt j = if j ∈ l then chanNext e s j else s.chanAt j := by
  induction l generalizing s with
  | nil => rfl
  | cons i is ih =>
    obtain ⟨hi, his⟩ := List.nodup_cons.mp hl
    rw [runChans, ih his]
    by_cases e' : j = i
    · subst e'
      rw [if_neg hi, if_pos (by simp)]
      simp [State.chanAt, State.setChanAt]
    · have hc : (s.setChanAt i (chanNext e s i)).chanAt j = s.chanAt j :=
        Vector.getElem_set_ne i.isLt j.isLt (fun q => e' (Fin.ext q).symm)
      by_cases hj : j ∈ is
      · rw [if_pos hj, if_pos (by simp [hj])]
        exact chanNext_congr e hc rfl rfl
      · rw [if_neg hj, if_neg (by simp [hj, e']), hc]

/-- Step (5) and the channels for one channel (R35, R266, R281). -/
theorem peripheralPhase_chan (sc : State) (e : Env) (s : State) (j : Fin 15) :
    (peripheralPhase sc e s).chanAt j =
        (if j ∈ sc.slots then
          chanNext e { s with ports := (peripheralPhase sc e s).ports } j
        else s.chanAt j) ∧
      ∃ u, OnlyServes s u ∧
        (peripheralPhase sc e s).ports.pulls.filter (fun a => a.chan == j) =
          s.ports.pulls.filter (fun a => a.chan == j) ++
            if j ∈ sc.slots then
              match pullWanted sc.params (sc.chanAt j) (chanDrawOf e j) with
              | none => []
              | some n => [translateAnswer sc.pool u j (sc.chanAt j).addr (sc.chanAt j).rem n]
            else [] := by
  have o := servePulls_onlyServes sc e sc.slots s
  have hports : (peripheralPhase sc e s).ports = (servePulls sc e sc.slots s).ports := by
    obtain ⟨v, hv⟩ := runChans_eq e sc.slots (servePulls sc e sc.slots s)
    unfold peripheralPhase
    rw [hv]
  refine ⟨?_, ?_⟩
  · unfold peripheralPhase at hports ⊢
    rw [runChans_chanAt e sc.slots sc.slots_nodup, hports]
    split
    · exact chanNext_congr e (o.chanAt j) o.params rfl
    · exact o.chanAt j
  · rw [hports]
    exact servePulls_pulls sc e sc.slots sc.slots_nodup s j

end Sys2Proof.Machine
end

