-- ==== Sys2Proof/Laws/Values.lean ====
section
/-! SUPPORT. The operand computations as numbers, and the register window by name. -/

namespace Sys2Proof.Machine

theorem sat32_min (v : Nat) : (sat32 v).toNat = min v 0xFFFFFFFF := by
  unfold sat32
  rw [BitVec.toNat_ofNat]
  exact Nat.mod_eq_of_lt (by omega)

/-- Elapsed time where the counter has not wrapped (R33). -/
theorem elapsed_of_le {c t : Time} (h : t.toNat ≤ c.toNat) : elapsed c t = c.toNat - t.toNat := by
  unfold elapsed
  rw [BitVec.toNat_sub]
  have := c.isLt
  have := t.isLt
  omega

theorem item_toNat (d0 d1 : BitVec 15) (l0 l1 : Bool) :
    (item d0 l0 d1 l1).toNat =
      d0.toNat + l0.toNat * 2 ^ 15 + d1.toNat * 2 ^ 16 + l1.toNat * 2 ^ 31 := by
  unfold item
  have h0 := d0.isLt
  have h1 := d1.isLt
  have hl : (BitVec.ofBool l0).toNat < 2 := (BitVec.ofBool l0).isLt
  rw [BitVec.toNat_append, ← Nat.shiftLeft_add_eq_or_of_lt h0, BitVec.toNat_append,
    ← Nat.shiftLeft_add_eq_or_of_lt hl, BitVec.toNat_append, ← Nat.shiftLeft_add_eq_or_of_lt h1]
  simp [Nat.shiftLeft_eq, BitVec.toNat_ofBool]
  omega

theorem Inst.ownedByShow_iff (x : Inst) : x.ownedByShow = true ↔ x.h.cmdword.toNat % 256 = 2 := by
  unfold Inst.ownedByShow
  rw [decide_eq_true_iff, BitVec.toNat_eq, BitVec.extractLsb'_toNat]
  simp

theorem Inst.overrun_iff (x : Inst) (c : Time) (d : Word) (h : x.h.tStart.toNat ≤ c.toNat) :
    x.overrun c d = true ↔
      x.ctrl.intTol = true ∧ c.toNat - x.h.tStart.toNat > d.toNat + x.cfg.slack.toNat := by
  unfold Inst.overrun
  rw [elapsed_of_le h, Bool.and_eq_true, decide_eq_true_iff]

theorem Order.perm_lt (o : Order) (k : Nat) : o.perm k < 3 := by
  cases o <;> simp only [Order.perm] <;> repeat' split
  all_goals omega

theorem Order.perm_inj (o : Order) {i j : Nat} (hi : i < 3) (hj : j < 3) (h : o.perm i = o.perm j) :
    i = j := by
  have : ∀ i < 3, ∀ j < 3, o.perm i = o.perm j → i = j := by cases o <;> decide
  exact this i hi j hj h

/-- The mask's bit of a byte: bit 7 − m after m shifts (R204, R223). -/
theorem mask_bit (v : Byte) (m : Fin 8) :
    (v &&& ((0x80 : Byte) >>> m.val) ≠ 0) ↔ v.getLsbD (7 - m.val) = true := by
  revert m v
  decide +kernel

/-- A further shift leaves a bit exactly before the byte's last one (R223). -/
theorem mask_shift (m : Fin 8) :
    (((0x80 : Byte) >>> m.val) >>> 1 ≠ 0 ↔ m.val < 7) ∧
      (m.val < 7 → ((0x80 : Byte) >>> m.val) >>> 1 = (0x80 : Byte) >>> (m.val + 1)) := by
  revert m
  decide

/-! ## The register window -/

theorem regAt_offset (r : Reg) : regAt r.offset = some r := by cases r <;> decide

/-- A whole write at a register's offset is a write of that register. -/
theorem busWrite_reg (p : Params) (x : Inst) (r : Reg) (w : Word) :
    x.busWrite p r.offset .word w = x.writeReg p r w := by
  unfold Inst.busWrite
  rw [if_neg, regAt_offset]
  cases r <;> decide

/-- A whole read at a register's offset reads that register. -/
theorem busRead_reg (now : Time) (x : Inst) (r : Reg) :
    busRead now x r.offset .word = readReg now x r := by
  unfold busRead
  rw [regAt_offset]
  rfl

/-- The ORDER field after a CTRL write (R43): 6 and 7 keep the old order. -/
theorem orderOf_getD (c : BitVec 3) (o : Order) :
    (c = 6 ∨ c = 7 → (Machine.orderOf c).getD o = o) ∧
      (c ≠ 6 → c ≠ 7 → ((Machine.orderOf c).getD o).code = c) := by
  revert c
  cases o <;> decide

/-- BUSY is bit 0 of STATUS (R44). -/
theorem statusWord_busy (st : Status) (ph : Phase) : (statusWord st ph).getLsbD 0 = st.busy := by
  unfold statusWord
  simp only [BitVec.getLsbD_append]
  simp

end Sys2Proof.Machine
end

