-- ==== Sys2Proof/Laws/Translate.lean ====
section
/-! SUPPORT. The translate service: which slot answers a pull, what its items are, and what it reads. -/

namespace Sys2Proof.Machine

theorem byteItems_length (bit0 bit1 : Word) (v : Byte) : (byteItems bit0 bit1 v).length = 8 := rfl

theorem byteItems_getElem? (bit0 bit1 : Word) (v : Byte) {m : Nat} (h : m < 8) :
    (byteItems bit0 bit1 v)[m]? = some (if v.getLsbD (7 - m) then bit1 else bit0) := by
  have : m = 0 ∨ m = 1 ∨ m = 2 ∨ m = 3 ∨ m = 4 ∨ m = 5 ∨ m = 6 ∨ m = 7 := by omega
  rcases this with rfl | rfl | rfl | rfl | rfl | rfl | rfl | rfl <;> rfl

theorem mem_allSlots (l : Fin 15) : l ∈ allSlots := by revert l; decide

theorem allSlots_sorted : allSlots.Pairwise (· < ·) := by decide

/-! ## Which slot answers -/

theorem Slot.holds_iff (q : Slot) (a : Word) :
    q.holds a = true ↔ q.inUse = true ∧ q.null = false ∧ q.srcLo.toNat ≤ a.toNat ∧
      a.toNat < q.srcHi.toNat := by
  simp [Slot.holds, and_assoc]

/-- A channel whose own slot has no source is answered by it (R269). -/
theorem pullSlot_null {s : State} {j : Fin 15} (a : Word) (h : (s.slotAt j).inUse = true)
    (hn : (s.slotAt j).null = true) : pullSlot s.pool j a = some j := by
  unfold State.slotAt at h hn
  simp [pullSlot, h, hn]

/-- Any other channel is answered by the lowest held slot that contains the address (R267, R272). -/
theorem pullSlot_eq_find {s : State} {j : Fin 15} (a : Word)
    (h : ¬ ((s.slotAt j).inUse = true ∧ (s.slotAt j).null = true)) :
    pullSlot s.pool j a = allSlots.find? (fun q => (s.slotAt q).holds a) := by
  unfold pullSlot
  rw [if_neg (by simpa [State.slotAt] using h)]
  rfl

theorem pullSlot_cases {s : State} {j q : Fin 15} {a : Word} (h : pullSlot s.pool j a = some q) :
    ((s.slotAt j).inUse = true ∧ (s.slotAt j).null = true ∧ q = j) ∨ (s.slotAt q).holds a = true := by
  by_cases hn : (s.slotAt j).inUse = true ∧ (s.slotAt j).null = true
  · rw [pullSlot_null a hn.1 hn.2] at h
    injection h with h
    exact .inl ⟨hn.1, hn.2, h.symm⟩
  · rw [pullSlot_eq_find a hn] at h
    exact .inr (List.find?_some (p := fun q => (s.slotAt q).holds a) h)

/-- No slot below the one found contains the address. -/
theorem find_holds_lowest {s : State} {q : Fin 15} {a : Word}
    (h : allSlots.find? (fun q => (s.slotAt q).holds a) = some q) (l : Fin 15) (hl : l < q) :
    (s.slotAt l).holds a = false := by
  rw [List.find?_eq_some_iff_append] at h
  obtain ⟨-, as, bs, hab, hall⟩ := h
  have hlm := mem_allSlots l
  have hs := allSlots_sorted
  rw [hab, List.pairwise_append] at hs
  rw [hab] at hlm
  rcases List.mem_append.mp hlm with e | e
  · simpa using hall l e
  · rcases List.mem_cons.mp e with e | e
    · omega
    · have := (List.pairwise_cons.mp hs.2.1).1 l e
      omega

/-! ## The answer -/

theorem translateAnswer_some {s : State} {j q : Fin 15} {a r : Word} (n : BitVec 16) (hr : r ≠ 0)
    (h : pullSlot s.pool j a = some q) :
    translateAnswer s.pool s j a r n =
      answerPull j a r n
        (translateItems (pullReader s.pool j q) (s.slotAt q)
            (pullBytes (s.slotAt q) a r.toNat n.toNat) ((s.slotAt q).firstIndex a r.toNat) s
          ++ padding r.toNat (pullBytes (s.slotAt q) a r.toNat n.toNat) n.toNat)
        (pullBytes (s.slotAt q) a r.toNat n.toNat) := by
  unfold translateAnswer
  rw [if_neg hr, h]
  rfl

theorem translateEffect_some {s : State} {j q : Fin 15} {a r : Word} (n : BitVec 16) (hr : r ≠ 0)
    (h : pullSlot s.pool j a = some q) :
    translateEffect s.pool s j a r n =
      translateState (pullReader s.pool j q) (s.slotAt q)
        (pullBytes (s.slotAt q) a r.toNat n.toNat) ((s.slotAt q).firstIndex a r.toNat) s := by
  unfold translateEffect
  rw [if_neg hr, h]
  rfl

theorem pullBytes_le (q : Slot) (a r : Word) (n : Nat) :
    pullBytes q a r.toNat n ≤ r.toNat ∧ 8 * pullBytes q a r.toNat n ≤ n ∧
      pullBytes q a r.toNat n ≤ q.room a r.toNat := by
  unfold pullBytes
  omega

/-- The bytes used fit the port, so the field holds their number. -/
theorem answerPull_used_toNat (q : Slot) (j : Fin 15) (a r : Word) (n : BitVec 16) (l : List Word) :
    (answerPull j a r n l (pullBytes q a r.toNat n.toNat)).used.toNat =
      pullBytes q a r.toNat n.toNat := by
  have h := (pullBytes_le q a r n.toNat).1
  have := r.isLt
  show (BitVec.ofNat 32 _).toNat = _
  rw [BitVec.toNat_ofNat, Nat.mod_eq_of_lt (by omega)]

theorem translateItems_length (r : Reader) (q : Slot) (k i : Nat) (s : State) :
    (translateItems r q k i s).length = 8 * k := by
  induction k generalizing i s with
  | zero => rfl
  | succ k ih =>
    simp only [translateItems, List.length_append, byteItems_length, ih]
    omega

/-- What the spec fixes of a read does not change by reading. -/
theorem OnlyServes.byteKnown {s t : State} (h : OnlyServes s t) (r : Reader) (a : Word) :
    t.byteKnown r a = s.byteKnown r a := by
  unfold State.byteKnown State.racedFor
  simp only [h.params, h.raced, h.mem, h.instAt]

/-- A byte of a pull: 0 for a slot that reads nothing, else the scaled byte of the source space as far
as the spec fixes it (R268). -/
def SlotByte (r : Reader) (q : Slot) (s : State) (i : Nat) (v : Byte) : Prop :=
  (q.silent = true → v = 0) ∧
    (q.silent = false → (∃ b, v = scale b q.bright) ∧
      ∀ b, s.byteKnown r (q.frameAddr i) = some b → v = scale b q.bright)

theorem slotFetchByte_spec (r : Reader) (q : Slot) (s : State) (i : Nat) :
    SlotByte r q s i (slotFetchByte r q s i) := by
  unfold slotFetchByte
  refine ⟨fun h => if_pos h, fun h => ?_⟩
  rw [if_neg (by simp [h])]
  exact ⟨⟨_, rfl⟩, fun b hb => by rw [memReadByte, hb]; rfl⟩

/-- The items of a pull: 8 for each byte, the templates of its bits (R267, R268). -/
theorem translateItems_spec (r : Reader) (q : Slot) (k i : Nat) (s : State) :
    ∃ v : Nat → Byte, ∀ t, t < k → SlotByte r q s (i + t) (v t) ∧ ∀ m, m < 8 →
      (translateItems r q k i s)[8 * t + m]? =
        some (if (v t).getLsbD (7 - m) then q.bit1 else q.bit0) := by
  induction k generalizing i s with
  | zero => exact ⟨fun _ => 0, fun t ht => absurd ht (Nat.not_lt_zero t)⟩
  | succ k ih =>
    obtain ⟨v, hv⟩ := ih (i + 1) (slotFetchState r q s i)
    refine ⟨fun t => if t = 0 then slotFetchByte r q s i else v (t - 1), fun t ht => ?_⟩
    cases t with
    | zero =>
      refine ⟨slotFetchByte_spec r q s i, fun m hm => ?_⟩
      rw [translateItems, List.getElem?_append_left (by rw [byteItems_length]; omega)]
      simpa using byteItems_getElem? q.bit0 q.bit1 _ hm
    | succ t =>
      obtain ⟨h1, h2⟩ := hv t (by omega)
      have o := slotFetchState_onlyReads r q s i
      refine ⟨?_, fun m hm => ?_⟩
      · unfold SlotByte at h1 ⊢
        rw [o.byteKnown, show i + 1 + t = i + (t + 1) by omega] at h1
        exact h1
      · rw [translateItems, List.getElem?_append_right (by rw [byteItems_length]; omega),
          byteItems_length, show 8 * (t + 1) + m - 8 = 8 * t + m by omega]
        exact h2 m hm

/-! ## The reads -/

/-- The reads of a pull, one for each byte in increasing index (R116, R268). -/
theorem translateState_reads (r : Reader) (q : Slot) (k i : Nat) (s : State) :
    (translateState r q k i s).ports.reads = s.ports.reads ++
      (if q.silent then [] else
        (List.range k).map (fun t => ({ reader := r, addr := q.frameAddr (i + t) } : MemRead))) := by
  induction k generalizing i s with
  | zero => simp [translateState]
  | succ k ih =>
    rw [translateState, ih]
    unfold slotFetchState
    split
    · rfl
    · have h : (memReadState s r (q.frameAddr i)).ports.reads =
          s.ports.reads ++ [{ reader := r, addr := q.frameAddr i }] := by
        unfold memReadState
        split <;> rfl
      rw [h, List.append_assoc, List.range_succ_eq_map]
      simp [Function.comp_def, Nat.add_assoc, Nat.add_comm 1]

/-- A slot that reads nothing leaves the machine alone. -/
theorem translateState_silent (r : Reader) (q : Slot) (h : q.silent = true) (k i : Nat) (s : State) :
    translateState r q k i s = s := by
  induction k generalizing i with
  | zero => rfl
  | succ k ih =>
    rw [translateState, show slotFetchState r q s i = s from if_pos h]
    exact ih (i + 1)

end Sys2Proof.Machine
end

