-- ==== Sys2Proof/Laws/Turn.lean ====
section
/-! SUPPORT. A cycle seen from one instance: what its host did, then its sequencer's step or none. -/

namespace Sys2Proof.Machine

/-- What the sequencers of a list, whichever they are, leave alone. -/
structure OnlyTurns (s t : State) : Prop where
  params : t.params = s.params
  cycle : t.cycle = s.cycle
  chans : t.chans = s.chans
  mem : t.mem = s.mem
  hosts : t.hosts = s.hosts
  env : t.env = s.env
  raced : t.raced = s.raced
  stores : t.ports.stores = s.ports.stores
  rdata : t.ports.rdata = s.ports.rdata
  pulls : t.ports.pulls = s.ports.pulls

theorem OnlyTurns.refl (s : State) : OnlyTurns s s := by constructor <;> rfl

theorem OnlyTurns.trans {s t u : State} (h : OnlyTurns s t) (g : OnlyTurns t u) : OnlyTurns s u :=
  ⟨g.params.trans h.params, g.cycle.trans h.cycle, g.chans.trans h.chans, g.mem.trans h.mem,
   g.hosts.trans h.hosts, g.env.trans h.env, g.raced.trans h.raced, g.stores.trans h.stores,
   g.rdata.trans h.rdata, g.pulls.trans h.pulls⟩

theorem seqStep_turn {s t : State} {k : Fin 8} (h : seqStep (s.focus k) = .next t) :
    OnlyTurns s t ∧ ∀ i, i ≠ k → t.instAt i = s.instAt i := by
  have o := seqStep_only h
  exact ⟨⟨o.params, o.cycle, o.chans, o.mem, o.hosts, o.env, o.raced, o.stores, o.rdata,
    o.pulls⟩, o.others⟩

theorem seqSteps_cons {k : Fin 8} {ks : List (Fin 8)} {s t : State}
    (h : seqSteps (k :: ks) s = .next t) :
    ∃ u, seqStep (s.focus k) = .next u ∧ seqSteps ks u = .next t := by
  obtain ⟨u, hu⟩ := seqStep_next (s.focus k)
  refine ⟨u, hu, ?_⟩
  simpa only [seqSteps, hu] using h

theorem seqSteps_only {l : List (Fin 8)} {s t : State} (h : seqSteps l s = .next t) :
    OnlyTurns s t ∧ ∀ i, i ∉ l → t.instAt i = s.instAt i := by
  induction l generalizing s with
  | nil =>
    injection h with h
    subst h
    exact ⟨.refl s, fun _ _ => rfl⟩
  | cons k ks ih =>
    obtain ⟨u, hu, ht⟩ := seqSteps_cons h
    obtain ⟨a, b⟩ := seqStep_turn hu
    obtain ⟨c, d⟩ := ih ht
    refine ⟨a.trans c, fun i hi => ?_⟩
    rw [List.mem_cons, not_or] at hi
    rw [d i hi.2, b i hi.1]

/-- The turn of one instance among the others': before it and after it the others leave it alone. -/
theorem seqSteps_turn {l : List (Fin 8)} (hl : l.Nodup) {k : Fin 8} (hk : k ∈ l) {s t : State}
    (h : seqSteps l s = .next t) :
    ∃ u v, OnlyTurns s u ∧ u.instAt k = s.instAt k ∧ seqStep (u.focus k) = .next v ∧
      t.instAt k = v.instAt k := by
  induction l generalizing s with
  | nil => cases hk
  | cons i is ih =>
    obtain ⟨hi, his⟩ := List.nodup_cons.mp hl
    obtain ⟨u, hu, ht⟩ := seqSteps_cons h
    obtain ⟨a, b⟩ := seqStep_turn hu
    by_cases e : k = i
    · subst e
      exact ⟨s, u, .refl s, rfl, hu, (seqSteps_only ht).2 k hi⟩
    · obtain ⟨p, q, c, d, f, g⟩ := ih his ((List.mem_cons.mp hk).resolve_left e) ht
      exact ⟨p, q, a.trans c, d.trans (b k e), f, g⟩

theorem State.movers_nodup (s : State) (e : Env) : (s.movers e).Nodup :=
  List.Nodup.filter _ s.ids_nodup

theorem State.mem_movers (s : State) (e : Env) (k : Fin 8) :
    k ∈ s.movers e ↔ k.val < s.params.nInst ∧ moves s e k = true := by
  simp [State.movers, State.mem_ids]

/-- One instance in a cycle with `rst_n` high: its host's move, then its sequencer's step if it takes
one. `u` is the machine at its turn; what the cycle started with and the hosts' part fix all of `u`
but the other instances, the pool, the draws and the ports. -/
theorem step_turn {s t : State} (h : step s = .next t) (hr : s.input.rstLow = false) (k : Fin 8) :
    ∃ u, OnlyTurns (hostPhase s s.input) u ∧
      HostMove false s.params s.cycle (s.instAt k) (u.instAt k) ∧
      (k.val < s.params.nInst ∧ moves s s.input k = true →
        ∃ v, seqStep (u.focus k) = .next v ∧ t.instAt k = v.instAt k) ∧
      (¬ (k.val < s.params.nInst ∧ moves s s.input k = true) → t.instAt k = u.instAt k) := by
  obtain ⟨-, ⟨h1, -⟩ | ⟨-, w, hw, rfl⟩⟩ := step_cases h
  · simp [h1] at hr
  · have m := (hostPhase_spec s s.input).insts k
    rw [hr] at m
    have hp : (closeCycle s (peripheralPhase s s.input w)).instAt k = w.instAt k :=
      (peripheralPhase_only s s.input w).instAt k
    rw [hp]
    by_cases hk : k ∈ s.movers s.input
    · obtain ⟨u, v, a, b, c, d⟩ := seqSteps_turn (s.movers_nodup _) hk hw
      refine ⟨u, a, b ▸ m, fun _ => ⟨v, c, d⟩, fun e => ?_⟩
      exact absurd ((s.mem_movers _ k).mp hk) e
    · refine ⟨hostPhase s s.input, .refl _, m, fun e => ?_, fun _ => (seqSteps_only hw).2 k hk⟩
      exact absurd ((s.mem_movers _ k).mpr e) hk

/-- A busy instance at its turn: what its host could change is IRQ_PEND, WR_IGNORED and the latch. -/
theorem step_turn_busy {s t : State} (h : step s = .next t) (hr : s.input.rstLow = false) (k : Fin 8)
    (hb : (s.instAt k).status.busy = true) :
    ∃ u, OnlyTurns (hostPhase s s.input) u ∧ OnlyAck (s.instAt k) (u.instAt k) ∧
      (k.val < s.params.nInst ∧ moves s s.input k = true →
        ∃ v, seqStep (u.focus k) = .next v ∧ t.instAt k = v.instAt k) ∧
      (¬ (k.val < s.params.nInst ∧ moves s s.input k = true) → t.instAt k = u.instAt k) := by
  obtain ⟨u, a, b, c, d⟩ := step_turn h hr k
  exact ⟨u, a, hostMove_ack b hb, c, d⟩

/-- After an instance's turn the acting instance is that one. -/
theorem seqStep_inst {u v : State} {k : Fin 8} (h : seqStep (u.focus k) = .next v) :
    v.inst = v.instAt k := by
  have := (seqStep_only h).cur
  simp only [State.inst, this]
  rfl

/-- What a host access leaves alone, whether the instance is busy or not. -/
structure OnlyAccess (x y : Inst) : Prop where
  prof : y.prof = x.prof
  stats : y.stats = x.stats
  pins : y.pins = x.pins
  profileValid : y.status.profileValid = x.status.profileValid
  hwProfileValid : y.status.hwProfileValid = x.status.hwProfileValid
  attempts : y.status.attempts = x.status.attempts
  hwChan : y.status.hwChan = x.status.hwChan

theorem hostMove_access {rst : Bool} {p : Params} {now : Time} {x y : Inst}
    (m : HostMove rst p now x y) : OnlyAccess x y := by
  rcases m with rfl | ⟨-, off, rfl⟩ | ⟨-, off, z, w, rfl⟩
  · constructor <;> rfl
  · unfold Inst.afterRead
    split <;> constructor <;> rfl
  · unfold Inst.busWrite Inst.writeReg Inst.writeCtrl
    repeat' split
    all_goals (constructor <;> rfl)

/-- An instance that is not busy takes no step. -/
theorem not_moves_of_idle {s : State} {e : Env} {k : Fin 8} (h : (s.instAt k).phase = .idle) :
    moves s e k = false := by simp [moves, h]

/-- The cycle of a legal build as seen by a busy instance that is not stalled: its host moves, it
takes its step, CYCLE goes on by one and the next inputs come up. -/
theorem step_of_mover {t : State} {k : Fin 8} (hl : t.params.legal) (hk : k.val < t.params.nInst)
    (hb : (t.instAt k).status.busy = true) (hp : (t.instAt k).phase ≠ .idle)
    (hr : t.input.rstLow = false) (hst : (t.instAt k).stalled (preemptOf t.input k) = false) :
    ∃ t' u v, step t = .next t' ∧ t'.params = t.params ∧ t'.env = t.env.tail ∧
      t'.cycle = t.cycle + 1 ∧ OnlyAck (t.instAt k) u.inst ∧ u.cycle = t.cycle ∧
      seqStep u = .next v ∧ t'.instAt k = v.inst := by
  obtain ⟨w, hw, -⟩ := seqSteps_keeps (fun _ => True) (fun _ _ _ _ _ => trivial)
    (t.movers t.input) (hostPhase t t.input) trivial
  have ht : step t = .next (closeCycle t (peripheralPhase t t.input w)) := by
    simp [step, clockCycle, runCycle, hl, hr, hw]
  obtain ⟨u, hu, a, c, -⟩ := step_turn_busy ht hr k hb
  obtain ⟨v, hv, hvt⟩ := c ⟨hk, by simp [moves, hp, hst]⟩
  have g := hostPhase_spec t t.input
  have o := peripheralPhase_only t t.input w
  have q := (seqSteps_only hw).1
  exact ⟨_, u.focus k, v, ht, (o.params.trans q.params).trans g.params,
    (o.env.trans q.env).trans g.env, rfl, a, hu.cycle.trans g.cycle, hv,
    hvt.trans (seqStep_inst hv).symm⟩

/-- A run of cycles extended by one. -/
theorem runFor_succ {n : Nat} {s t : State} (h : runFor n s = .next t) :
    runFor (n + 1) s = step t := by
  induction n generalizing s with
  | zero =>
    injection h with h
    subst h
    simp only [runFor]
    cases step s <;> rfl
  | succ n ih =>
    simp only [runFor] at h
    cases hs : step s with
    | next u =>
      rw [hs] at h
      rw [← ih h]
      conv => lhs; unfold runFor
      rw [hs]
    | fault f => rw [hs] at h; cases h
    | refused r => rw [hs] at h; cases h

end Sys2Proof.Machine
end

