-- ==== Sys2Proof/Laws/Waveform.lean ====
section
/-! SUPPORT. The bit loop bit by bit: which bit is pending, and what raising it does. -/

namespace Sys2Proof.Machine

/-- `y` runs the frame of `x`: the same configuration, length and source. -/
structure SameFrame (x y : Inst) : Prop where
  ctrl : y.ctrl = x.ctrl
  cfg : y.cfg = x.cfg
  prof : y.prof = x.prof
  len : y.h.len = x.h.len
  src : y.h.src = x.h.src
  bright : y.h.bright = x.h.bright
  null : y.h.null = x.h.null

theorem SameFrame.ack {x y z : Inst} (h : SameFrame x y) (a : OnlyAck y z) : SameFrame x z :=
  ⟨a.ctrl.trans h.ctrl, a.cfg.trans h.cfg, a.prof.trans h.prof, by rw [a.h]; exact h.len,
   by rw [a.h]; exact h.src, by rw [a.h]; exact h.bright, by rw [a.h]; exact h.null⟩

/-- Bit `n` of the frame of `x` is the next to be raised; the byte it belongs to is the one `known`
names, where it names one. -/
structure BitPending (known : Nat → Option Byte) (x y : Inst) (n : Nat) : Prop where
  inFrame : n < 8 * x.h.len.toNat
  eof : y.h.eof = false
  cursor : y.h.cursor.toNat = n / 8 + 1
  mask : y.h.mask = (0x80 : Byte) >>> (n % 8)
  byte : ∀ b, known (n / 8) = some b → y.h.cur = b

theorem BitPending.of_hidden {known : Nat → Option Byte} {x y z : Inst} {n : Nat}
    (p : BitPending known x y n) (e : z.h = y.h) : BitPending known x z n :=
  ⟨p.inFrame, by rw [e]; exact p.eof, by rw [e]; exact p.cursor, by rw [e]; exact p.mask,
   by rw [e]; exact p.byte⟩

/-- Bit `n` of the frame of `x` has been raised in cycle `c`, and the sequencer has advanced. -/
structure BitRaised (known : Nat → Option Byte) (x y : Inst) (n : Nat) (c : Time) : Prop where
  first : y.h.first = false
  tStart : y.h.tStart = c
  high : y.h.tHold = x.prof.cycT1h ∨ y.h.tHold = x.prof.cycT0h
  bit : ∀ b, known (n / 8) = some b →
    y.h.tHold = if b.getLsbD (7 - n % 8) then x.prof.cycT1h else x.prof.cycT0h
  next : n + 1 < 8 * x.h.len.toNat → BitPending known x y (n + 1)
  last : n + 1 = 8 * x.h.len.toNat → y.h.eof = true

theorem BitRaised.of_hidden {known : Nat → Option Byte} {x y z : Inst} {n : Nat} {c : Time}
    (h : BitRaised known x y n c) (e : z.h = y.h) : BitRaised known x z n c :=
  ⟨by rw [e]; exact h.first, by rw [e]; exact h.tStart, by rw [e]; exact h.high,
   by rw [e]; exact h.bit, fun q => (h.next q).of_hidden e, fun q => by rw [e]; exact h.last q⟩

/-- RAISE with ADVANCE sends the pending bit and makes the next one pending, from a byte fetched with
the frame's last bit of a byte (R222, R223). -/
theorem raiseAndAdvance_bit {known : Nat → Option Byte} {x : Inst} {u : State} {n : Nat}
    (hs : SameFrame x u.inst) (hn : BitPending known x u.inst n)
    (hf : ∀ b, known (n / 8 + 1) = some b →
      fetchByte (u.onInst (Inst.raise u.cycle)) (n / 8 + 1) = b) :
    SameFrame x (raiseAndAdvance u).inst ∧ BitRaised known x (raiseAndAdvance u).inst n u.cycle ∧
      (raiseAndAdvance u).inst.phase = .holdHigh := by
  obtain ⟨m1, m2⟩ := mask_shift ⟨n % 8, by omega⟩
  have mb := mask_bit u.inst.h.cur ⟨n % 8, by omega⟩
  simp only at m1 m2 mb
  rw [← hn.mask] at m1 m2 mb
  obtain ⟨hlt, heof, hcur, hmask, hbyte⟩ := hn
  rw [raiseAndAdvance_inst]
  rw [← hcur] at hf
  generalize fetchByte (u.onInst (Inst.raise u.cycle)) u.inst.h.cursor.toNat = b at hf
  rw [hcur] at hf
  generalize u.inst = y at *
  generalize u.cycle = c
  have hold : ∀ z : Inst,
      z.h.tHold = (if y.h.cur &&& y.h.mask ≠ 0 then y.prof.cycT1h else y.prof.cycT0h) →
      (z.h.tHold = x.prof.cycT1h ∨ z.h.tHold = x.prof.cycT0h) ∧
      ∀ b, known (n / 8) = some b →
        z.h.tHold = if b.getLsbD (7 - n % 8) then x.prof.cycT1h else x.prof.cycT0h := by
    intro z hz
    rw [hz, hs.prof]
    refine ⟨?_, fun b h => ?_⟩
    · split
      · exact .inl rfl
      · exact .inr rfl
    · rw [hbyte b h] at mb ⊢
      by_cases hb : b.getLsbD (7 - n % 8) = true
      · rw [if_pos (mb.mpr hb), if_pos hb]
      · rw [if_neg (fun q => hb (mb.mp q)), if_neg hb]
  have hlen : y.h.len = x.h.len := hs.len
  have hL := x.h.len.isLt
  split
  · rename_i hm
    have hm' := m1.mp hm
    obtain ⟨o1, o2⟩ := hold (((y.raise c).shiftMask).goTo .holdHigh) rfl
    refine ⟨⟨hs.ctrl, hs.cfg, hs.prof, hs.len, hs.src, hs.bright, hs.null⟩,
      ⟨rfl, rfl, o1, o2, fun h => ⟨h, heof, ?_, ?_, fun b h => hbyte b ?_⟩,
        fun h => by omega⟩, rfl⟩
    · exact hcur.trans (by omega)
    · exact (m2 hm').trans (by rw [show (n + 1) % 8 = n % 8 + 1 by omega])
    · rwa [show (n + 1) / 8 = n / 8 by omega] at h
  · rename_i hm
    have hm' : n % 8 = 7 := by
      have : ¬ (n % 8 < 7) := fun q => hm (m1.mpr q)
      omega
    split
    · rename_i hce
      have he : n / 8 + 1 = x.h.len.toNat := by rw [← hcur, hce, hlen]
      obtain ⟨o1, o2⟩ := hold (((y.raise c).shiftMask.markEof).goTo .holdHigh) rfl
      simp only [Inst.goTo, Inst.markEof, Inst.shiftMask, Inst.raise] at o1 o2 ⊢
      exact ⟨⟨hs.ctrl, hs.cfg, hs.prof, hs.len, hs.src, hs.bright, hs.null⟩,
        ⟨rfl, rfl, o1, o2, fun h => by omega, fun _ => rfl⟩, trivial⟩
    · rename_i hce
      have he : n / 8 + 1 ≠ x.h.len.toNat := by
        rw [← hcur]
        exact fun q => hce (BitVec.eq_of_toNat_eq (q.trans (by rw [hlen])))
      obtain ⟨o1, o2⟩ := hold (((y.raise c).loadNext b).goTo .holdHigh) rfl
      refine ⟨⟨hs.ctrl, hs.cfg, hs.prof, hs.len, hs.src, hs.bright, hs.null⟩,
        ⟨rfl, rfl, o1, o2, fun h => ⟨h, heof, ?_, ?_, fun b' h => hf b' ?_⟩,
          fun h => by omega⟩, rfl⟩
      · show (y.h.cursor + 1).toNat = _
        rw [BitVec.toNat_add, hcur]
        simp
        omega
      · show (0x80 : Byte) = _
        rw [show (n + 1) % 8 = 0 by omega]
        rfl
      · rwa [show (n + 1) / 8 = n / 8 + 1 by omega] at h

/-- A fetch of a frame without memory reads is 0 (R203). -/
theorem fetchByte_silent {s : State} {i : Nat} (h : s.inst.silent = true) : fetchByte s i = 0 :=
  if_pos h

/-- A fetch from a backed address that is not raced is the scaled content of the source space (R202,
R203). -/
theorem fetchByte_known {s : State} {i : Nat} (h : s.inst.silent = false)
    (hb : isBacked s.params (s.inst.frameAddr i).toNat = true)
    (hr : s.inst.frameAddr i ∉ s.raced[s.cur.val]) :
    fetchByte s i = scale (memByte s.mem (s.inst.frameAddr i).toNat) s.inst.h.bright := by
  unfold fetchByte
  rw [h, memReadByte_sequencer hb hr]
  rfl

end Sys2Proof.Machine
end

