-- ==== Sys2Proof/Tests/Slice0.lean ====
section
/-! SUPPORT. Tests of the model against the spec's own vectors (95_test_vectors.md), the smoke test of
well-formedness, and for every statement with hypotheses a witness that meets them. -/

namespace Sys2Proof.Machine.Tests

set_option Elab.async false

open Sys2Proof Sys2Proof.Machine

/-! ## Test states -/

/-- Two instances, two channels. -/
def tp : Params := { Params.atReset with nInst := 2, nCh := 2 }

/-- Profile 80 of 95_test_vectors.md with PERIPH_FREQ 80, a source range of 3 bytes at 0x1000. -/
def cfg80 : Settings where
  clkFreq := 80
  t0hNs := 400
  t1hNs := 800
  periodNs := 1250
  resetNs := 50000
  mindispNs := 50000
  slack := 8
  srcAddr := 0x1000
  srcLen := 3
  periphFreq := 80
  hwTimeout := 1000

/-- An instance that has been configured and has run LOAD_PROFILE. -/
def loaded : Inst := ({ Inst.reset with cfg := cfg80 } : Inst).loadProfile tp

/-- The same with the hardware backend, interrupt tolerance and a retry budget of 2. -/
def loadedHw : Inst :=
  { loaded with ctrl := { Ctrl.reset with backend := true, intTol := true, retry := 2 } }

/-- An accepted command of instance x. -/
def accepted (x : Inst) (w : Word) : Inst := x.acceptCmd w

/-- SHOW 255 at its gate. -/
def atGate : Inst := (accepted loaded 0x0000FF02).showDecode 255

/-- SHOW 255 on the hardware backend at its gate. -/
def atGateHw : Inst := (accepted loadedHw 0x0000FF02).showDecode 255

/-- SHOW 255 in its first AWAIT_SLOT, byte 0x80 loaded. -/
def atFirst : Inst := atGate.countAttempt.loadFirst 0x80

/-- Instance x in a phase of the bit loop, its last RISE in cycle 1000. -/
def inLoop (p : Phase) (x : Inst) : Inst :=
  { x with phase := p, h := { x.h with first := false, tStart := 1000, tHold := 64 } }

/-- The line register set for HOLD_HIGH. -/
def high (x : Inst) : Inst := x.setPin true

/-- The frame's end marked. -/
def atEof (x : Inst) : Inst := { x with h := { x.h with eof := true, mask := 0, cursor := 3 } }

/-- Interrupt tolerance on. -/
def tolerant (x : Inst) : Inst := { x with ctrl := { x.ctrl with intTol := true } }

/-- The line driven. -/
def driven (x : Inst) : Inst := { x with pins := { x.pins with doutOe := true } }

/-- The machine after reset with instance 0 replaced, in cycle c, FF 00 00 at 0x1000. -/
def sys (x : Inst) (c : Time) : State :=
  { (State.resetOf tp).setInstAt 0 x with
    cycle := c
    mem := [(0x1000, 0xFF), (0x1001, 0x00), (0x1002, 0x00)]
    env := [Env.quiet] }

/-- The same with other inputs. -/
def sysEnv (x : Inst) (c : Time) (e : Env) : State := { sys x c with env := [e] }

/-- Inputs with PREEMPT of instance 0. -/
def preempted : Env := { Env.quiet with preempt := 1 }

/-- Inputs with the reset low. -/
def resetLow : Env := { Env.quiet with rstLow := true }

/-- Instance 0 waits on channel 1, its slot filled; the channel is done or not. -/
def waiting (x : Inst) (done : Bool) (c : Time) : State :=
  ({ (sys (x.enterWait 1 500) c).setSlotAt 1 (fillSlot 0 x) with
    chans := (State.resetOf tp).chans.set 1 { Channel.reset with phase := .running, done := done } })

/-- STATUS of the acting instance after a step. -/
def statusAfter (o : Host.Outcome State Fault Refusal) : Option Word :=
  match o with
  | .next t => some (readReg t.cycle (t.instAt 0) .status)
  | .fault _ => none
  | .refused _ => none

/-- A register of instance 0 after a step. -/
def regAfter (r : Reg) (o : Host.Outcome State Fault Refusal) : Option Word :=
  match o with
  | .next t => some (readReg t.cycle (t.instAt 0) r)
  | .fault _ => none
  | .refused _ => none

/-- Some field of instance 0 after a step. -/
def instAfter {α : Type} (f : Inst → α) (o : Host.Outcome State Fault Refusal) : Option α :=
  match o with
  | .next t => some (f (t.instAt 0))
  | .fault _ => none
  | .refused _ => none

/-! ## Well-formedness -/

/-- A brightness above 255 has no room in B (R132, V-EN14). -/
theorem smoke_showFrame : (Instr.showFrame 256).wf = false ∧ (Instr.showFrame 255).wf = true := by
  decide

/-- A pixel count above 2^24 − 1 has no room in N (R132). -/
theorem smoke_forceClear :
    (Instr.forceClear 16777216).wf = false ∧ (Instr.forceClear 16777215).wf = true := by decide

/-- The assembler refuses what does not fit (R137, V-EN14). -/
theorem smoke_assemble :
    assemble (.cmd (.showFrame 256)) = none ∧ assemble (.cmd (.forceClear 16777216)) = none ∧
      assemble (.cmd (.showFrame 255)) = some [.write 0x0C .word 0x0000FF02] := by decide

/-! ## Decoding, words written out from R131 and R133 (V-EN1 to V-EN13) -/

theorem test_decode_nop : decode 0x00000000 = .command .nop := by decide

theorem test_decode_loadProfile : decode 0x00000001 = .command .loadProfile := by decide

theorem test_decode_show :
    decode 0x0000FF02 = .command (.showFrame 255) ∧ decode 0x00000002 = .command (.showFrame 0) ∧
      decode 0x00001202 = .command (.showFrame 18) := by decide

theorem test_decode_forceClear :
    decode 0x00000103 = .command (.forceClear 1) ∧
      decode 0xFFFFFF03 = .command (.forceClear 16777215) ∧
      decode 0x00000003 = .command (.forceClear 0) ∧
      decode 0x12345603 = .command (.forceClear 0x123456) := by decide

theorem test_decode_getStats : decode 0x00000004 = .command .getStats := by decide

theorem test_decode_clearStats : decode 0x00000005 = .command .clearStats := by decide

theorem test_decode_begin : decode 0x00000006 = .command .beginLine := by decide

theorem test_decode_illegal :
    decode 0x00010002 = .illegal (.mustBeZero 0x02) ∧
      decode 0x00000100 = .illegal (.mustBeZero 0x00) ∧
      decode 0x80000004 = .illegal (.mustBeZero 0x04) ∧
      decode 0x00000007 = .illegal (.reservedOp 0x07) ∧
      decode 0x000000FF = .illegal (.reservedOp 0xFF) := by decide

theorem test_decodeTableWord :
    decodeTableWord 32 0x0000FF02 = some (.showFrame 255) ∧ decodeTableWord 32 6 = some .beginLine ∧
      decodeTableWord 32 0x00010002 = none := by decide

/-! ## One step of each command -/

/-- NOP after reset: LAST_OK and IRQ_PEND (R360, R380). -/
theorem test_nop : statusAfter (step (State.reset.withFetchWord 32 0)) = some 0x0F000012 := by
  decide +kernel

/-- V-PR1, V-PR10: profile 80 gives 32, 64, 100, 4000, 4000 and the templates of R158. -/
theorem test_loadProfile :
    instAfter (fun x => (x.prof.cycT0h, x.prof.cycT1h, x.prof.cycPeriod, x.prof.cycReset,
        x.prof.cycMindisp, x.prof.hwBit0, x.prof.hwBit1))
      (step ((sys { Inst.reset with cfg := cfg80 } 0).withFetchWord 32 1)) =
      some (32, 64, 100, 4000, 4000, 0x00448020, 0x00248040) := by decide +kernel

/-- V-PR9: a cycle count of 2^32 or more saturates and makes the profile invalid. -/
theorem test_loadProfile_saturates :
    instAfter (fun x => (x.prof.cycMindisp, x.status.profileValid, x.status.err))
      (step ((sys { Inst.reset with
        cfg := { cfg80 with clkFreq := 999999, mindispNs := 0xFFFFFFFF } } 0).withFetchWord 32 1)) =
      some (0xFFFFFFFF, false, .cfgInvalid) := by decide +kernel

/-- V-SH9 and V-SH8: the range ends at 2^32 at the latest. -/
theorem test_show_range :
    instAfter (fun x => x.status.err) (step ((sys { loaded with
      cfg := { cfg80 with srcAddr := 0xFFFFFFFF, srcLen := 2 } } 0).withFetchWord 32 0xFF02)) =
        some .badLength ∧
    instAfter (fun x => x.phase) (step ((sys { loaded with
      cfg := { cfg80 with srcAddr := 0xFFFFFFFF, srcLen := 1 } } 0).withFetchWord 32 0xFF02)) =
        some .gate := by decide +kernel

/-- V-SH10: NO_PROFILE before BAD_LENGTH. -/
theorem test_show_noProfile :
    instAfter (fun x => x.status.err) (step ((sys { Inst.reset with
      ctrl := { Ctrl.reset with reorder := true }
      cfg := { cfg80 with srcLen := 4 } } 0).withFetchWord 32 0xFF02)) = some .noProfile := by
  decide +kernel

/-- V-FC2: without a profile the line is driven low all the same; STATUS and PINS of program P5. -/
theorem test_forceClear_noProfile :
    statusAfter (step (State.reset.withFetchWord 32 0x203)) = some 0x0F000610 ∧
      regAfter .pins (step (State.reset.withFetchWord 32 0x203)) = some 2 := by decide +kernel

/-- V-EN7: 16,777,215 pixels are 50,331,645 bytes. -/
theorem test_forceClear_length :
    instAfter (fun x => (x.h.len, x.h.bright, x.h.null))
      (step ((sys loaded 0).withFetchWord 32 0xFFFFFF03)) = some (50331645, 0, true) := by
  decide +kernel

/-- V-ST1: 30 frames in 80,000,000 cycles at 80 MHz are 30 per second. -/
theorem test_getStats :
    regAfter .statFps (step ((sys { loaded with
      stats := { Stats.reset with frames := 30 } } 80000000).withFetchWord 32 4)) = some 30 := by
  decide +kernel

/-- V-ST3: below a millisecond the snapshot is 0. -/
theorem test_getStats_early :
    regAfter .statFps (step ((sys { loaded with
      stats := { Stats.reset with frames := 30 } } 79999).withFetchWord 32 4)) = some 0 := by
  decide +kernel

/-- V-ST6: the epoch restarts at the decode cycle, LAST_DISPLAY stays. -/
theorem test_clearStats :
    instAfter (fun x => x.stats) (step ((sys { loaded with stats := {
      frames := 7, aborted := 2, start := 1, fps := 9, lastDisplay := 77 } } 5000).withFetchWord 32 5)) =
      some { frames := 0, aborted := 0, start := 5000, fps := 0, lastDisplay := 77 } := by
  decide +kernel

/-- Program P1, cycles 10 to 12: PINS reads 2 after BEGIN. -/
theorem test_begin :
    regAfter .pins (step ((sys loaded 10).withFetchWord 32 6)) = some 2 ∧
      statusAfter (step ((sys loaded 10).withFetchWord 32 6)) = some 0x0F00001E := by decide +kernel

/-- Program P5: a reserved OP ends with ILLEGAL_CMD. -/
theorem test_illegal : statusAfter (step (State.reset.withFetchWord 32 7)) = some 0x0F000510 := by
  decide +kernel

/-! ## Operands -/

/-- The scaling table of section 4. -/
theorem test_scale :
    scale 0xFF 255 = 0xFF ∧ scale 0xFF 1 = 1 ∧ scale 0x80 127 = 0x40 ∧ scale 200 128 = 100 ∧
      scale 1 254 = 0 ∧ scale 0x10 15 = 1 ∧ scale 0xFF 0 = 0 := by decide

/-- The address table of section 4. -/
theorem test_byteOffset :
    (List.range 6).map (byteOffset true .o102) = [1, 0, 2, 4, 3, 5] ∧
      (List.range 6).map (byteOffset true .o201) = [2, 0, 1, 5, 3, 4] ∧
      (List.range 6).map (byteOffset true .o210) = [2, 1, 0, 5, 4, 3] ∧
      (List.range 6).map (byteOffset false .o210) = [0, 1, 2, 3, 4, 5] := by decide

/-- V-PR11: the items of a 40 MHz peripheral. -/
theorem test_template : template 16 50 = 0x00228010 ∧ template 32 50 = 0x00128020 := by decide

/-- V-BS3: 0xA5 is sent as 1,0,1,0,0,1,0,1. -/
theorem test_bits :
    bitsMsbFirst 0xA5 = [true, false, true, false, false, true, false, true] := by decide

/-! ## Timing and errors -/

/-- V-SW3: no change at 1099, RAISE at 1100 and at 1108, abort at 1109. -/
theorem test_awaitSlot :
    instAfter (fun x => (x.phase, x.pins.dout))
        (seqStep (sys (inLoop .awaitSlot (tolerant atFirst)) 1099)) = some (.awaitSlot, false) ∧
      instAfter (fun x => (x.phase, x.pins.dout))
        (seqStep (sys (inLoop .awaitSlot (tolerant atFirst)) 1100)) = some (.holdHigh, true) ∧
      instAfter (fun x => (x.phase, x.pins.dout))
        (seqStep (sys (inLoop .awaitSlot (tolerant atFirst)) 1108)) = some (.holdHigh, true) ∧
      instAfter (fun x => (x.h.err, x.pins.dout))
        (seqStep (sys (inLoop .awaitSlot (tolerant atFirst)) 1109)) = some (.overrun, false) := by
  decide +kernel

/-- V-SW5: LOWER at 1064 and 1072, abort at 1073. -/
theorem test_holdHigh :
    instAfter (fun x => (x.phase, x.pins.dout))
        (seqStep (sys (high (inLoop .holdHigh (tolerant atFirst))) 1063)) = some (.holdHigh, true) ∧
      instAfter (fun x => (x.phase, x.pins.dout))
        (seqStep (sys (high (inLoop .holdHigh (tolerant atFirst))) 1064)) = some (.awaitSlot, false) ∧
      instAfter (fun x => (x.phase, x.pins.dout))
        (seqStep (sys (high (inLoop .holdHigh (tolerant atFirst))) 1072)) = some (.awaitSlot, false) ∧
      instAfter (fun x => (x.h.err, x.pins.dout))
        (seqStep (sys (high (inLoop .holdHigh (tolerant atFirst))) 1073)) =
          some (.overrun, false) := by decide +kernel

/-- V-HW1, V-HW3, V-HW4 and V-HW5: counts and items of a pull. -/
theorem test_translate :
    translateAnswer (waiting atGateHw false 0).pool (waiting atGateHw false 0) 1 0x1000 3 64 =
        { chan := 1, addr := 0x1000, rem := 3, wanted := 64, count := 64, used := 3
          items := List.replicate 8 0x00248040 ++ List.replicate 16 0x00448020 ++
            List.replicate 40 0 } ∧
      translateAnswer (waiting atGateHw false 0).pool (waiting atGateHw false 0) 1 0x1002 1 16 =
        { chan := 1, addr := 0x1002, rem := 1, wanted := 16, count := 16, used := 1
          items := List.replicate 8 0x00448020 ++ List.replicate 8 0 } ∧
      (translateAnswer (waiting atGateHw false 0).pool (waiting atGateHw false 0) 1 0x1000 3 12).items =
        List.replicate 8 0x00248040 ∧
      (translateAnswer (waiting atGateHw false 0).pool (waiting atGateHw false 0) 0 0x2000 0 8).items =
        List.replicate 8 0 := by decide +kernel

/-- A channel that emits the item of a 0 bit and the idle item. -/
def emitting : Channel :=
  { Channel.reset with phase := .running, fifo := [template 32 100, idleItem] }

/-- R283 at 80 MHz and 80 MHz: a 0 bit is high for 32 cycles, low for 68, and then the line is idle. -/
theorem test_emission :
    emitting.level tp = true ∧
      (emitting.settle { wait := 0, pos := tickUnits tp 31, fifo := emitting.fifo } none).level tp =
        true ∧
      (emitting.settle { wait := 0, pos := tickUnits tp 32, fifo := emitting.fifo } none).level tp =
        false ∧
      emit tp [] (99 * cycleUnits tp) 0 0 emitting.fifo ≠ none ∧
      emit tp [] (100 * cycleUnits tp) 0 0 emitting.fifo = none := by decide +kernel

/-- The program RD PINS after reset: the read is performed in cycle 0, in which BUSY = 0, so the run ends
there (R452); it returns 0 and the line is not driven (R40, R421). -/
theorem test_run :
    (State.startRun { State.reset with env := [Env.quiet] } 0 [.rd .pins]).bind (observe 0 1) =
      some {
        cycles := 0
        final := ({ State.reset with env := [Env.quiet] } : State).setHostAt 0 [.read 0x7C .word]
        line := [{ oe := false, routed := false, level := none }]
        reads := []
        values := [0] } := by decide +kernel

/-- V-HW15 and V-HW16: the timeout at 1500, done wins in the same cycle. -/
theorem test_hwWait :
    instAfter (fun x => (x.h.err, x.phase)) (seqStep (waiting atGateHw false 1500)) =
        some (.hwTimeout, .gate) ∧
      instAfter (fun x => (x.status.lastOk, x.phase)) (seqStep (waiting atGateHw true 1500)) =
        some (true, .idle) ∧
      instAfter (fun x => x.phase) (seqStep (waiting atGateHw false 1499)) = some .hwWait := by
  decide +kernel

/-- V-ER3 and V-ER4: a rejected CTRL write, and ORDER 7 ignored. -/
theorem test_ctrl :
    (readReg 0 (Inst.reset.busWrite tp 0x04 .word 0x100) .ctrl = 0 ∧
        readReg 0 (Inst.reset.busWrite tp 0x04 .word 0x100) .status = 0x0F000420) ∧
      readReg 0 (({ Inst.reset with ctrl := { Ctrl.reset with order := .o102 } } : Inst).busWrite
        tp 0x04 .word 0x3C) .ctrl = 0x14 := by decide +kernel

/-- V-ER8: the latched high word. -/
theorem test_cycle_latch :
    busRead 0x1FFFFFFFF loaded 0x74 .word = 0xFFFFFFFF ∧
      busRead 0x200000000 (loaded.afterRead 0x1FFFFFFFF 0x74) 0x78 .word = 1 := by decide +kernel

/-- V-ER9, V-ER10 and V-RS1. -/
theorem test_window :
    (loaded.busWrite tp 0x41 .word 5).status.wrIgnored = true ∧
      (loaded.busWrite tp 0x80 .word 5).status.wrIgnored = false ∧
      readReg 0 Inst.reset .status = 0x0F000000 ∧ readReg 0 Inst.reset .id = 0x4E505801 := by
  decide +kernel

/-! ## The invariant at the test states -/

theorem tp_legal : tp.legal := by decide

/-- A machine without waiting instances, its other instances and its pool after reset, keeps the
invariant if instance 0 does. -/
theorem inv_of_first {s : State} (hl : s.params.legal) (h0 : (s.instAt 0).Ok s.params)
    (hw : (s.instAt 0).phase ≠ .hwWait) (ho : ∀ k, k ≠ 0 → s.instAt k = Inst.reset)
    (hp : ∀ j, s.slotAt j = Slot.reset) (hm : Memory.wf s.mem = true) (ha : s.arb = []) :
    s.Inv := by
  refine ⟨hl, fun k => ?_, fun k hk => ?_, ⟨fun j hj => ?_, fun k hk => ?_, fun j _ => hp j⟩, hm, ha⟩
  · by_cases e : k = 0
    · exact e ▸ h0
    · rw [ho k e]
      exact Inst.reset_ok _
  · refine ho k fun e => ?_
    subst e
    have := hl.2.1.1
    simp at hk
    omega
  · rw [hp j] at hj
    cases hj
  · by_cases e : k = 0
    · exact absurd (e ▸ hk) hw
    · rw [ho k e] at hk
      cases hk

theorem sys_inv (x : Inst) (c : Time) (e : Env) (hx : x.Ok tp) (hw : x.phase ≠ .hwWait) :
    (sysEnv x c e).Inv := by
  have h (k : Fin 8) : (sysEnv x c e).instAt k = if k = 0 then x else Inst.reset := by
    refine (State.instAt_setInstAt (State.resetOf tp) 0 k x).trans ?_
    simp [State.instAt, State.resetOf]
  refine inv_of_first tp_legal (by rw [h]; exact hx) (by rw [h]; exact hw)
    (fun k hk => by rw [h, if_neg hk]) (fun j => ?_) (by decide : Memory.wf (sys Inst.reset 0).mem = true)
    rfl
  simp [sysEnv, sys, State.setInstAt, State.slotAt, State.resetOf]

/-- The inputs to come are no part of the invariant. -/
theorem inv_withEnv {s : State} (h : s.Inv) (l : List Env) : ({ s with env := l } : State).Inv := h

/-- An instance that is idle or decodes. -/
theorem ok_decode {x : Inst} (hb : x.status.busy = true ∧ x.phase = .decode) (hc : x.ctrl.Ok tp)
    (hv : x.status.profileValid = true → x.prof.Ok)
    (hh : x.status.hwProfileValid = true → x.status.profileValid = true) (hd : x.pins.dout = false)
    (ha : x.status.attempts = x.h.attempts) : x.Ok tp := by
  refine ⟨by simp [hb], hc, hv, fun h => ⟨hh h, rfl⟩, by simp [hb, hd], ha,
    by simp [tp, Params.atReset], ?_⟩
  unfold Inst.PhaseOk
  rw [hb.2]
  trivial

theorem loaded_prof_ok : loaded.prof.Ok := by
  unfold Profile.Ok
  decide +kernel

theorem ctrl_reset_ok : Ctrl.reset.Ok tp := by
  unfold Ctrl.Ok
  decide

theorem ok_accepted (w : Word) : (accepted loaded w).Ok tp :=
  ok_decode ⟨rfl, rfl⟩ ctrl_reset_ok (fun _ => loaded_prof_ok)
    (fun _ => by show loaded.status.profileValid = true; decide +kernel)
    (show loaded.pins.dout = false by decide +kernel)
    (show loaded.status.attempts = loaded.h.attempts by decide +kernel)

theorem ok_acceptedReset (w : Word) : (accepted Inst.reset w).Ok tp :=
  ok_decode ⟨rfl, rfl⟩ ctrl_reset_ok (fun h => by cases h) (fun h => by cases h) rfl rfl

theorem ok_atGate : atGate.Ok tp := by
  refine ⟨by decide +kernel, by unfold Ctrl.Ok; decide +kernel, fun _ => ?_, by decide +kernel,
    by decide +kernel, by decide +kernel, by decide +kernel, ?_⟩
  · unfold Profile.Ok
    decide +kernel
  · show Inst.Running atGate
    unfold Inst.Running
    decide +kernel

theorem ok_atFirst : atFirst.Ok tp := by
  refine ⟨by decide +kernel, by unfold Ctrl.Ok; decide +kernel, fun _ => ?_, by decide +kernel,
    by decide +kernel, by decide +kernel, by decide +kernel, ?_⟩
  · unfold Profile.Ok
    decide +kernel
  · show Inst.Running atFirst ∧ _ ∧ Inst.InFrame atFirst ∧ _ ∧ OneHot _
    unfold Inst.Running Inst.InFrame OneHot
    decide +kernel

theorem ok_await : (inLoop .awaitSlot atFirst).Ok tp := by
  refine ⟨by decide +kernel, by unfold Ctrl.Ok; decide +kernel, fun _ => ?_, by decide +kernel,
    by decide +kernel, by decide +kernel, by decide +kernel, ?_⟩
  · unfold Profile.Ok
    decide +kernel
  · show Inst.Running (inLoop .awaitSlot atFirst) ∧ _ ∧ Inst.InFrame (inLoop .awaitSlot atFirst) ∧
      _ ∧ OneHot _
    unfold Inst.Running Inst.InFrame OneHot
    decide +kernel

theorem ok_hold : (high (inLoop .holdHigh atFirst)).Ok tp := by
  refine ⟨by decide +kernel, by unfold Ctrl.Ok; decide +kernel, fun _ => ?_, by decide +kernel,
    by decide +kernel, by decide +kernel, by decide +kernel, ?_⟩
  · unfold Profile.Ok
    decide +kernel
  · show Inst.Running (high (inLoop .holdHigh atFirst)) ∧ _ ∧
      Inst.InFrame (high (inLoop .holdHigh atFirst)) ∧ ((_ ∧ OneHot _) ∨ (_ ∧ _))
    unfold Inst.Running Inst.InFrame OneHot
    decide +kernel

theorem ok_final : (inLoop .finalLow (atEof atFirst)).Ok tp := by
  refine ⟨by decide +kernel, by unfold Ctrl.Ok; decide +kernel, fun _ => ?_, by decide +kernel,
    by decide +kernel, by decide +kernel, by decide +kernel, ?_⟩
  · unfold Profile.Ok
    decide +kernel
  · show Inst.Running (inLoop .finalLow (atEof atFirst)) ∧ _ ∧
      Inst.InFrame (inLoop .finalLow (atEof atFirst)) ∧ _
    unfold Inst.Running Inst.InFrame
    decide +kernel

theorem ok_wait : (atGateHw.enterWait 1 500).Ok tp := by
  refine ⟨by decide +kernel, by unfold Ctrl.Ok; decide +kernel, fun _ => ?_, by decide +kernel,
    by decide +kernel, by decide +kernel, by decide +kernel, ?_⟩
  · unfold Profile.Ok
    decide +kernel
  · show Inst.Running (atGateHw.enterWait 1 500) ∧ _
    unfold Inst.Running
    decide +kernel

theorem waiting_inv (done : Bool) (c : Time) : (waiting atGateHw done c).Inv := by
  have h (k : Fin 8) : (waiting atGateHw done c).instAt k =
      if k = 0 then atGateHw.enterWait 1 500 else Inst.reset := by
    refine (State.instAt_setInstAt (State.resetOf tp) 0 k _).trans ?_
    simp [State.instAt, State.resetOf]
  have hs (j : Fin 15) : (waiting atGateHw done c).slotAt j =
      if j = 1 then fillSlot 0 atGateHw else Slot.reset := by
    refine (State.slotAt_setSlotAt (sys _ c) 1 j _).trans ?_
    simp [State.slotAt, sys, State.setInstAt, State.resetOf]
  have h0 : (waiting atGateHw done c).instAt 0 = atGateHw.enterWait 1 500 := by rw [h, if_pos rfl]
  have hk (k : Fin 8) (e : k ≠ 0) : (waiting atGateHw done c).instAt k = Inst.reset := by
    rw [h, if_neg e]
  have h1 : (waiting atGateHw done c).slotAt 1 = fillSlot 0 atGateHw := by rw [hs, if_pos rfl]
  have hj (j : Fin 15) (e : j ≠ 1) : (waiting atGateHw done c).slotAt j = Slot.reset := by
    rw [hs, if_neg e]
  refine ⟨tp_legal, fun k => ?_, fun k hn => ?_, ⟨fun j hu => ?_, fun k hw => ?_, fun j hu => ?_⟩,
    (by decide : Memory.wf (sys Inst.reset 0).mem = true), rfl⟩
  · by_cases e : k = 0
    · rw [e, h0]
      exact ok_wait
    · rw [hk k e]
      exact Inst.reset_ok _
  · refine hk k fun e => ?_
    subst e
    have : tp.nInst ≤ 0 := hn
    revert this
    decide
  · by_cases e : j = 1
    · subst e
      rw [h1]
      refine ⟨rfl, (by decide : 1 < 2), ?_, ?_, ?_⟩
      · show ((waiting atGateHw done c).instAt 0).phase = _
        rw [h0]
        rfl
      · show ((waiting atGateHw done c).instAt 0).h.hwJ = _
        rw [h0]
        rfl
      · show fillSlot 0 atGateHw = fillSlot 0 ((waiting atGateHw done c).instAt 0)
        rw [h0]
        rfl
    · rw [hj j e] at hu
      cases hu
  · by_cases e : k = 0
    · subst e
      rw [h0]
      show ((waiting atGateHw done c).slotAt 1).inUse = true ∧ _
      rw [show (atGateHw.enterWait 1 500).h.hwJ = 1 from rfl, h1]
      exact ⟨rfl, rfl⟩
    · rw [hk k e] at hw
      cases hw
  · by_cases e : j = 1
    · subst e
      rw [h1] at hu
      cases hu
    · exact hj j e

/-! ## Witnesses: for each statement with hypotheses, states and operands that meet them -/

/-- The outcome is a next state with a property. -/
def answers (o : Host.Outcome State Fault Refusal) (P : State → Bool) : Bool :=
  match o with
  | .next t => P t
  | .fault _ => false
  | .refused _ => false

theorem next_of_answers {o : Host.Outcome State Fault Refusal} {P : State → Bool}
    (h : answers o P = true) : ∃ t, o = .next t ∧ P t = true := by
  cases o with
  | next t => exact ⟨t, rfl, h⟩
  | fault f => cases h
  | refused r => cases h

theorem witness_DecodeInvertsEncode :
    Instr.nop.wf = true ∧ (Instr.showFrame 0).wf = true ∧ (Instr.showFrame 255).wf = true ∧
      (Instr.forceClear 0).wf = true ∧ (Instr.forceClear 16777215).wf = true := by decide

theorem witness_RowsSelectWords :
    decode 0x0000FF02 = .command (.showFrame 255) ∧
      (0x0000FF02 : Word) &&& rowMask (.showFrame 0) = rowMatch (.showFrame 0) ∧
      (0xFFFFFF03 : Word) &&& rowMask (.forceClear 1) = rowMatch (.forceClear 1) ∧
      (Instr.nop ≠ .showFrame 0 ∧ Instr.nop ≠ .forceClear 0) := by decide

/-- Each clause of illegality at its smallest word; an idle instance; an illegal word in DECODE. -/
theorem witness_IllegalWordsEndWithError :
    7 ≤ (7 : Word).toNat % 256 ∧
      ((0x100 : Word).toNat % 256 ≠ 2 ∧ (0x100 : Word).toNat % 256 ≠ 3 ∧
        (0x100 : Word).toNat / 256 ≠ 0) ∧
      ((0x10002 : Word).toNat % 256 = 2 ∧ (0x10002 : Word).toNat / 65536 ≠ 0) ∧
      loaded.status.busy = false ∧
      (sys (accepted loaded 7) 0).inst.phase = .decode ∧
      decode (sys (accepted loaded 7) 0).inst.h.cmdword = .illegal (.reservedOp 7) := by
  decide +kernel

/-- A sequencer in GATE and one in DECODE. -/
theorem witness_StepRunsDecodedCommand :
    (((sys atGate 9).instAt 0).phase ≠ .idle ∧
        ((sys atGate 9).instAt 0).stalled (preemptOf (sys atGate 9).input 0) = false) ∧
    (sys (accepted loaded 0xFF02) 9).params.legal ∧
      (sys (accepted loaded 0xFF02) 9).input.rstLow = false ∧
      (0 : Fin 8).val < (sys (accepted loaded 0xFF02) 9).params.nInst ∧
      ((sys (accepted loaded 0xFF02) 9).instAt 0).status.busy = true ∧
      ((sys (accepted loaded 0xFF02) 9).instAt 0).phase = .decode ∧
      ((sys (accepted loaded 0xFF02) 9).instAt 0).stalled
        (preemptOf (sys (accepted loaded 0xFF02) 9).input 0) = false ∧
      decode ((sys (accepted loaded 0xFF02) 9).instAt 0).h.cmdword = .command (.showFrame 255) := by
  decide +kernel

theorem witness_StepCompletes :
    (sys loaded 0).params.legal ∧
      ¬ ({ sys loaded 0 with params := { tp with nInst := 9 } } : State).params.legal := by decide

/-- At the counter's last value, and with the reset low. -/
theorem witness_CycleCounterAdvances :
    (∃ t, step (sys loaded 0xFFFFFFFFFFFFFFFF) = .next t ∧
        (sys loaded 0xFFFFFFFFFFFFFFFF).input.rstLow = false ∧ t.cycle = 0) ∧
      (∃ t, step (sysEnv loaded 5 resetLow) = .next t ∧
        (sysEnv loaded 5 resetLow).input.rstLow = true ∧ t.cycle = 0) := by
  obtain ⟨t, ht, hp⟩ := next_of_answers (o := step (sys loaded 0xFFFFFFFFFFFFFFFF))
    (P := fun t => decide (t.cycle = 0)) (by decide +kernel)
  obtain ⟨u, hu, hq⟩ := next_of_answers (o := step (sysEnv loaded 5 resetLow))
    (P := fun t => decide (t.cycle = 0)) (by decide +kernel)
  exact ⟨⟨t, ht, rfl, by simpa using hp⟩, ⟨u, hu, rfl, by simpa using hq⟩⟩

/-- A reset during a SHOW, with a host that reads STATUS in the same cycle. -/
theorem witness_ResetCycleClearsUnit :
    ∃ t, step ((sysEnv atGate 5 resetLow).setHostAt 0 [.read 0x08 .word]) = .next t ∧
      ((sysEnv atGate 5 resetLow).setHostAt 0 [.read 0x08 .word]).input.rstLow = true ∧
      t.ports.rdata[0] = some 0 := by
  obtain ⟨t, ht, hp⟩ := next_of_answers
    (o := step ((sysEnv atGate 5 resetLow).setHostAt 0 [.read 0x08 .word]))
    (P := fun t => decide (t.ports.rdata[0] = some 0)) (by decide +kernel)
  exact ⟨t, ht, rfl, by simpa using hp⟩

theorem witness_ResetMeetsInv : tp.legal := tp_legal

theorem witness_StepKeepsInv :
    ∃ t, (sys atGate 5000).Inv ∧ step (sys atGate 5000) = .next t := by
  obtain ⟨t, ht, -⟩ := next_of_answers (o := step (sys atGate 5000)) (P := fun _ => true)
    (by decide +kernel)
  exact ⟨t, sys_inv _ _ _ ok_atGate (by decide +kernel), ht⟩

/-- The conditions of the templates at their upper end (32767 ticks) and past it; no valid profile. -/
theorem witness_LoadProfileConverts :
    validHw tp { cfg80 with periphFreq := 26214 } = true ∧
      conv 26214 1250 = 32767 ∧
      validHw tp { cfg80 with periphFreq := 26215 } = false ∧ conv 26215 1250 = 32768 ∧
      ({ cfg80 with clkFreq := 0 } : Settings).validSw = false := by decide +kernel

theorem witness_ConversionIsExact :
    (999999 : Word).toNat < 1000000 ∧ ¬ (1000000 : Word).toNat < 1000000 := by decide

theorem witness_ItemFieldsAndTemplates :
    (32 : BitVec 15).toNat ≤ (100 : BitVec 15).toNat ∧
      (32767 : BitVec 15).toNat ≤ (32767 : BitVec 15).toNat := by decide

/-- The three ways SHOW decodes: to the gate, NO_PROFILE, BAD_LENGTH by each of its two tests. -/
theorem witness_ShowDecodes :
    (Instr.showFrame 255).wf = true ∧
      (loaded.status.profileValid = true ∧ loaded.ctrl.backend = false ∧
        loaded.ctrl.reorder = false ∧ ¬ loaded.cfg.srcAddr.toNat + loaded.cfg.srcLen.toNat > 2 ^ 32) ∧
      Inst.reset.status.profileValid = false ∧
      (let x : Inst := { loaded with
          ctrl := { loaded.ctrl with reorder := true }, cfg := { cfg80 with srcLen := 4 } };
        x.status.profileValid = true ∧ x.ctrl.reorder = true ∧ x.cfg.srcLen.toNat % 3 ≠ 0) ∧
      (let x : Inst := { loaded with cfg := { cfg80 with srcAddr := 0xFFFFFFFF, srcLen := 2 } };
        x.status.profileValid = true ∧ x.cfg.srcAddr.toNat + x.cfg.srcLen.toNat > 2 ^ 32) := by
  decide +kernel

theorem witness_ForceClearDecodes :
    (sys loaded 0).params.legal ∧ (Instr.forceClear 16777215).wf = true ∧
      Inst.reset.status.profileValid = false ∧
      (loaded.status.profileValid = true ∧ loaded.ctrl.backend = false) := by decide +kernel

/-- The epoch at the cycle itself, and a profile that is not valid. -/
theorem witness_GetStatsSnapshots :
    ((sys loaded 0).inst.status.profileValid = true ∧
        (sys loaded 0).inst.stats.start.toNat ≤ (sys loaded 0).cycle.toNat) ∧
      (sys Inst.reset 0).inst.status.profileValid = false := by decide +kernel

/-- A command of each kind that the frame's premises single out. -/
theorem witness_CommandFrame :
    Instr.nop ≠ .loadProfile ∧ Instr.nop ≠ .getStats ∧ Instr.nop ≠ .clearStats ∧
      Instr.nop ≠ .beginLine ∧ (∀ n, Instr.nop ≠ .forceClear n) ∧
      (∀ b, Instr.nop ≠ .showFrame b) := by simp

/-- A SHOW and a FORCE_CLEAR attempt; no retry left and one left. -/
theorem witness_AttemptFails :
    (atGate.h.cmdword.toNat % 256 = 2 ∧ atGate.h.left = 0) ∧
      (atGateHw.h.cmdword.toNat % 256 = 2 ∧ atGateHw.h.left ≠ 0) ∧
      (((accepted loaded 0x103).forceClear tp 1 9).h.cmdword.toNat % 256 ≠ 2 ∧
        ((accepted loaded 0x103).forceClear tp 1 9).h.left ≠ 0) := by decide +kernel

/-- A budget of 2 with two and with three ends. -/
theorem witness_RetryBudgetBoundsAttempts :
    (accepted loadedHw 0xFF02).h.cmdword.toNat % 256 = 2 ∧
      [(ErrCode.overrun, (7 : Time)), (.overrun, 9)].length ≤ loadedHw.ctrl.retry.toNat ∧
      [(ErrCode.overrun, (7 : Time)), (.overrun, 9), (.overrun, 11)].length =
        loadedHw.ctrl.retry.toNat + 1 ∧
      [(ErrCode.overrun, (7 : Time)), (.overrun, 9)] =
        [(ErrCode.overrun, (7 : Time))] ++ [(ErrCode.overrun, (9 : Time))] := by decide +kernel

/-- One cycle before the distance has passed, and the cycle in which it has. -/
theorem witness_GateWaitsThenStarts :
    ((sys atGate 3999).inst.phase = .gate ∧
        (sys atGate 3999).inst.h.gateT.toNat ≤ (sys atGate 3999).cycle.toNat ∧
        (sys atGate 3999).cycle.toNat - (sys atGate 3999).inst.h.gateT.toNat <
          (sys atGate 3999).inst.h.gateD.toNat) ∧
      ((sys atGate 4000).inst.phase = .gate ∧
        (sys atGate 4000).inst.h.gateT.toNat ≤ (sys atGate 4000).cycle.toNat ∧
        (sys atGate 4000).inst.h.gateD.toNat ≤
          (sys atGate 4000).cycle.toNat - (sys atGate 4000).inst.h.gateT.toNat) := by
  decide +kernel

theorem witness_SoftwareStartLoadsFirstByte :
    (sys { atGate with h := { atGate.h with len := 0 } } 9).inst.h.len = 0 ∧
      (sys atGate 9).inst.h.len ≠ 0 := by decide +kernel

/-- The first slot; the slot at CYC_PERIOD; one past CYC_PERIOD + SLACK; one before CYC_PERIOD. -/
theorem witness_AwaitSlotRaisesOrAborts :
    ((sys atFirst 9).inst.phase = .awaitSlot ∧
        (sys atFirst 9).inst.h.tStart.toNat ≤ (sys atFirst 9).cycle.toNat ∧
        (sys atFirst 9).inst.h.first = true) ∧
      (let x := inLoop .awaitSlot (tolerant atFirst);
        x.phase = .awaitSlot ∧ x.h.first = false ∧ x.ctrl.intTol = true ∧
        1000 = x.h.tStart.toNat ∧ x.prof.cycPeriod.toNat = 1100 - 1000 ∧
        1109 - 1000 > x.prof.cycPeriod.toNat + x.cfg.slack.toNat ∧
        ¬ 1108 - 1000 > x.prof.cycPeriod.toNat + x.cfg.slack.toNat ∧
        1099 - 1000 < x.prof.cycPeriod.toNat) := by decide +kernel

/-- Inside a byte at the last mask that shifts, at a byte's end inside and at the frame's end. -/
theorem witness_AdvanceMovesOneBit :
    2 ≤ (2 : Byte).toNat ∧
      ((1 : Byte).toNat < 2 ∧ atFirst.h.cursor ≠ atFirst.h.len) ∧
      ((1 : Byte).toNat < 2 ∧
        ({ atFirst.h with cursor := 3 } : Hidden).cursor = ({ atFirst.h with cursor := 3 } : Hidden).len) := by
  decide +kernel

/-- HOLD_HIGH at the high time plus SLACK, one past it, at the high time, one before it; FINAL_LOW at the
period and one before it. -/
theorem witness_HoldHighAndFinalLow :
    (let x := high (inLoop .holdHigh (tolerant atFirst));
      x.phase = .holdHigh ∧ x.ctrl.intTol = true ∧ x.h.tStart.toNat = 1000 ∧
        1073 - 1000 > x.h.tHold.toNat + x.cfg.slack.toNat ∧
        ¬ 1072 - 1000 > x.h.tHold.toNat + x.cfg.slack.toNat ∧
        x.h.tHold.toNat ≤ 1064 - 1000 ∧ 1063 - 1000 < x.h.tHold.toNat) ∧
      (let x := inLoop .finalLow (atEof atFirst);
        x.phase = .finalLow ∧ x.h.tStart.toNat = 1000 ∧ x.prof.cycPeriod.toNat ≤ 1100 - 1000 ∧
          1099 - 1000 < x.prof.cycPeriod.toNat) := by decide +kernel

/-- The bit's item at its first and its last cycle, and the cycle in which its time is over. -/
theorem witness_HardwareWaveformIsExact :
    1 ≤ tp.fClk ∧ emitting.phase = .running ∧ emitting.wait = 0 ∧ emitting.pos = 0 ∧
      (∀ d ∈ List.replicate 99 ChanDraw.quiet, d.gaps = []) ∧
      emitting.fifo = [] ++ template 32 100 :: [] ++ [0] ∧ itemD0 (template 32 100) ≠ 0 ∧
      0 ≤ 0 * tp.fPeriph ∧ 99 * tp.fPeriph < (32 + 68) * tp.fClk ∧
      (32 + 68) * tp.fClk ≤ 100 * tp.fPeriph ∧
      emitting.fifo = [false].map (fun b => template (if b then 64 else 32) 100) ++ [0] := by
  refine ⟨by decide, rfl, rfl, rfl, fun d hd => ?_, by decide +kernel⟩
  rw [List.eq_of_mem_replicate hd]
  rfl

/-- All three phases of the bit loop, PREEMPT asserted. -/
theorem witness_MaskedBitLoopNeverAborts :
    (∃ t, (sysEnv (inLoop .awaitSlot atFirst) 1100 preempted).Inv ∧
        step (sysEnv (inLoop .awaitSlot atFirst) 1100 preempted) = .next t) ∧
      (∃ t, (sysEnv (high (inLoop .holdHigh atFirst)) 1100 preempted).Inv ∧
        step (sysEnv (high (inLoop .holdHigh atFirst)) 1100 preempted) = .next t) ∧
      (∃ t, (sysEnv (inLoop .finalLow (atEof atFirst)) 1100 preempted).Inv ∧
        step (sysEnv (inLoop .finalLow (atEof atFirst)) 1100 preempted) = .next t) ∧
      preempted.rstLow = false ∧ (0 : Fin 8).val < tp.nInst ∧ atFirst.ctrl.intTol = false := by
  obtain ⟨t, ht, -⟩ := next_of_answers
    (o := step (sysEnv (inLoop .awaitSlot atFirst) 1100 preempted)) (P := fun _ => true)
    (by decide +kernel)
  obtain ⟨u, hu, -⟩ := next_of_answers
    (o := step (sysEnv (high (inLoop .holdHigh atFirst)) 1100 preempted)) (P := fun _ => true)
    (by decide +kernel)
  obtain ⟨v, hv, -⟩ := next_of_answers
    (o := step (sysEnv (inLoop .finalLow (atEof atFirst)) 1100 preempted)) (P := fun _ => true)
    (by decide +kernel)
  exact ⟨⟨t, sys_inv _ _ _ ok_await (by decide +kernel), ht⟩,
    ⟨u, sys_inv _ _ _ ok_hold (by decide +kernel), hu⟩,
    ⟨v, sys_inv _ _ _ ok_final (by decide +kernel), hv⟩, by decide +kernel⟩

/-- The first AWAIT_SLOT of a frame of 3 bytes under profile 80, the inputs of 2401 cycles listed. -/
def waveState : State := { sys atFirst 4001 with env := List.replicate 2401 Env.quiet }

theorem witness_SoftwareWaveformIsExact :
    waveState.Inv ∧ waveState.Undisturbed 0 (2400 + 1) ∧
      ((0 : Fin 8).val < waveState.params.nInst ∧ (waveState.instAt 0).phase = .awaitSlot ∧
        (waveState.instAt 0).h.first = true ∧ (waveState.instAt 0).h.cursor = 1 ∧
        (waveState.instAt 0).h.mask = 0x80 ∧ (waveState.instAt 0).silent = false ∧
        8 * (waveState.instAt 0).h.len.toNat * (waveState.instAt 0).prof.cycPeriod.toNat = 2400 ∧
        waveState.cycle.toNat + 2400 + 1 < 2 ^ 64) := by
  have hI : waveState.Inv :=
    inv_withEnv (sys_inv atFirst 4001 Env.quiet ok_atFirst (by decide +kernel)) _
  refine ⟨hI, fun i hi => ?_, by decide +kernel⟩
  refine ⟨Env.quiet, ?_, rfl, .inl (by decide)⟩
  show (List.replicate 2401 Env.quiet)[i]? = _
  rw [List.getElem?_replicate, if_pos hi]

/-- With hosts that have nothing left to do no host stores. -/
theorem step_stores {s t : State} (h : step s = .next t) (hh : ∀ k, s.hostAt k = []) :
    (∀ k, t.hostAt k = []) ∧ t.ports.stores = [] := by
  have hk : hostTurns s.input.rstLow s.ids s.openCycle = s.openCycle := hostTurns_done _ _ _ hh
  have hp := hostPhase_ports s s.input
  rw [hk] at hp
  have ho : (hostPhase s s.input).hosts = s.hosts := by
    unfold hostPhase
    rw [hk]
    obtain ⟨v, hv⟩ := noteRaces_eq s (s.openCycle.ports.stores ++ s.input.stores) allIds
      { s.openCycle with mem := storeAll s.mem (s.openCycle.ports.stores ++ s.input.stores) }
    rw [hv]
    rfl
  obtain ⟨-, ⟨-, rfl⟩ | ⟨-, u, hu, rfl⟩⟩ := step_cases h
  · have o := peripheralPhase_only s.resetUnit s.input (hostPhase s s.input)
    refine ⟨fun k => ?_, (peripheralPhase_ports _ _ _).2.2.2.trans (by rw [hp]; rfl)⟩
    have : (resetCycle s s.input).hosts = s.hosts := o.hosts.trans ho
    simp only [State.hostAt, this]
    exact hh k
  · have o := peripheralPhase_only s s.input u
    have q := (seqSteps_only hu).1
    refine ⟨fun k => ?_, (peripheralPhase_ports _ _ _).2.2.2.trans (q.stores.trans (by rw [hp]; rfl))⟩
    have : (closeCycle s (peripheralPhase s s.input u)).hosts = s.hosts :=
      (o.hosts.trans q.hosts).trans ho
    simp only [State.hostAt, this]
    exact hh k

theorem runFor_stores (n : Nat) (s t : State) (hh : ∀ k, s.hostAt k = [])
    (ht : runFor n s = .next t) (hn : 1 ≤ n) : t.ports.stores = [] := by
  induction n generalizing s with
  | zero => omega
  | succ n ih =>
    rw [runFor] at ht
    cases hs : step s with
    | next u =>
      rw [hs] at ht
      obtain ⟨a, b⟩ := step_stores hs hh
      cases n with
      | zero =>
        injection ht with ht
        exact ht ▸ b
      | succ n => exact ih u a ht (by omega)
    | fault f =>
      rw [hs] at ht
      cases ht
    | refused r =>
      rw [hs] at ht
      cases ht

/-- A byte of that frame that no store can touch: the run stores nothing, and 0x1002 holds 0. -/
theorem witness_SoftwareWaveformIsExact_memory :
    1 ≤ 2 ∧ 2 < (waveState.instAt 0).h.len.toNat ∧
      byteAddr (waveState.instAt 0).h.src (waveState.instAt 0).ctrl.reorder
        (waveState.instAt 0).ctrl.order 2 = 0x1002 ∧
      isBacked waveState.params 0x1002 = true ∧ (0x1002 : Word) ∉ waveState.raced[0] ∧
      ∀ e t, e ≤ 2400 → runFor (e + 1) waveState = .next t →
        ∀ c ∈ t.ports.stores ++ (waveState.env.getD e Env.quiet).stores, c.1 ≠ (0x1002 : Word) := by
  refine ⟨by decide, by decide +kernel, by decide +kernel, by decide +kernel, by decide +kernel,
    fun e t he ht c hc => ?_⟩
  have henv : (waveState.env.getD e Env.quiet) = Env.quiet := by
    show (List.replicate 2401 Env.quiet).getD e Env.quiet = _
    rw [List.getD_eq_getElem?_getD, List.getElem?_replicate, if_pos (by omega)]
    rfl
  rw [henv, runFor_stores (e + 1) waveState t (by decide +kernel) ht (by omega)] at hc
  cases hc

/-- The same with a FORCE_CLEAR, which reads nothing. -/
theorem witness_SoftwareWaveformIsExact_silent :
    let x := ((accepted loaded 0x103).forceClear tp 1 9).countAttempt.loadFirst 0
    x.silent = true ∧ x.h.cur = 0 ∧ x.phase = .awaitSlot ∧ x.h.first = true := by decide +kernel

theorem witness_ScaleBrightness : (1 : Byte) ≠ 0 ∧ (255 : Byte) ≠ 0 := by decide

theorem witness_ByteOrderIsPermutation :
    byteAddr 0xFFFFFFFE true .o210 0 = 0 ∧
      (3 % 3 = 0 ∧ 2 < 3) ∧ byteOffset true .o210 0 = byteOffset true .o210 0 ∧
      Machine.orderOf 5 = some .o210 ∧ Machine.orderOf 6 = none ∧
      Order.code .o120 = 3 ∧ Order.code .o201 = 4 := by decide

theorem witness_BitsMostSignificantFirst : 7 < 8 := by decide

/-- A frame that reads and one that does not, at its last byte; a byte the memory holds. -/
theorem witness_FetchReadsInsideFrame :
    (sys atGate 9).inst.Running ∧ 2 < (sys atGate 9).inst.h.len.toNat ∧
      ((sys atGate 9).inst.h.bright ≠ 0 ∧ (sys atGate 9).inst.h.null = false) ∧
      (sys ((accepted loaded 2).showDecode 0) 9).inst.Running ∧
      (sys ((accepted loaded 2).showDecode 0) 9).inst.h.bright = 0 ∧
      isBacked (sys atGate 9).params 0x1002 = true ∧ (0x1002 : Word) ∉ (sys atGate 9).raced[0] := by
  unfold Inst.Running
  decide +kernel

theorem witness_HardwareStartAcquiresSlot :
    (sys { atGateHw with h := { atGateHw.h with len := 0 } } 9).inst.h.len = 0 ∧
      ((sys atGateHw 9).inst.h.len ≠ 0 ∧ (sys atGateHw 9).arb = []) ∧
      ((sys atGateHw 9).setArb [0, 1]).inst.h.len ≠ 0 ∧
      ((sys atGateHw 9).setArb [0, 1]).arb = 0 :: [1] := by decide +kernel

/-- Done in the cycle of the timeout, the timeout alone, one cycle before it. -/
theorem witness_HardwareWaitReleasesSlot :
    (let s := waiting atGateHw true 1500;
      s.inst.phase = .hwWait ∧ s.inst.h.hwT.toNat ≤ s.cycle.toNat ∧
        (s.chanAt s.inst.h.hwJ).done = true) ∧
      (let s := waiting atGateHw false 1500;
        s.inst.phase = .hwWait ∧ (s.chanAt s.inst.h.hwJ).done = false ∧
          s.inst.cfg.hwTimeout.toNat ≤ s.cycle.toNat - s.inst.h.hwT.toNat) ∧
      (let s := waiting atGateHw false 1499;
        ¬ s.inst.cfg.hwTimeout.toNat ≤ s.cycle.toNat - s.inst.h.hwT.toNat) := by decide +kernel

/-- A step that grants the slot at the head of the list, and one that grants none. -/
theorem witness_ArbiterGrantsFreeSlotsInOrder :
    (∃ t, seqStep ((sys atGateHw 5000).setArb [0, 1]) = .next t ∧ t.arb = [1]) ∧
      (∃ t, seqStep ((sys atGateHw 5).setArb [0, 1]) = .next t ∧ t.arb = [0, 1]) := by
  obtain ⟨t, ht, hp⟩ := next_of_answers (o := seqStep ((sys atGateHw 5000).setArb [0, 1]))
    (P := fun t => decide (t.arb = [1])) (by decide +kernel)
  obtain ⟨u, hu, hq⟩ := next_of_answers (o := seqStep ((sys atGateHw 5).setArb [0, 1]))
    (P := fun t => decide (t.arb = [0, 1])) (by decide +kernel)
  exact ⟨⟨t, ht, by simpa using hp⟩, ⟨u, hu, by simpa using hq⟩⟩

/-- The smallest pull; an exhausted channel, no slot, the first and the last byte of a slot, the byte
behind it, a null slot. -/
theorem witness_TranslateCountsItems :
    8 ≤ 8 ∧ (0 : Word) = 0 ∧ (3 : Word) ≠ 0 ∧
      pullSlot (waiting atGateHw false 0).pool 0 0x2000 = none ∧
      pullSlot (waiting atGateHw false 0).pool 0 0x1000 = some 1 ∧
      pullSlot (waiting atGateHw false 0).pool 0 0x1002 = some 1 ∧
      pullSlot (waiting atGateHw false 0).pool 0 0x1003 = none ∧
      (isBacked (waiting atGateHw false 0).params 0x1002 = true ∧
        (waiting atGateHw false 0).racedFor 0 0x1002 = false ∧
        ((waiting atGateHw false 0).slotAt 1).bright ≠ 0) ∧
      (((waiting atGateHw false 0).slotAt 0).inUse = false) ∧
      (let s := waiting ((accepted loadedHw 0x103).forceClear tp 1 9) false 0;
        (s.slotAt 1).inUse = true ∧ (s.slotAt 1).null = true ∧ pullSlot s.pool 1 0 = some 1) := by
  decide +kernel

theorem witness_SilentPullSendsBit0 :
    (let s := waiting ((accepted loadedHw 0x103).forceClear tp 1 9) false 0;
      (3 : Word) ≠ 0 ∧ pullSlot s.pool 1 0 = some 1 ∧ (s.slotAt 1).null = true) ∧
      (let s := waiting ((accepted loadedHw 2).showDecode 0) false 0;
        pullSlot s.pool 1 0x1000 = some 1 ∧ (s.slotAt 1).bright = 0) := by decide +kernel

theorem witness_TranslateReadsInsideSlot :
    (waiting atGateHw false 0).Inv ∧
      pullSlot (waiting atGateHw false 0).pool 1 0x1000 = some 1 :=
  ⟨waiting_inv _ _, by decide +kernel⟩

/-- A kick; an idle channel without one; a stop of a running one, with done drawn or not; a transmission that has ended, one
cycle before done and at it; one that reaches the idle item, with a latency and without; one that emits,
with an answer, with none of its items and without; an item under emission. -/
theorem witness_ChannelContract :
    ((waiting atGateHw false 0).kick 1 0x1000 3).ports.kicks.find? (fun k => k.chan == 1) =
        some { chan := 1, base := 0x1000, len := 3 } ∧
      ((waiting atGateHw false 0).ports.kicks.find? (fun k => k.chan == 0) = none ∧
        ((waiting atGateHw false 0).chanAt 0).phase = .idle) ∧
      ((1 : Fin 15) ∈ ((waiting atGateHw false 0).stop 1).ports.stops ∧
        ((waiting atGateHw false 0).stop 1).ports.kicks.find? (fun k => k.chan == 1) = none) ∧
      (let s := ((sys loaded 0).setChanAt 1 emitting).stop 1;
        let e : Env := { Env.quiet with chans := [.quiet, { ChanDraw.quiet with doneAfterStop := true }] };
        (1 : Fin 15) ∈ s.ports.stops ∧ s.ports.kicks.find? (fun k => k.chan == 1) = none ∧
          (s.chanAt 1).phase = .running ∧
          emit s.params [] s.params.fPeriph 0 0 (s.chanAt 1).fifo ≠ none ∧
          (chanDrawOf e 1).doneAfterStop = true ∧ (chanDrawOf e 1).latency = 0 ∧
          (chanNext e s 1).done = true ∧ (chanNext Env.quiet s 1).done = false) ∧
      (let s := (sys loaded 0).setChanAt 1 { Channel.reset with phase := .ended, lag := 1 };
        (s.chanAt 1).phase = .ended ∧ (s.chanAt 1).lag ≠ 0 ∧ (1 : Fin 15) ∉ s.ports.stops) ∧
      (let s := (sys loaded 0).setChanAt 1 { Channel.reset with phase := .ended };
        (s.chanAt 1).phase = .ended ∧ (s.chanAt 1).lag = 0 ∧
          (chanNext Env.quiet s 1).done = true) ∧
      (let s := (sys loaded 0).setChanAt 1 { emitting with fifo := [idleItem] };
        (s.chanAt 1).phase = .running ∧
          emit s.params [] s.params.fPeriph 0 0 (s.chanAt 1).fifo = none ∧
          (ChanDraw.quiet.latency = 0 ∧ ({ ChanDraw.quiet with latency := 3 } : ChanDraw).latency ≠ 0)) ∧
      (let s := (sys loaded 0).setChanAt 1 emitting;
        emit s.params [] s.params.fPeriph 0 0 (s.chanAt 1).fifo =
            some { wait := 0, pos := s.params.fPeriph, fifo := emitting.fifo } ∧
          s.ports.pulls.find? (fun a => a.chan == 1) = none ∧
          (s.logPull (answerPull 1 0x1000 3 8 [] 0)).ports.pulls.find? (fun a => a.chan == 1) =
            some (answerPull 1 0x1000 3 8 [] 0) ∧
          (s.chanAt 1).wait = 0 ∧ (s.chanAt 1).fifo = template 32 100 :: [idleItem]) := by
  decide +kernel

/-- Inputs in which the channel under test asks for n items. -/
def pulling (n : BitVec 16) : Env :=
  { Env.quiet with chans := [.quiet, { ChanDraw.quiet with pull := some n }] }

/-- A running channel that asks for the fewest and for the most items, for one fewer and for one more,
with PREEMPT and with the reset low; one outside the build. -/
theorem witness_ChannelContract_pulls :
    ([(pulling 8, 1), (pulling 64, 1), (pulling 7, 0), (pulling 65, 0),
        ({ pulling 8 with preempt := 0xFF }, 1), ({ pulling 8 with rstLow := true }, 1)].all
      (fun (e, n) => answers (step { waiting atGateHw false 0 with env := [e] })
        (fun t => t.ports.pulls.length == n &&
          t.ports.pulls == t.ports.pulls.filter (fun a => a.chan == 1)))) = true ∧
      ((waiting atGateHw false 0).params.hasPulsegen = true ∧
        (1 : Fin 15).val < (waiting atGateHw false 0).params.nCh ∧
        ((waiting atGateHw false 0).chanAt 1).phase = .running ∧
        ¬ (2 : Fin 15).val < (waiting atGateHw false 0).params.nCh) := by decide +kernel

/-- RETRY 1 without INT_TOL, with it; ORDER 5, 6 and 7. -/
theorem witness_CtrlWriteIsLegalised :
    loaded.status.busy = false ∧
      (((0x100 : Word).getLsbD 1 && tp.intTolSupported) = false ∧
        (0x100 : Word).extractLsb' 8 4 ≠ 0) ∧
      ((0x102 : Word).getLsbD 1 && tp.intTolSupported) = true ∧
      (0x30 : Word).extractLsb' 3 3 = 6 ∧ (0x38 : Word).extractLsb' 3 3 = 7 ∧
      ((0x28 : Word).extractLsb' 3 3 ≠ 6 ∧ (0x28 : Word).extractLsb' 3 3 ≠ 7 ∧
        (0x28 : Word).extractLsb' 8 4 = 0) := by decide +kernel

theorem witness_StatusAndCmdWrites :
    loaded.status.busy = false ∧ atGate.status.busy = true := by decide +kernel

/-- An undriven line, a driven one on either backend. -/
theorem witness_StatusWordLayout :
    ((sys loaded 0).instAt 0).pins.doutOe = false ∧
      (let s := waiting (driven atGateHw) false 9;
        (s.instAt 0).pins.doutOe = true ∧ (s.instAt 0).phase = .hwWait) ∧
      (((sys (driven loaded) 0).instAt 0).pins.doutOe = true ∧
        ((sys (driven loaded) 0).instAt 0).phase ≠ .hwWait) := by decide +kernel

/-- The run of `test_run` ends in its cycle 0. -/
theorem witness_RunEndsAtFirstIdleCycle :
    (sys loaded 0).params.legal ∧
      (observe 0 1 ((sys loaded 0).setHostAt 0 [.read 0x7C .word])).isSome = true ∧
      runFor 0 ((sys loaded 0).setHostAt 0 [.read 0x7C .word]) =
        .next ((sys loaded 0).setHostAt 0 [.read 0x7C .word]) ∧
      runEnds ((sys loaded 0).setHostAt 0 [.read 0x7C .word]) 0 = true ∧
      runEnds ((sys loaded 0).setHostAt 0 [.write 0x0C .word 0]) 0 = false ∧
      (runEnds ((sys loaded 0).setHostAt 0 [.idle 0, .idle 1, .idle 0]) 0 = true ∧
        runEnds ((sys loaded 0).setHostAt 0 [.idle 2]) 0 = false ∧
        runEnds ((sys loaded 0).setHostAt 0 [.waitIdle]) 0 = true ∧
        runEnds ((sys loaded 0).setHostAt 0 [.memw 0 []]) 0 = false ∧
        runEnds (sys atGate 0) 0 = false) :=
  ⟨tp_legal, by decide +kernel, rfl, by decide +kernel⟩

theorem witness_PlainRegistersStoreOrDrop :
    loaded.status.busy = false ∧ atGate.status.busy = true ∧ Reg.slack ≠ .clkFreq := by
  decide +kernel

/-- A misaligned offset, a narrow access (at the first reserved offset too), the first and the last
reserved offset, the last register's offset. -/
theorem witness_IgnoredAccesses :
    (0x41 : BitVec 8).toNat % 4 ≠ 0 ∧ AccessSize.half ≠ .word ∧
      (128 ≤ (0x80 : BitVec 8).toNat ∧ (0x80 : BitVec 8).toNat % 4 = 0) ∧
      (128 ≤ (0xFC : BitVec 8).toNat ∧ (0xFC : BitVec 8).toNat % 4 = 0) ∧
      (loaded.busWrite tp 0x80 .byte 5).status.wrIgnored = true ∧
      ((0x7C : BitVec 8).toNat % 4 = 0 ∧ (0x7C : BitVec 8).toNat < 128) := by decide +kernel

theorem witness_CycleReadsThroughLatch : (0x78 : BitVec 8) ≠ 0x74 := by decide

/-- A stalled gate and a stalled wait that holds a slot. -/
theorem witness_StalledSequencerHolds :
    (∃ t, (sysEnv atGate 5000 preempted).Inv ∧ step (sysEnv atGate 5000 preempted) = .next t) ∧
      ((sysEnv atGate 5000 preempted).input.rstLow = false ∧
        ((sysEnv atGate 5000 preempted).instAt 0).phase = .gate ∧
        preemptOf (sysEnv atGate 5000 preempted).input 0 = true) ∧
      ((waiting atGateHw false 9).Inv ∧ ((waiting atGateHw false 9).instAt 0).ctrl.intTol = true ∧
        ((waiting atGateHw false 9).slotAt 1).inUse = true ∧
        ((waiting atGateHw false 9).slotAt 1).owner = 0) := by
  obtain ⟨t, ht, -⟩ := next_of_answers (o := step (sysEnv atGate 5000 preempted))
    (P := fun _ => true) (by decide +kernel)
  exact ⟨⟨t, sys_inv _ _ _ ok_atGate (by decide +kernel), ht⟩, by decide +kernel, waiting_inv _ _,
    by decide +kernel⟩

theorem witness_EndedCommandIsReported :
    ∃ t, (sys (accepted loaded 0) 9).Inv ∧ step (sys (accepted loaded 0) 9) = .next t ∧
      (sys (accepted loaded 0) 9).input.rstLow = false ∧
      ((sys (accepted loaded 0) 9).instAt 0).status.busy = true ∧
      (t.instAt 0).status.busy = false := by
  obtain ⟨t, ht, hp⟩ := next_of_answers (o := step (sys (accepted loaded 0) 9))
    (P := fun t => decide ((t.instAt 0).status.busy = false)) (by decide +kernel)
  exact ⟨t, sys_inv _ _ _ (ok_accepted 0) (by simp [accepted, Inst.acceptCmd]), ht,
    by decide +kernel, by decide +kernel, by simpa using hp⟩

/-- The end of a SHOW attempt, which counts a frame; a command that counts none. -/
theorem witness_StatisticsAreMonotone :
    (∃ t, (sys (inLoop .finalLow (atEof atFirst)) 1100).Inv ∧
        step (sys (inLoop .finalLow (atEof atFirst)) 1100) = .next t ∧
        (t.instAt 0).stats.frames = 1) ∧
      (sys (inLoop .finalLow (atEof atFirst)) 1100).input.rstLow = false ∧
      ((sys (inLoop .finalLow (atEof atFirst)) 1100).instAt 0).phase ≠ .decode ∧
      (accepted loaded 4).h.cmdword.toNat % 256 ≠ 2 := by
  obtain ⟨t, ht, hp⟩ := next_of_answers (o := step (sys (inLoop .finalLow (atEof atFirst)) 1100))
    (P := fun t => decide ((t.instAt 0).stats.frames = 1)) (by decide +kernel)
  exact ⟨⟨t, sys_inv _ _ _ ok_final (by decide +kernel), ht, by simpa using hp⟩, by decide +kernel,
    by decide +kernel, by decide +kernel⟩

theorem witness_ConfigurationFixedWhileBusy :
    (∃ t, (sys atGate 5000).Inv ∧ step (sys atGate 5000) = .next t) ∧
      (sys atGate 5000).input.rstLow = false ∧ ((sys atGate 5000).instAt 0).status.busy = true ∧
      ((sys atGate 5000).instAt 0).phase ≠ .decode := by
  refine ⟨witness_StepKeepsInv, ?_⟩
  decide +kernel

/-- A FORCE_CLEAR that ends in its DECODE cycle; a line that is driven. -/
theorem witness_ForceClearLeavesLineLow :
    (∃ t, (sys (accepted Inst.reset 0x203) 9).Inv ∧
        step (sys (accepted Inst.reset 0x203) 9) = .next t ∧ (t.instAt 0).status.busy = false) ∧
      (sys (accepted Inst.reset 0x203) 9).input.rstLow = false ∧
      ((sys (accepted Inst.reset 0x203) 9).instAt 0).status.busy = true ∧
      decode ((sys (accepted Inst.reset 0x203) 9).instAt 0).h.cmdword = .command (.forceClear 2) ∧
      (driven loaded).pins.doutOe = true := by
  obtain ⟨t, ht, hp⟩ := next_of_answers (o := step (sys (accepted Inst.reset 0x203) 9))
    (P := fun t => decide ((t.instAt 0).status.busy = false)) (by decide +kernel)
  exact ⟨⟨t, sys_inv _ _ _ (ok_acceptedReset _) (by simp [accepted, Inst.acceptCmd]), ht,
    by simpa using hp⟩, by decide +kernel, by decide +kernel, by decide +kernel, by decide +kernel⟩

/-- Inputs in which another agent stores to 0x1000. -/
def storing : Env := { Env.quiet with stores := [(0x1000, 0x55)] }

/-- The store reaches 0x1000 and races with the command that runs; 0x1001 is outside. -/
theorem witness_SourceSpaceOnlyChangedByStores :
    ∃ t, step (sysEnv atGate 9 storing) = .next t ∧
      ((t.ports.stores ++ (sysEnv atGate 9 storing).input.stores).all
        (fun c => c.1.toNat != 0x1001) = true) ∧
      t.ports.stores ++ (sysEnv atGate 9 storing).input.stores = [] ++ (0x1000, 0x55) :: [] ∧
      memFind t.mem 0x1000 = some 0x55 ∧ t.raced[0] = [0x1000] ∧
      Memory.wf (sysEnv atGate 9 storing).mem = true ∧
      (sysEnv atGate 9 storing).input.rstLow = false ∧
      ((sysEnv atGate 9 storing).instAt 0).status.busy = true := by
  obtain ⟨t, ht, hp⟩ := next_of_answers (o := step (sysEnv atGate 9 storing))
    (P := fun t => (t.ports.stores ++ (sysEnv atGate 9 storing).input.stores).all
        (fun c => c.1.toNat != 0x1001) && (memFind t.mem 0x1000 == some 0x55) &&
        (t.raced[0] == [0x1000]) &&
        (t.ports.stores ++ (sysEnv atGate 9 storing).input.stores == [(0x1000, 0x55)]))
    (by decide +kernel)
  simp only [Bool.and_eq_true, beq_iff_eq] at hp
  exact ⟨t, ht, hp.1.1.1, hp.2, hp.1.1.2, hp.1.2, by decide +kernel⟩

/-- A store before the command, one in its accepting cycle, one in a cycle of reset. -/
theorem witness_SourceSpaceOnlyChangedByStores_races :
    answers (step (sysEnv loaded 9 storing)) (fun t => t.raced[0] == []) = true ∧
      answers (step ((sysEnv loaded 9 storing).setHostAt 0 [.write 0x0C .word 4]))
        (fun t => t.raced[0] == [0x1000]) = true ∧
      answers (step (sysEnv atGate 9 { storing with rstLow := true }))
        (fun t => t.raced[0] == []) = true ∧
      ((sysEnv loaded 9 storing).instAt 0).status.busy = false ∧
      ((sysEnv loaded 9 storing).instAt 0).phase = .idle := by decide +kernel

/-- Instance 1 takes its turn while instance 0 holds slot 1 and slot 0 is still to be granted. -/
theorem witness_InstancesShareOnlyThePool :
    (waiting atGateHw false 9).Inv ∧
      (∃ t, seqStep ((((waiting atGateHw false 9).setArb [0])).focus 1) = .next t) ∧
      (∀ j ∈ ((waiting atGateHw false 9).setArb [0]).arb,
        (((waiting atGateHw false 9).setArb [0]).slotAt j).inUse = false) ∧
      ((waiting atGateHw false 9).slotAt 1).inUse = true ∧
      ((waiting atGateHw false 9).slotAt 1).owner ≠ 1 := by
  obtain ⟨t, ht, -⟩ := next_of_answers
    (o := seqStep ((((waiting atGateHw false 9).setArb [0])).focus 1)) (P := fun _ => true)
    (by decide +kernel)
  exact ⟨waiting_inv _ _, ⟨t, ht⟩, by decide +kernel, by decide +kernel, by decide +kernel⟩

/-- A host with each kind of statement. -/
theorem witness_HostPerformsStatementsInOrder :
    ((sys loaded 9).setHostAt 0 [.read 0x08 .word]).hostAt 0 = .read 0x08 .word :: [] ∧
      ((sys loaded 9).setHostAt 0 [.write 0x0C .word 4]).hostAt 0 = .write 0x0C .word 4 :: [] ∧
      ((sys loaded 9).setHostAt 0 [.idle 1]).hostAt 0 = .idle (0 + 1) :: [] ∧
      ((sys loaded 9).setHostAt 0 [.idle 0]).hostAt 0 = .idle 0 :: [] ∧
      ((sys loaded 9).setHostAt 0 [.waitIdle]).hostAt 0 = .waitIdle :: [] ∧
      ((sys loaded 9).setHostAt 0 [.memw 0x1000 [1, 2]]).hostAt 0 = .memw 0x1000 [1, 2] :: [] ∧
      1 < [(1 : Byte), 2].length := by decide +kernel

/-- A cycle with `rst_n` high in which the hosts of both instances of the build act, one of them on an
instance that is stalled, and a host outside the build does not. -/
theorem witness_HostPerformsStatementsInOrder_cycle :
    let s := (((sysEnv atGate 9 preempted).setHostAt 0 [.memw 0x2000 [7]]).setHostAt 1
      [.read 0x7C .word]).setHostAt 2 [.read 0x7C .word]
    answers (step s) (fun t => t.ports.stores == [(0x2000, 7)] && t.ports.rdata[1] == some 0 &&
        t.ports.rdata[2] == none && t.hostAt 2 == [.read 0x7C .word]) = true ∧
      s.input.rstLow = false ∧ (1 : Fin 8) ≠ 0 ∧
      ((0 : Fin 8).val < s.params.nInst ∧
        (s.instAt 0).stalled (preemptOf s.input 0) = true) ∧
      ((1 : Fin 8).val < s.params.nInst ∧ (s.instAt 1).phase = .idle) ∧
      s.params.nInst ≤ (2 : Fin 8).val := by decide +kernel

end Sys2Proof.Machine.Tests
end

section
/-! The machine never stops: every cycle of a legal build answers a next state (R34). -/

namespace Sys2Proof.Machine

/-- However many sequencers step, and whatever the instances' phases and commands. -/
theorem seqSteps_next (l : List (Fin 8)) (s : State) : ∃ t, seqSteps l s = .next t := by
  obtain ⟨t, ht, -⟩ := seqSteps_keeps (fun _ => True) (fun _ _ _ _ _ => trivial) l s trivial
  exact ⟨t, ht⟩

/-- The hosts' phase, the peripherals and the cycle's end stop nothing, so with `rst_n` high only the
sequencers could (R35). -/
theorem runCycle_next (s : State) (e : Env) : ∃ t, runCycle s e = .next t := by
  obtain ⟨u, hu⟩ := seqSteps_next (s.movers e) (hostPhase s e)
  exact ⟨closeCycle s (peripheralPhase s e u), by simp [runCycle, hu]⟩

/-- With `rst_n` low the cycle is the reset cycle (R420). -/
theorem step_of_rstLow {s : State} (hl : s.params.legal) (hr : s.input.rstLow = true) :
    step s = .next (resetCycle s s.input) := by
  simp [step, clockCycle, hl, hr]

/-- With `rst_n` high the cycle is that of R35. -/
theorem step_of_rstHigh {s : State} (hl : s.params.legal) (hr : s.input.rstLow = false) :
    step s = runCycle s s.input := by
  simp [step, clockCycle, hl, hr]

/-- A build outside R9 is no machine (log 4). -/
theorem step_of_illegal {s : State} (hl : ¬ s.params.legal) : step s = .fault .illegalBuild := by
  simp [step, clockCycle, hl]

/-- A cycle of a legal build always answers a next state, whatever `rst_n` is. -/
theorem step_next {s : State} (hl : s.params.legal) : ∃ t, step s = .next t := by
  cases hr : s.input.rstLow with
  | true => exact ⟨_, step_of_rstLow hl hr⟩
  | false =>
    rw [step_of_rstHigh hl hr]
    exact runCycle_next s s.input

/-- Settles O8, by the level of `rst_n`: a reset cycle always ends, and a running one does because
every sequencer step answers a next state. -/
theorem stepCompletes : Obligations.StepCompletes :=
  fun _ => ⟨step_next, step_of_illegal⟩

end Sys2Proof.Machine
end

section
/-! The invariant of Safety.lean: the reset machine has it, and every cycle keeps it (10_state.md R81,
R277, R278). -/

namespace Sys2Proof.Machine

/-- A machine whose instances and slots are all in their reset state is well kept (R81, R421). -/
theorem State.inv_of_reset {s : State} (hl : s.params.legal) (hi : ∀ k, s.instAt k = Inst.reset)
    (hs : ∀ j, s.slotAt j = Slot.reset) (hm : Memory.wf s.mem = true) (ha : s.arb = []) : s.Inv := by
  refine ⟨hl, fun k => hi k ▸ Inst.reset_ok _, fun k _ => hi k, ⟨fun j hj => ?_, fun k hk => ?_,
    fun j _ => hs j⟩, hm, ha⟩
  · simp [hs, Slot.reset] at hj
  · simp [hi, Inst.reset] at hk

/-- Settles O12: the reset machine of a legal build has every instance and slot in its reset state. -/
theorem resetMeetsInv : Obligations.ResetMeetsInv := by
  have reset (p : Params) (hl : p.legal) : (State.resetOf p).Inv :=
    State.inv_of_reset hl (State.resetOf_instAt p) (State.resetOf_slotAt p)
      (State.resetOf_mem_wf p) rfl
  exact ⟨reset, reset Params.atReset (by decide)⟩

@[simp] theorem State.resetUnit_instAt (s : State) (k : Fin 8) :
    s.resetUnit.instAt k = Inst.reset := by simp [State.instAt, State.resetUnit]

@[simp] theorem State.resetUnit_slotAt (s : State) (j : Fin 15) :
    s.resetUnit.slotAt j = Slot.reset := by simp [State.slotAt, State.resetUnit]

/-- The source space after a cycle with `rst_n` low holds the cycle's stores (R425). -/
theorem resetCycle_mem (s : State) (e : Env) :
    (resetCycle s e).mem = storeAll s.mem (s.cycleStores e) :=
  (peripheralPhase_only _ e _).mem.trans (hostPhase_spec s e).mem

theorem resetCycle_params (s : State) (e : Env) : (resetCycle s e).params = s.params :=
  (peripheralPhase_only _ e _).params.trans (hostPhase_spec s e).params

/-- A cycle with `rst_n` low ends in the invariant, whatever the state of the unit (R420). -/
theorem resetCycle_inv {s : State} (hl : s.params.legal) (hm : Memory.wf s.mem = true) (e : Env) :
    (resetCycle s e).Inv := by
  refine State.inv_of_reset ?_ (State.resetUnit_instAt _) (State.resetUnit_slotAt _) ?_ rfl
  · rw [resetCycle_params]
    exact hl
  · rw [resetCycle_mem]
    exact Memory.wf_storeAll _ _ hm

/-- The invariant of a turn is the machine's once no grant is left over. -/
theorem State.Turning.inv {s t : State} (h : s.Turning) (hp : t.params = s.params)
    (hi : t.insts = s.insts) (hs : t.pool = s.pool) (hm : t.mem = s.mem) (ha : t.arb = []) :
    t.Inv := by
  have inst (k : Fin 8) : t.instAt k = s.instAt k := by simp [State.instAt, hi]
  have slot (j : Fin 15) : t.slotAt j = s.slotAt j := by simp [State.slotAt, hs]
  refine ⟨hp ▸ h.legal, fun k => ?_, fun k hk => ?_, ?_, hm ▸ h.mem, ha⟩
  · rw [inst, hp]
    exact h.ok k
  · rw [inst]
    exact h.outside k (hp ▸ hk)
  · simp only [State.PoolOk, inst, slot, hp]
    exact h.pool

/-- The peripherals and the cycle's end turn the invariant of a turn into the machine's. -/
theorem State.Turning.closeCycle {u : State} (h : u.Turning) (s : State) (e : Env) :
    (closeCycle s (peripheralPhase s e u)).Inv :=
  have o := peripheralPhase_only s e u
  h.inv o.params o.insts o.pool o.mem rfl

/-- The sequencers of a list of instances of the build keep the invariant of a turn. -/
theorem State.Turning.seqSteps {l : List (Fin 8)} {s t : State} (h : s.Turning)
    (hl : ∀ k ∈ l, k.val < s.params.nInst) (ht : seqSteps l s = .next t) : t.Turning := by
  induction l generalizing s with
  | nil =>
    injection ht with ht
    exact ht ▸ h
  | cons k ks ih =>
    obtain ⟨u, hu, hut⟩ := seqSteps_cons ht
    have huk : u.Turning := (h.focus k).seqStep (hl k (by simp)) hu
    refine ih huk (fun i hi => ?_) hut
    rw [(seqStep_turn hu).1.params]
    exact hl i (by simp [hi])

/-- The movers of a cycle are instances of the build. -/
theorem State.movers_lt (s : State) (e : Env) :
    ∀ k ∈ s.movers e, k.val < (hostPhase s e).params.nInst := fun k hk => by
  rw [(hostPhase_spec s e).params]
  exact ((s.mem_movers e k).mp hk).1

/-- Settles O13: with `rst_n` low the reset state is well kept; with `rst_n` high the hosts' part
establishes the invariant of a turn, every sequencer's turn keeps it, and the cycle's end closes it. -/
theorem stepKeepsInv : Obligations.StepKeepsInv := by
  intro s t h hst
  obtain ⟨hl, ⟨-, rfl⟩ | ⟨-, u, hu, rfl⟩⟩ := step_cases hst
  · obtain ⟨-, -, -, -, hm, -⟩ := h
    exact resetCycle_inv hl hm _
  · exact ((h.hostPhase _).seqSteps (s.movers_lt _) hu).closeCycle s _

end Sys2Proof.Machine
end

section
/-! A cycle around one instance's turn, and the cycle counter (10_state.md R32, R35). -/

namespace Sys2Proof.Machine

/-- Settles O9, by the level of `rst_n` in the cycle. -/
theorem cycleCounterAdvances : Obligations.CycleCounterAdvances := by
  refine ⟨fun _ => rfl, fun s t h => ?_⟩
  obtain ⟨-, ⟨hr, rfl⟩ | ⟨hr, u, -, rfl⟩⟩ := step_cases h
  · exact ⟨fun hf => absurd (hr.symm.trans hf) (by decide), fun _ => rfl⟩
  · refine ⟨fun _ => ?_, fun hf => absurd (hr.symm.trans hf) (by decide)⟩
    exact BitVec.toNat_add s.cycle 1

/-- What a cycle with `rst_n` high answers (R35). -/
theorem step_run {s t : State} (h : step s = .next t) (hr : s.input.rstLow = false) :
    ∃ w, seqSteps (s.movers s.input) (hostPhase s s.input) = .next w ∧
      t = closeCycle s (peripheralPhase s s.input w) := by
  obtain ⟨-, ⟨hlow, -⟩ | ⟨-, run⟩⟩ := step_cases h
  · exact absurd (hlow.symm.trans hr) (by decide)
  · exact run

theorem seqSteps_append {l m : List (Fin 8)} {s u : State} (h : seqSteps l s = .next u) :
    seqSteps (l ++ m) s = seqSteps m u := by
  induction l generalizing s with
  | nil =>
    injection h with h
    exact h ▸ rfl
  | cons k ks ih =>
    obtain ⟨v, hv, hu⟩ := seqSteps_cons h
    simpa only [List.cons_append, seqSteps, hv] using ih hu

/-- The turn of a mover stands once among the movers'. -/
theorem State.movers_split {s : State} {e : Env} {k : Fin 8} (h : k ∈ s.movers e) :
    ∃ before after, s.movers e = before ++ k :: after ∧ k ∉ before ∧ k ∉ after := by
  obtain ⟨before, after, hs⟩ := List.append_of_mem h
  have hn := hs ▸ s.movers_nodup e
  have hk := (List.nodup_cons.mp (List.nodup_middle.mp hn)).1
  rw [List.mem_append, not_or] at hk
  exact ⟨before, after, hs, hk.1, hk.2⟩

theorem seqStep_decode {s : State} {i : Instr} (hp : s.inst.phase = .decode)
    (hd : decode s.inst.h.cmdword = .command i) : seqStep s = exec i s := by
  simp [seqStep, hp, decodeStep, hd]

/-- The sequencers, whichever move, find the source space with the cycle's stores (R35, R115). -/
theorem seqSteps_hostPhase_mem {s : State} {e : Env} {l : List (Fin 8)} {u : State}
    (h : seqSteps l (hostPhase s e) = .next u) : u.mem = storeAll s.mem (u.ports.stores ++ e.stores) := by
  have o := (seqSteps_only h).1
  rw [o.mem, o.stores, (hostPhase_spec s e).mem, State.cycleStores, hostPhase_ports]

/-- Settles O7: the movers before k reach the machine of k's turn, which its own host alone has changed
of k; the cycle is then k's turn, the movers after it and the cycle's end. -/
theorem stepRunsDecodedCommand : Obligations.StepRunsDecodedCommand := by
  intro s k hl hr hk hp hst
  have hmover : k ∈ s.movers s.input := (s.mem_movers _ k).mpr ⟨hk, by simp [moves, hp, hst]⟩
  obtain ⟨before, after, hsplit, hbefore, hafter⟩ := State.movers_split hmover
  obtain ⟨u, hu⟩ := seqSteps_next before (hostPhase s s.input)
  obtain ⟨only, others⟩ := seqSteps_only hu
  have g := hostPhase_spec s s.input
  have hinst : u.instAt k = (hostPhase s s.input).instAt k := others k hbefore
  have hcycle : seqSteps (s.movers s.input) (hostPhase s s.input) = seqSteps (k :: after) u := by
    rw [hsplit, seqSteps_append hu]
  refine ⟨before, after, u, hsplit, hu, ?_, only.params.trans g.params, only.cycle.trans g.cycle,
    only.chans.trans g.chans, seqSteps_hostPhase_mem hu, ?_, fun v t hv ht => ?_,
    fun i hb hd hi => ?_⟩
  · exact hr ▸ hinst.trans ((hostPhase_turn s s.input k).1 hk).inst
  · rw [step_of_rstHigh hl hr, runCycle, hcycle]
    simp only [seqSteps]
    cases seqStep (u.focus k) <;> rfl
  · obtain ⟨w, hw, rfl⟩ := step_run ht hr
    rw [hcycle] at hw
    obtain ⟨v', hv', hw⟩ := seqSteps_cons hw
    obtain rfl : v = v' := by
      rw [hv] at hv'
      injection hv'
    exact ((peripheralPhase_only s s.input w).instAt k).trans ((seqSteps_only hw).2 k hafter)
  · have ack := hostMove_ack (g.insts k) hb
    rw [← hinst] at ack
    refine seqStep_decode ?_ ?_
    · exact ack.phase.trans hd
    · show decode (u.instAt k).h.cmdword = _
      rw [ack.h, hi]

end Sys2Proof.Machine
end

section
/-! ADVANCE in the software bit loop (41_sw_encoder.md R223). -/

namespace Sys2Proof.Machine

/-- ADVANCE shifts inside a byte exactly while the mask is above its last bit (R223). -/
theorem mask_shift_ne_zero_iff (m : Byte) : m >>> 1 ≠ 0 ↔ 2 ≤ m.toNat := by
  rw [ne_eq, BitVec.toNat_eq, BitVec.toNat_ushiftRight, Nat.shiftRight_eq_div_pow]
  show ¬ m.toNat / 2 ^ 1 = 0 ↔ _
  omega

/-- Settles O30: `advance_only` says what ADVANCE leaves alone, `advance_inst` which of its three cases
the mask and the cursor select. -/
theorem advanceMovesOneBit : Obligations.AdvanceMovesOneBit := by
  intro s x
  have o := advance_only s
  have last (h : x.h.mask.toNat < 2) : ¬ x.h.mask >>> 1 ≠ 0 := by
    rw [mask_shift_ne_zero_iff]
    omega
  refine ⟨o.others, o.pool, o.chans, o.mem, o.cycle, fun h => ?_, fun h he => ?_, fun h hn => ?_⟩
  · have e : (advance s).inst = x.shiftMask := by
      rw [advance_inst, if_pos ((mask_shift_ne_zero_iff _).mpr h)]
    rw [e]
    exact ⟨rfl, by simp [Inst.shiftMask, Nat.shiftRight_eq_div_pow]⟩
  · have e : x.h.mask >>> 1 = 0 := Classical.not_not.mp (last h)
    rw [advance_inst, if_neg (last h), if_pos he]
    simp [Inst.shiftMask, Inst.markEof, e, x]
  · rw [advance_inst, if_neg (last h), if_neg hn]
    rfl

end Sys2Proof.Machine
end

section
/-! The register window: its words as numbers, its map, and what an access to it does (10_state.md R39 to
R59, 20_memory.md R101 to R103). -/

namespace Sys2Proof.Machine

/-- A concatenation as a number: the high part above the low one. -/
theorem append_toNat {m n : Nat} (a : BitVec m) (b : BitVec n) :
    (a ++ b).toNat = a.toNat * 2 ^ n + b.toNat := by
  rw [BitVec.toNat_append, ← Nat.shiftLeft_add_eq_or_of_lt b.isLt, Nat.shiftLeft_eq]

/-- CTRL as a number (R42). -/
theorem Ctrl.word_toNat (c : Ctrl) :
    c.word.toNat = c.backend.toNat + 2 * c.intTol.toNat + 4 * c.reorder.toNat +
      8 * c.order.code.toNat + 64 * c.dbgEn.toNat + 128 * c.irqEn.toNat + 256 * c.retry.toNat := by
  simp only [Ctrl.word, append_toNat, BitVec.toNat_ofBool, BitVec.ofNat_eq_ofNat,
    BitVec.toNat_ofNat]
  omega

/-- STATUS as a number (R44). -/
theorem statusWord_toNat (st : Status) (ph : Phase) :
    (statusWord st ph).toNat =
      st.busy.toNat + 2 * st.lastOk.toNat + 4 * st.profileValid.toNat +
      8 * st.hwProfileValid.toNat + 16 * st.irqPend.toNat + 32 * st.wrIgnored.toNat +
      2 ^ 8 * st.err.code.toNat + 2 ^ 12 * ph.code.toNat +
      2 ^ 16 * st.attempts.toNat + 2 ^ 24 * st.hwChan.toNat := by
  simp only [statusWord, append_toNat, BitVec.toNat_ofBool, BitVec.ofNat_eq_ofNat,
    BitVec.toNat_ofNat]
  omega

/-- PINS as a number (R57). -/
theorem pinsWord_toNat (x : Inst) :
    (pinsWord x).toNat = x.pins.dout.toNat + 2 * x.pins.doutOe.toNat + 4 * x.pins.dbgStart.toNat +
      8 * x.pins.dbgAbort.toNat + 16 * x.routed.toNat := by
  simp only [pinsWord, append_toNat, BitVec.toNat_ofBool, BitVec.ofNat_eq_ofNat,
    BitVec.toNat_ofNat]
  omega

/-! Each register's write (R39, R43 to R45, R59). -/

section
variable (p : Params) (x : Inst) (w : Word)

theorem writeReg_status : x.writeReg p .status w = x.writeStatus w := rfl

theorem writeReg_cmd :
    x.writeReg p .cmd w = if x.status.busy then x.markIgnored else x.acceptCmd w := rfl

theorem writeReg_ctrl :
    x.writeReg p .ctrl w = if x.status.busy then x.markIgnored else x.writeCtrl p w := rfl

theorem writeReg_plain {r : Reg} (h : isPlainRw r = true) :
    x.writeReg p r w =
      if x.status.busy then x.markIgnored else { x with cfg := x.cfg.write r w } := by
  have hs : r ≠ .status := by rintro rfl; cases h
  have hc : r ≠ .cmd := by rintro rfl; cases h
  have ht : r ≠ .ctrl := by rintro rfl; cases h
  simp [Inst.writeReg, hs, hc, ht, h]

theorem writeReg_readOnly {r : Reg}
    (h : r ≠ .status ∧ r ≠ .cmd ∧ r ≠ .ctrl ∧ isPlainRw r = false) : x.writeReg p r w = x := by
  obtain ⟨hs, hc, ht, hp⟩ := h
  simp [Inst.writeReg, hs, hc, ht, hp]

/-- A write that is not 32 bits at a multiple of 4 (R101). -/
theorem busWrite_bad {off : BitVec 8} {z : AccessSize} (h : z ≠ .word ∨ off.toNat % 4 ≠ 0) :
    x.busWrite p off z w = x.markIgnored := if_pos h

end

/-! Which offsets hold a register (R40, R58). -/

theorem regOffset_aligned (r : Reg) : r.offset.toNat % 4 = 0 ∧ r.offset.toNat < 128 := by
  cases r <;> decide

theorem regAt_some {off : BitVec 8} {r : Reg} (h : regAt off = some r) : r.offset = off := by
  simpa using List.find?_some h

theorem regAt_eq_none {off : BitVec 8} (h : off.toNat % 4 ≠ 0 ∨ 128 ≤ off.toNat) :
    regAt off = none := by
  cases e : regAt off with
  | none => rfl
  | some r =>
    have := regOffset_aligned r
    rw [regAt_some e] at this
    omega

theorem busRead_of_none (now : Time) (x : Inst) {off : BitVec 8} (z : AccessSize)
    (h : regAt off = none) : busRead now x off z = 0 := by simp [busRead, h]

/-- The registers fill the window word by word (R40). -/
theorem allRegs_offset : ∀ i : Fin 32, (allRegs[i.val]'i.isLt).offset.toNat = 4 * i.val := by decide

theorem exists_reg {off : BitVec 8} (ha : off.toNat % 4 = 0) (hl : off.toNat < 128) :
    ∃ r : Reg, r.offset = off := by
  have h := allRegs_offset ⟨off.toNat / 4, by omega⟩
  refine ⟨_, BitVec.eq_of_toNat_eq (h.trans ?_)⟩
  show 4 * (off.toNat / 4) = off.toNat
  omega

/-! What a configuration register reads back after a write. -/

theorem readReg_write_self (now : Time) (x : Inst) (w : Word) {r : Reg} (h : isPlainRw r = true) :
    readReg now { x with cfg := x.cfg.write r w } r = w := by
  cases r
  case clkFreq | t0hNs | t1hNs | periodNs | resetNs | mindispNs | slack | srcAddr | srcLen
    | periphFreq | hwTimeout => rfl
  all_goals cases h

theorem readReg_write_ne (now : Time) (x : Inst) (w : Word) {r q : Reg} (h : q ≠ r) :
    readReg now { x with cfg := x.cfg.write r w } q = readReg now x q := by
  cases q
  case clkFreq | t0hNs | t1hNs | periodNs | resetNs | mindispNs | slack | srcAddr | srcLen
    | periphFreq | hwTimeout => cases r <;> simp [readReg, Settings.write] at h ⊢
  all_goals rfl

/-- Settles O46: the write is legalised, and the legalised retry budget decides whether it is kept. -/
theorem ctrlWriteIsLegalised : Obligations.CtrlWriteIsLegalised := by
  intro p x w hb y tol
  have hy : y = x.writeCtrl p w := by
    show x.busWrite p Reg.ctrl.offset .word w = _
    rw [busWrite_reg, writeReg_ctrl, hb]
    rfl
  have hbad : (ctrlLegalised p x.ctrl w).budgetInvalid = (!tol && decide (w.extractLsb' 8 4 ≠ 0)) :=
    rfl
  refine ⟨fun ⟨ht, hr⟩ => ?_, fun h => ?_, fun now => y.ctrl.word_toNat⟩
  · rw [hy, Inst.writeCtrl, hbad, ht, decide_eq_true hr]
    rfl
  · have hok : y = { x with ctrl := ctrlLegalised p x.ctrl w } := by
      rw [hy, Inst.writeCtrl, hbad, if_neg (by rcases h with h | h <;> simp [h])]
    have ho := orderOf_getD (w.extractLsb' 3 3) x.ctrl.order
    rw [hok]
    exact ⟨rfl, rfl, rfl, rfl, rfl, rfl, rfl, ho.1, ho.2⟩

/-- Settles O47, register by register. -/
theorem statusAndCmdWrites : Obligations.StatusAndCmdWrites := by
  intro p x w now
  have hs : x.busWrite p 0x08 .word w = x.writeStatus w :=
    (busWrite_reg p x .status w).trans (writeReg_status p x w)
  have hc : x.busWrite p 0x0C .word w = x.writeReg p .cmd w := busWrite_reg p x .cmd w
  refine ⟨?_, fun hb => ?_, fun hb => ?_, busRead_reg now x .cmd⟩
  · rw [hs, Inst.writeStatus]
    cases w.getLsbD 4 <;> cases w.getLsbD 5 <;> simp
  · rw [hc, writeReg_cmd, hb]
    rfl
  · rw [hc, writeReg_cmd, hb]
    rfl

/-- Settles O48: each word as the sum of its fields, and the line's level by the two bits it depends on. -/
theorem statusWordLayout : Obligations.StatusWordLayout := by
  refine ⟨fun s k => ⟨fun h => ?_, fun h hp => ?_, fun h hp => ?_⟩, fun x now =>
    ⟨statusWord_toNat x.status x.phase, (pinsWord_toNat x).trans ?_, by decide, by decide⟩⟩
  · simp [State.lineLevel, h]
  · simp [State.lineLevel, Inst.routed, h, hp]
  · simp [State.lineLevel, Inst.routed, h, hp]
  · by_cases h : x.phase = .hwWait <;> simp [Inst.routed, h]

/-- Settles O50: every register of the list is a plain one at its offset. -/
theorem plainRegistersStoreOrDrop : Obligations.PlainRegistersStoreOrDrop := by
  intro p x w now
  refine ⟨fun hb => ?_, ?_⟩
  · show x.busWrite p Reg.ctrl.offset .word w = _
    rw [busWrite_reg, writeReg_ctrl, hb]
    rfl
  · intro c hc
    have hmap : c.1.offset = c.2 ∧ isPlainRw c.1 = true := by
      revert c
      decide
    obtain ⟨ho, hp⟩ := hmap
    rw [← ho, busWrite_reg, writeReg_plain p x w hp, busRead_reg]
    refine ⟨fun hb => ?_, fun hb => ?_⟩
    · rw [hb]
      rfl
    · rw [hb, if_neg Bool.false_ne_true]
      exact ⟨rfl, readReg_write_self now x w hp, fun q hq => readReg_write_ne now x w hq⟩

/-- Settles O51: the map of the window, and what an access outside it does. -/
theorem ignoredAccesses : Obligations.IgnoredAccesses := by
  intro p x now off z w
  refine ⟨fun ha => ?_, fun hz => ?_, fun hl ha => ?_, fun o ho => ?_, fun c hc => ?_, exists_reg⟩
  · exact ⟨busRead_of_none now x z (regAt_eq_none (.inl ha)), busWrite_bad p x w (.inr ha)⟩
  · exact busWrite_bad p x w (.inl hz)
  · have hn : regAt off = none := regAt_eq_none (.inr hl)
    refine ⟨busRead_of_none now x z hn, fun hz => ?_⟩
    rw [Inst.busWrite, if_neg (by simp [hz, ha]), hn]
  · have hro : ∃ r ∈ allRegs, r.offset = o ∧
        r ≠ .status ∧ r ≠ .cmd ∧ r ≠ .ctrl ∧ isPlainRw r = false := by
      revert o
      decide
    obtain ⟨r, -, rfl, hr⟩ := hro
    rw [busWrite_reg, writeReg_readOnly p x w hr]
  · have hmap : c.2.offset = c.1 := by
      revert c
      decide
    exact ⟨hmap ▸ busRead_reg now x c.2, hmap⟩

/-- The two words of a cycle number (R102). -/
theorem lowWord_add_highWord (t : Time) : (lowWord t).toNat + 2 ^ 32 * (highWord t).toNat = t.toNat := by
  have := t.isLt
  simp only [lowWord, highWord, BitVec.extractLsb'_toNat, Nat.shiftRight_eq_div_pow]
  omega

/-- Settles O52: the latch keeps the high word of the cycle in which the low word was read. -/
theorem cycleReadsThroughLatch : Obligations.CycleReadsThroughLatch := by
  intro x now later off
  have hlatch : x.afterRead now 0x74 = { x with hiLatch := highWord now } := if_pos rfl
  have hlo : busRead now x 0x74 .word = lowWord now := busRead_reg now x .cycleLo
  have hhi (y : Inst) : busRead later y 0x78 .word = y.hiLatch := busRead_reg later y .cycleHi
  refine ⟨?_, ?_, fun h => if_neg h⟩
  · rw [hlo, hhi, hlatch]
    exact lowWord_add_highWord now
  · rw [hlatch]

/-- The registers of an instance in its reset state (R40). -/
theorem readReg_reset (r : Reg) :
    readReg 0 Inst.reset r =
      if r = .id then 0x4E505801 else if r = .status then 0x0F000000
      else if r = .hwTimeout then 0xFFFFFFFF else 0 := by
  cases r <;> decide

/-- Settles O11: every instance and every slot of the reset machine is in its reset state. -/
theorem resetRegisterValues : Obligations.ResetRegisterValues := by
  intro p k j x q
  have hx : x = Inst.reset := State.resetOf_instAt p k
  have hq : q = Slot.reset := State.resetOf_slotAt p j
  have hline : (State.resetOf p).lineLevel k = none := by
    simp [State.lineLevel, Inst.reset, Pins.reset]
  rw [hx, hq, hline]
  exact ⟨readReg_reset, by decide⟩

end Sys2Proof.Machine
end

section
/-! What instances keep from one another, and what a command keeps of its own instance's configuration
(10_state.md R59, R78, 40_profile.md R179, 60_exceptions.md R390). -/

namespace Sys2Proof.Machine

/-! ## The pool between instances -/

/-- An instance that waits on a slot in use owns it, so a slot of another owner is not the one it waits
on (R278). -/
theorem State.PoolOk.hwJ_ne {s : State} (h : s.PoolOk) {k : Fin 8} {j : Fin 15}
    (ho : (s.slotAt j).owner ≠ k) (hw : (s.instAt k).phase = .hwWait) : (s.instAt k).h.hwJ ≠ j := by
  obtain ⟨-, hwait, -⟩ := h
  rintro rfl
  exact ho (hwait k hw).2

/-- A sequencer's step leaves a slot that another instance holds as it is (R278). -/
theorem seqStep_slot_of_other {s t : State} {k : Fin 8} {j : Fin 15} (hp : s.PoolOk)
    (ha : ∀ j ∈ s.arb, (s.slotAt j).inUse = false) (ht : seqStep (s.focus k) = .next t)
    (hu : (s.slotAt j).inUse = true) (ho : (s.slotAt j).owner ≠ k) : t.slotAt j = s.slotAt j := by
  refine seqStep_slot_kept (s := s.focus k) ht (fun hj => ?_) (fun hw => State.PoolOk.hwJ_ne (s := s) hp ho hw)
  simp [ha j hj] at hu

/-- Settles O59: `seqStep_only` says what a step leaves alone, and of the pool it can touch only a free
slot and the one it waits on. -/
theorem instancesShareOnlyThePool : Obligations.InstancesShareOnlyThePool := by
  intro s t k h ha ht
  obtain ⟨-, -, -, hp, -, -⟩ := h
  have o := seqStep_only ht
  exact ⟨o.others, fun j hu ho => seqStep_slot_of_other hp ha ht hu ho, o.chans,
    fun a => by rw [o.mem]; rfl, o.params, o.cycle⟩

/-- The sequencers of a list of other instances of the build leave an instance's slot as it is. -/
theorem seqSteps_slot_of_others {l : List (Fin 8)} {s t : State} {k : Fin 8} {j : Fin 15}
    (h : s.Turning) (hl : ∀ i ∈ l, i.val < s.params.nInst) (hk : k ∉ l)
    (ht : seqSteps l s = .next t) (hu : (s.slotAt j).inUse = true) (ho : (s.slotAt j).owner = k) :
    t.slotAt j = s.slotAt j := by
  induction l generalizing s with
  | nil =>
    injection ht with ht
    exact ht ▸ rfl
  | cons i is ih =>
    obtain ⟨u, hs, hut⟩ := seqSteps_cons ht
    rw [List.mem_cons, not_or] at hk
    have hkept : u.slotAt j = s.slotAt j :=
      seqStep_slot_of_other h.pool (fun q hq => (h.arbFree q hq).2.2) hs hu (ho ▸ hk.1)
    have huk : u.Turning := (h.focus i).seqStep (hl i (by simp)) hs
    have hp : u.params = s.params := (seqStep_turn hs).1.params
    rw [← hkept]
    exact ih huk (fun q hq => hp ▸ hl q (by simp [hq])) hk.2 hut (hkept ▸ hu) (hkept ▸ ho)

/-! ## A stalled sequencer -/

/-- The stall condition of R390 in the statement's words. -/
theorem Inst.stalled_of {x : Inst} (h : x.ctrl.intTol = true ∨
    (x.phase ≠ .awaitSlot ∧ x.phase ≠ .holdHigh ∧ x.phase ≠ .finalLow)) : x.stalled true = true := by
  rcases h with h | ⟨h1, h2, h3⟩
  · simp [Inst.stalled, h]
  · have hb : x.phase.isBitLoop = false := by cases e : x.phase <;> simp_all [Phase.isBitLoop]
    simp [Inst.stalled, hb]

/-- A slot of an instance that takes no step in a cycle stays as it is (R278, R390). -/
theorem step_slot_of_unmoved {s t : State} {k : Fin 8} {j : Fin 15} (hI : s.Inv)
    (h : step s = .next t) (hr : s.input.rstLow = false) (hk : moves s s.input k = false)
    (hu : (s.slotAt j).inUse = true) (ho : (s.slotAt j).owner = k) : t.slotAt j = s.slotAt j := by
  obtain ⟨w, hw, rfl⟩ := step_run h hr
  have hs : (hostPhase s s.input).slotAt j = s.slotAt j := by
    simp [State.slotAt, (hostPhase_spec s s.input).pool]
  have hk' : k ∉ s.movers s.input := fun hm => by simp [((s.mem_movers _ k).mp hm).2] at hk
  refine ((peripheralPhase_only s s.input w).slotAt j).trans (Eq.trans ?_ hs)
  exact seqSteps_slot_of_others (hI.hostPhase _) (s.movers_lt _) hk' hw (hs ▸ hu) (hs ▸ ho)

/-- Settles O53: a stalled sequencer is not among the movers, so its instance ends the cycle as its
host's access left it, and a host access to a busy instance acknowledges at most. -/
theorem stalledSequencerHolds : Obligations.StalledSequencerHolds := by
  intro s t k hI h hr hp hpre hst
  have hbusy : (s.instAt k).status.busy = true := (hI.2.1 k).busy hp
  have hm : moves s s.input k = false := by simp [moves, hpre, Inst.stalled_of hst]
  obtain ⟨u, -, ack, -, hkept⟩ := step_turn_busy h hr k hbusy
  have ht : t.instAt k = u.instAt k := hkept (fun e => by simp [hm] at e)
  rw [ht]
  exact ⟨ack.phase, ack.h, ack.prof, ack.stats, ack.pins, ack.busy.trans hbusy, ack.err,
    fun j hu ho => step_slot_of_unmoved hI h hr hm hu ho, (cycleCounterAdvances.2 s t h).1 hr⟩

/-! ## What a step keeps of an instance's configuration -/

/-- What R59 fixes while a command runs: the configuration registers and the command word. -/
def Inst.setup (x : Inst) : Ctrl × Settings × Word := (x.ctrl, x.cfg, x.h.cmdword)

/-- What LOAD_PROFILE alone writes (R179): the profile and its validity flags. -/
def Inst.profiles (x : Inst) : Profile × Bool × Bool :=
  (x.prof, x.status.profileValid, x.status.hwProfileValid)

/-- Setup and profile together. -/
def Inst.config (x : Inst) : (Ctrl × Settings × Word) × (Profile × Bool × Bool) :=
  (x.setup, x.profiles)

theorem OnlyAck.config {x y : Inst} (h : OnlyAck x y) : y.config = x.config := by
  simp [Inst.config, Inst.setup, Inst.profiles, h.ctrl, h.cfg, h.h, h.prof, h.profileValid,
    h.hwProfileValid]

theorem OnlyDebugPins.config {x y : Inst} (h : OnlyDebugPins x y) : y.config = x.config := by
  simp [Inst.config, Inst.setup, Inst.profiles, h.ctrl, h.cfg, h.h, h.prof, h.status]

theorem OnlyStats.config {x y : Inst} (h : OnlyStats x y) : y.config = x.config := by
  simp [Inst.config, Inst.setup, Inst.profiles, h.ctrl, h.cfg, h.h, h.prof, h.status]

theorem OnlyAccess.profiles {x y : Inst} (h : OnlyAccess x y) : y.profiles = x.profiles := by
  simp [Inst.profiles, h.prof, h.profileValid, h.hwProfileValid]

section
variable (x : Inst)
@[simp] theorem finish_config (ok : Bool) (c : ErrCode) : (x.finish ok c).config = x.config := rfl
@[simp] theorem enterGate_config (t : Time) (d : Word) : (x.enterGate t d).config = x.config := rfl
@[simp] theorem spendRetry_config : x.spendRetry.config = x.config := rfl
@[simp] theorem raise_config (c : Time) : (x.raise c).config = x.config := rfl
@[simp] theorem shiftMask_config : x.shiftMask.config = x.config := rfl
@[simp] theorem markEof_config : x.markEof.config = x.config := rfl
@[simp] theorem loadNext_config (b : Byte) : (x.loadNext b).config = x.config := rfl
@[simp] theorem goTo_config (p : Phase) : (x.goTo p).config = x.config := rfl
end

/-- The end of an attempt keeps the configuration (R306). -/
@[simp] theorem endAttempt_config (x : Inst) (ok : Bool) (c : ErrCode) (f : Time) :
    (x.endAttempt ok c f).config = x.config := by
  have fail : ((x.noteEnd false f).noteError c).config = x.config :=
    (noteError_only (x.noteEnd false f) c).config.trans (noteEnd_only x false f).config
  unfold Inst.endAttempt Inst.showAfterFail Inst.forceClearAfterFail
  split
  · rw [finish_config, (noteEnd_only x true f).config]
  · split <;> split <;> simp [fail]

/-! The actions of each phase. -/

theorem showDecode_config (b : Byte) (x : Inst) : (x.showDecode b).config = x.config := by
  unfold Inst.showDecode
  split
  · rfl
  · split <;> rfl

theorem forceClear_config (p : Params) (n : Nat) (d : Time) (x : Inst) :
    (x.forceClear p n d).config = x.config := by
  unfold Inst.forceClear
  split <;> rfl

theorem loadProfile_setup (p : Params) (x : Inst) : (x.loadProfile p).setup = x.setup := by
  unfold Inst.loadProfile
  split <;> rfl

theorem abort_config (c : Time) (x : Inst) : (x.abort c).config = x.config :=
  endAttempt_config _ _ _ _

theorem swStart_config (s : State) : (swStart s).inst.config = s.inst.config := by
  rw [swStart_inst]
  split
  · exact endAttempt_config _ _ _ _
  · rfl

theorem hwStart_config (s : State) : (hwStart s).inst.config = s.inst.config := by
  have ended (ok : Bool) (c : ErrCode) :
      (s.onInst fun x => (x.setHwChan 0xF).endAttempt ok c s.cycle).inst.config = s.inst.config := by
    rw [State.onInst_inst]
    exact endAttempt_config _ _ _ _
  unfold hwStart
  split
  · exact ended _ _
  · split
    · exact ended _ _
    · rw [grantSlot_inst]
      rfl

theorem gateStep_config (s : State) : (gateStep s).inst.config = s.inst.config := by
  have started : (s.onInst fun x => x.countAttempt.toggleStart).inst.config = s.inst.config := by
    rw [State.onInst_inst]
    exact (toggleStart_only s.inst.countAttempt).config
  unfold gateStep startAttempt
  split
  · split
    · exact (hwStart_config _).trans started
    · exact (swStart_config _).trans started
  · rfl

theorem raiseAndAdvance_config (s : State) : (raiseAndAdvance s).inst.config = s.inst.config := by
  rw [raiseAndAdvance_inst, goTo_config]
  split
  · simp
  · split <;> simp

theorem awaitSlotStep_config (s : State) : (awaitSlotStep s).inst.config = s.inst.config := by
  unfold awaitSlotStep
  split
  · exact raiseAndAdvance_config s
  · split
    · rw [State.onInst_inst, abort_config]
    · split
      · exact raiseAndAdvance_config s
      · rfl

theorem holdHighStep_config (s : State) : (holdHighStep s).inst.config = s.inst.config := by
  unfold holdHighStep
  split
  · rw [State.onInst_inst, abort_config]
  · split
    · rw [State.onInst_inst]
      rfl
    · rfl

theorem finalLowStep_config (s : State) : (finalLowStep s).inst.config = s.inst.config := by
  unfold finalLowStep
  split
  · rw [State.onInst_inst, endAttempt_config]
  · rfl

theorem hwWaitStep_config (s : State) : (hwWaitStep s).inst.config = s.inst.config := by
  unfold hwWaitStep
  split
  · rw [State.onInst_inst]
    exact endAttempt_config _ _ _ _
  · split
    · rw [State.onInst_inst]
      exact endAttempt_config _ _ _ _
    · rfl

/-- The DECODE cycle of an instance running LOAD_PROFILE, the one step that writes a profile (R179). -/
def Inst.LoadsProfile (x : Inst) : Prop :=
  x.phase = .decode ∧ decode x.h.cmdword = .command .loadProfile

/-- `y` is `x` with its setup kept, and with its profile kept unless `x` loads it. -/
def ConfigKept (x y : Inst) : Prop := y.setup = x.setup ∧ (¬ x.LoadsProfile → y.profiles = x.profiles)

theorem ConfigKept.of_config {x y : Inst} (h : y.config = x.config) : ConfigKept x y :=
  ⟨congrArg Prod.fst h, fun _ => congrArg Prod.snd h⟩

/-- In its DECODE cycle an instance keeps its configuration, whatever the command word (R59, R179). -/
theorem decodeStep_configKept {s t : State} (hp : s.inst.phase = .decode)
    (h : decodeStep s = .next t) : ConfigKept s.inst t.inst := by
  have keep (f : Inst → Inst) (hf : (f s.inst).config = s.inst.config) :
      ConfigKept s.inst (s.onInst f).inst := by
    rw [State.onInst_inst]
    exact .of_config hf
  unfold decodeStep at h
  split at h
  · injection h with h
    exact h ▸ keep _ rfl
  · rename_i i hdec
    cases i <;> injection h with h <;> subst h
    case loadProfile =>
      rw [State.onInst_inst]
      exact ⟨loadProfile_setup _ _, fun hn => absurd ⟨hp, hdec⟩ hn⟩
    case showFrame b => exact keep _ (showDecode_config _ _)
    case forceClear n => exact keep _ (forceClear_config _ _ _ _)
    all_goals exact keep _ rfl

/-- A sequencer's step keeps the configuration, and but for the DECODE cycle of LOAD_PROFILE the
profile (R59, R179). -/
theorem seqStep_configKept {s t : State} (h : seqStep s = .next t) : ConfigKept s.inst t.inst := by
  unfold seqStep at h
  split at h
  case h_2 hp => exact decodeStep_configKept hp h
  all_goals injection h with h; subst h; apply ConfigKept.of_config
  · rfl
  · exact gateStep_config s
  · exact awaitSlotStep_config s
  · exact holdHighStep_config s
  · exact finalLowStep_config s
  · exact hwWaitStep_config s

/-- A busy instance in a cycle: its host changes nothing of its configuration, and its sequencer's step
only the profile that it loads. -/
theorem step_configKept {s t : State} (h : step s = .next t) (hr : s.input.rstLow = false) {k : Fin 8}
    (hb : (s.instAt k).status.busy = true) : ConfigKept (s.instAt k) (t.instAt k) := by
  obtain ⟨u, -, ack, hmove, hkept⟩ := step_turn_busy h hr k hb
  have host := ConfigKept.of_config ack.config
  by_cases hk : k.val < s.params.nInst ∧ moves s s.input k = true
  · obtain ⟨v, hv, hvt⟩ := hmove hk
    obtain ⟨setup, profiles⟩ := seqStep_configKept hv
    rw [hvt, ← seqStep_inst hv]
    refine ⟨setup.trans host.1, fun hn => (profiles ?_).trans (host.2 hn)⟩
    show ¬ (u.instAt k).LoadsProfile
    rwa [Inst.LoadsProfile, ack.phase, ack.h]
  · rw [hkept hk]
    exact host

/-- An idle instance takes no step, and no host access writes the profile (R47, R53). -/
theorem step_profiles_of_idle {s t : State} (h : step s = .next t) (hr : s.input.rstLow = false)
    {k : Fin 8} (hi : (s.instAt k).phase = .idle) : (t.instAt k).profiles = (s.instAt k).profiles := by
  obtain ⟨u, -, m, -, hkept⟩ := step_turn h hr k
  rw [hkept fun e => by simp [not_moves_of_idle hi] at e]
  exact (hostMove_access m).profiles

/-- Settles O56: a busy instance keeps its configuration but for a profile it loads, and one that is not
busy is idle. -/
theorem configurationFixedWhileBusy : Obligations.ConfigurationFixedWhileBusy := by
  intro s t k hI h hr
  refine ⟨fun hb => ?_, fun hn => ?_⟩
  · simpa [Inst.setup] using (step_configKept h hr hb).1
  · have profiles : (t.instAt k).profiles = (s.instAt k).profiles := by
      cases hb : (s.instAt k).status.busy with
      | true => exact (step_configKept h hr hb).2 hn
      | false => exact step_profiles_of_idle h hr ((hI.2.1 k).idle hb)
    simpa [Inst.profiles] using profiles

end Sys2Proof.Machine
end

section
/-! The hosts: a turn statement by statement, and the one turn each takes in a cycle (20_memory.md R113,
30_encoding.md R137, R138). -/

namespace Sys2Proof.Machine

/-! ## A host's turn, statement by statement -/

theorem State.setHostAt_setHostAt (s : State) (k : Fin 8) (l m : List HostStmt) :
    (s.setHostAt k l).setHostAt k m = s.setHostAt k m := by simp [State.setHostAt]

theorem hostRead_setHostAt (rst : Bool) (s : State) (k : Fin 8) (l : List HostStmt) (off : BitVec 8)
    (z : AccessSize) :
    hostRead rst (s.setHostAt k l) k off z = (hostRead rst s k off z).setHostAt k l := by
  cases rst <;> rfl

theorem hostWrite_setHostAt (rst : Bool) (s : State) (k : Fin 8) (l : List HostStmt) (off : BitVec 8)
    (z : AccessSize) (w : Word) :
    hostWrite rst (s.setHostAt k l) k off z w = (hostWrite rst s k off z w).setHostAt k l := by
  cases rst <;> rfl

/-- IDLE 0 before a host's other statements makes no difference to its turn (R138, log 16). -/
theorem hostTurn_idle_zero (rst : Bool) {s : State} {k : Fin 8} {rest : List HostStmt}
    (h : s.hostAt k = .idle 0 :: rest) : hostTurn rst k s = hostTurn rst k (s.setHostAt k rest) := by
  have hskip : skipIdle (s.hostAt k) = skipIdle rest := by
    rw [h]
    rfl
  unfold hostTurn
  rw [hskip, State.hostAt_setHostAt_self]
  split
  · rw [State.setHostAt_setHostAt]
  · rw [hostRead_setHostAt, State.setHostAt_setHostAt]
  · rw [hostWrite_setHostAt, State.setHostAt_setHostAt]
  · rw [State.setHostAt_setHostAt]
  · rw [hostRead_setHostAt, State.setHostAt_setHostAt, State.setHostAt_setHostAt]
    rfl
  · exact (State.setHostAt_setHostAt _ k rest _).symm

/-- A read of STATUS latches nothing (R103). -/
theorem afterRead_status (now : Time) (x : Inst) : x.afterRead now Reg.status.offset = x :=
  if_neg (by decide)

/-- What WAIT_IDLE looks at is BUSY (R44, R138). -/
theorem hostReadValue_status_busy (s : State) (k : Fin 8) :
    (hostReadValue false s k Reg.status.offset .word).getLsbD 0 = (s.instAt k).status.busy := by
  show (busRead s.cycle (s.instAt k) Reg.status.offset .word).getLsbD 0 = _
  rw [busRead_reg]
  exact statusWord_busy _ _

theorem byteRun_length (a : Word) (bs : List Byte) : (byteRun a bs).length = bs.length := by
  induction bs generalizing a with
  | nil => rfl
  | cons b bs ih => simp [byteRun, ih]

/-- The i-th byte of a run goes i addresses further, modulo 2^32 (R138, log 26). -/
theorem byteRun_getElem? (a : Word) (bs : List Byte) (i : Nat) :
    (byteRun a bs)[i]? = bs[i]?.map fun b => (a + BitVec.ofNat 32 i, b) := by
  induction bs generalizing a i with
  | nil => rfl
  | cons b bs ih =>
    cases i with
    | zero => simp [byteRun]
    | succ i =>
      have ha : a + 1 + BitVec.ofNat 32 i = a + BitVec.ofNat 32 (i + 1) := by
        rw [BitVec.ofNat_add, BitVec.add_assoc, BitVec.add_comm 1]
        rfl
      rw [byteRun, List.getElem?_cons_succ, List.getElem?_cons_succ, ih, ha]

/-! ## A host in a cycle -/

/-- After a cycle with `rst_n` high the hosts, what they read and what they stored are as the host phase
left them, and so is an instance that takes no step (R35). -/
theorem step_hostPhase {s t : State} (h : step s = .next t) (hr : s.input.rstLow = false) :
    t.hosts = (hostPhase s s.input).hosts ∧
      t.ports.rdata = (hostPhase s s.input).ports.rdata ∧
      t.ports.stores = (hostPhase s s.input).ports.stores ∧
      ∀ k, k ∉ s.movers s.input → t.instAt k = (hostPhase s s.input).instAt k := by
  obtain ⟨w, hw, rfl⟩ := step_run h hr
  obtain ⟨o, oi⟩ := seqSteps_only hw
  have per := peripheralPhase_only s s.input w
  obtain ⟨rdata, -, -, stores⟩ := peripheralPhase_ports s s.input w
  exact ⟨per.hosts.trans o.hosts, rdata.trans o.rdata, stores.trans o.stores,
    fun k hk => (per.instAt k).trans (oi k hk)⟩

/-- The bytes stored in a cycle are those of each host's own turn, hosts by increasing id (log 25). -/
theorem hostPhase_stores (s : State) (e : Env) :
    (hostPhase s e).ports.stores =
      s.ids.flatMap (fun k => (hostTurn e.rstLow k s.openCycle).ports.stores) := by
  rw [hostPhase_ports, hostTurns_stores _ _ s.ids_nodup]
  exact List.flatMap_congr fun k _ => (hostTurn_spec e.rstLow k s.openCycle).stores.symm

/-- Settles O60: `hostTurn_spec` for each statement that can stand first in a host's list, and
`hostPhase_turn` for the one turn each host takes in a cycle. -/
theorem hostPerformsStatementsInOrder : Obligations.HostPerformsStatementsInOrder := by
  refine ⟨fun s k l hl => ?_, fun s t h hr => ?_, fun s k rest => ?_⟩
  · have o := (hostTurn_spec false k s).others l hl
    exact ⟨o.inst, o.host⟩
  · obtain ⟨hosts, rdata, stores, unmoved⟩ := step_hostPhase h hr
    have hstores := stores.trans (hostPhase_stores s s.input)
    rw [hr] at hstores
    refine ⟨hstores, fun k => ⟨fun hk => ?_, fun hk => ?_⟩⟩
    · have turn := (hostPhase_turn s s.input k).1 hk
      rw [hr] at turn
      refine ⟨?_, ?_, fun hstill => (unmoved k fun hm => ?_).trans turn.inst⟩
      · rw [← turn.host, State.hostAt, hosts]
        rfl
      · rw [rdata, turn.rdata]
      · have hmoves := ((s.mem_movers _ k).mp hm).2
        rcases hstill with hi | hs
        · simp [not_moves_of_idle hi] at hmoves
        · simp [moves, hs] at hmoves
    · have out := (hostPhase_turn s s.input k).2 hk
      refine ⟨?_, (unmoved k fun hm => ?_).trans out.inst, ?_⟩
      · rw [State.hostAt, hosts]
        exact out.host
      · exact absurd ((s.mem_movers _ k).mp hm).1 (Nat.not_lt.mpr hk)
      · rw [rdata, out.rdata]
        simp [State.openCycle, Ports.quiet]
  · obtain ⟨host, inst, rd, stores, -⟩ := hostTurn_spec false k s
    refine ⟨fun off z h => ?_, fun off z w h => ?_, fun n h => ?_, fun h => hostTurn_idle_zero false h,
      fun h => ?_, fun a bs h => ?_⟩
    · rw [h] at host inst rd
      exact ⟨host, rd, inst⟩
    · rw [h] at host inst
      exact ⟨host, inst⟩
    · rw [hostTurn, h]
      rfl
    · rw [h] at host inst rd
      refine ⟨inst.trans (afterRead_status s.cycle _), rd, host.trans ?_⟩
      rw [← hostReadValue_status_busy]
      rfl
    · rw [h] at host inst stores
      exact ⟨host, inst, byteRun a bs, stores, byteRun_length a bs, fun i _ => byteRun_getElem? a bs i⟩

end Sys2Proof.Machine
end

section
/-! The peripheral channels under their contract, and the pulls a cycle answers (42_hw_pulsegen.md R266,
R281, R282). -/

namespace Sys2Proof.Machine

/-! ## One channel under its contract -/

section
variable (p : Params) (c : Channel) (d : ChanDraw)

/-- The output is low in a channel that transmits nothing, pauses, or has no item (R281 item 4). -/
theorem Channel.level_low (h : c.phase ≠ .running ∨ c.wait ≠ 0 ∨ c.fifo = []) :
    c.level p = false := by
  unfold Channel.level
  split
  · rename_i hp hw hf
    simp [hp, hw, hf] at h
  · rfl

/-- The output while an item is under emission (R281 item 3). -/
theorem Channel.level_item {it : Word} {items : List Word} (hp : c.phase = .running) (hw : c.wait = 0)
    (hf : c.fifo = it :: items) :
    c.level p = if itemD0 it = 0 then false
      else if c.pos < itemD0 it * p.fClk then itemL0 it else itemL1 it := by
  rw [Channel.level, hp, hw, hf]
  rfl

/-- done rises at once or after the cycles drawn (R281 item 6). -/
theorem Channel.endTx_done (lag : Nat) :
    (lag = 0 → (c.endTx lag).phase = .idle ∧ (c.endTx lag).done = true) ∧
      (lag ≠ 0 → (c.endTx lag).phase = .ended ∧ (c.endTx lag).done = false ∧
        (c.endTx lag).lag + 1 = lag) := by
  refine ⟨fun h => by simp [Channel.endTx, h], fun h => ?_⟩
  simp only [Channel.endTx, h, if_false, decide_false, true_and]
  omega

theorem Channel.endTx_not_running (lag : Nat) : (c.endTx lag).phase ≠ .running := by
  simp only [Channel.endTx]
  split <;> simp

/-- After a stop nothing is transmitted (R282). -/
theorem Channel.stopped_not_running : (c.stopped d).phase ≠ .running := by
  unfold Channel.stopped
  split
  · simp [*]
  · split
    · exact c.endTx_not_running _
    · simp [Channel.fallSilent]
  · split
    · simp [*]
    · simp [Channel.fallSilent]

/-- A stop of a transmission under way: done after the latency drawn, or not at all (R282, log 10). -/
theorem Channel.stopped_of_running (h : c.phase = .running) :
    c.stopped d = if d.doneAfterStop then c.endTx d.latency else c.fallSilent := by
  rw [Channel.stopped, h]

/-- A stop of a transmission that ends or has ended: done that was due now stays, a later one comes or
not, as drawn (R282, log 10). -/
theorem Channel.stopped_of_endTx (lag : Nat) :
    (lag = 0 → ((c.endTx lag).stopped d).phase = .idle ∧ ((c.endTx lag).stopped d).done = true) ∧
      (lag ≠ 0 → d.doneAfterStop = true → ((c.endTx lag).stopped d).phase = .ended ∧
        ((c.endTx lag).stopped d).done = false ∧ ((c.endTx lag).stopped d).lag + 1 = lag) ∧
      (lag ≠ 0 → d.doneAfterStop = false → ((c.endTx lag).stopped d).phase = .idle ∧
        ((c.endTx lag).stopped d).done = false) := by
  obtain ⟨now, later⟩ := c.endTx_done lag
  refine ⟨fun h => ?_, fun h hd => ?_, fun h hd => ?_⟩
  · have e : (c.endTx lag).stopped d = c.endTx lag := by rw [Channel.stopped, (now h).1]
    rw [e]
    exact now h
  · have e : (c.endTx lag).stopped d = c.endTx lag := by simp [Channel.stopped, (later h).1, hd]
    rw [e]
    exact later h
  · have e : (c.endTx lag).stopped d = (c.endTx lag).fallSilent := by
      simp [Channel.stopped, (later h).1, hd]
    rw [e]
    exact ⟨rfl, rfl⟩

/-- A running channel goes on with what it has emitted up to `m` and the answer it gets (R281 item 2). -/
theorem Channel.settle_spec (m : Emission) (a : Option PullAnswer) :
    (c.settle m a).phase = c.phase ∧ (c.settle m a).done = c.done ∧ (c.settle m a).wait = m.wait ∧
      (c.settle m a).pos = m.pos ∧
      (a = none → (c.settle m a).addr = c.addr ∧ (c.settle m a).rem = c.rem ∧
        (c.settle m a).fifo = m.fifo) ∧
      (∀ b, a = some b → (c.settle m a).addr = c.addr + b.used ∧
        (c.settle m a).rem = c.rem - b.used ∧
        (c.settle m a).fifo = m.fifo ++ (if b.items = [] then [0] else b.items)) := by
  cases a with
  | none => exact ⟨rfl, rfl, rfl, rfl, fun _ => ⟨rfl, rfl, rfl⟩, fun b hb => nomatch hb⟩
  | some b =>
    refine ⟨rfl, rfl, rfl, rfl, (fun hb => nomatch hb), fun b' hb => ?_⟩
    obtain rfl := Option.some.inj hb
    exact ⟨rfl, rfl, rfl⟩

end

section
variable {e : Env} {s : State} {j : Fin 15}

theorem chanCycle_idle (h : (s.chanAt j).phase = .idle) : chanCycle e s j = s.chanAt j := by
  rw [chanCycle, Channel.cycle, h]

theorem chanCycle_ended (h : (s.chanAt j).phase = .ended) :
    chanCycle e s j = (s.chanAt j).endTx (s.chanAt j).lag := by
  rw [chanCycle, Channel.cycle, h]

/-- The emission of a running channel in this cycle, of F_PERIPH units (log 27). -/
def emission (e : Env) (s : State) (j : Fin 15) : Option Emission :=
  emit s.params (chanDrawOf e j).gaps s.params.fPeriph (s.chanAt j).wait (s.chanAt j).pos
    (s.chanAt j).fifo

theorem chanCycle_running (h : (s.chanAt j).phase = .running) :
    chanCycle e s j =
      match emission e s j with
      | none => (s.chanAt j).endTx (chanDrawOf e j).latency
      | some m => (s.chanAt j).settle m (s.ports.pulls.find? (fun a => a.chan == j)) := by
  rw [chanCycle, Channel.cycle, h]
  rfl

theorem chanNext_kicked {k : Kick} (h : s.ports.kicks.find? (fun k => k.chan == j) = some k) :
    chanNext e s j = kicked k (chanDrawOf e j) := by rw [chanNext, h]

theorem chanNext_stopped (h : s.ports.kicks.find? (fun k => k.chan == j) = none)
    (hs : j ∈ s.ports.stops) : chanNext e s j = (chanCycle e s j).stopped (chanDrawOf e j) := by
  rw [chanNext, h]
  exact if_pos (List.contains_iff_mem.mpr hs)

theorem chanNext_undisturbed (h : s.ports.kicks.find? (fun k => k.chan == j) = none)
    (hs : j ∉ s.ports.stops) : chanNext e s j = chanCycle e s j := by
  rw [chanNext, h]
  exact if_neg (fun hc => hs (List.contains_iff_mem.mp hc))

theorem chanNext_idle (h : s.ports.kicks.find? (fun k => k.chan == j) = none)
    (hi : (s.chanAt j).phase = .idle) : chanNext e s j = s.chanAt j := by
  by_cases hs : j ∈ s.ports.stops
  · rw [chanNext_stopped h hs, chanCycle_idle hi, Channel.stopped, hi]
  · rw [chanNext_undisturbed h hs, chanCycle_idle hi]

/-- A transmission that has ended, or ends in this cycle, with the cycles until done rises. -/
theorem chanCycle_ends {lag : Nat} (h : ((s.chanAt j).phase = .ended ∧ lag = (s.chanAt j).lag) ∨
    ((s.chanAt j).phase = .running ∧ emission e s j = none ∧ lag = (chanDrawOf e j).latency)) :
    chanCycle e s j = (s.chanAt j).endTx lag := by
  rcases h with ⟨h, rfl⟩ | ⟨h, hn, rfl⟩
  · exact chanCycle_ended h
  · rw [chanCycle_running h, hn]

theorem chanCycle_goesOn {m : Emission} (h : (s.chanAt j).phase = .running)
    (hm : emission e s j = some m) :
    chanCycle e s j = (s.chanAt j).settle m (s.ports.pulls.find? (fun a => a.chan == j)) := by
  rw [chanCycle_running h, hm]

/-- A stop in the cycle of a transmission that goes on otherwise (R282). -/
theorem chanNext_stop_running (h : s.ports.kicks.find? (fun k => k.chan == j) = none)
    (hs : j ∈ s.ports.stops) (hp : (s.chanAt j).phase = .running) (hm : emission e s j ≠ none) :
    chanNext e s j =
      if (chanDrawOf e j).doneAfterStop then (chanCycle e s j).endTx (chanDrawOf e j).latency
      else (chanCycle e s j).fallSilent := by
  obtain ⟨m, hm⟩ := Option.ne_none_iff_exists'.mp hm
  rw [chanNext_stopped h hs]
  refine Channel.stopped_of_running _ _ ?_
  rw [chanCycle_goesOn hp hm, (Channel.settle_spec _ m _).1, hp]

end

/-! ## The service of a cycle -/

/-- The translate service is given the machine `sc` and starts on `x`, both with the build and the
channels of the cycle's start `s`; nothing has been answered yet. -/
structure ServedFrom (s sc x : State) : Prop where
  scParams : sc.params = s.params
  scChans : sc.chans = s.chans
  params : x.params = s.params
  chans : x.chans = s.chans
  pulls : x.ports.pulls = []

/-- A channel after the service: outside the build untouched, else as its cycle leaves it. -/
theorem ServedFrom.chanAt {s sc x : State} (h : ServedFrom s sc x) (e : Env) (j : Fin 15) :
    (peripheralPhase sc e x).chanAt j =
      if j ∈ s.slots then chanNext e { s with ports := (peripheralPhase sc e x).ports } j
      else s.chanAt j := by
  have hx : x.chanAt j = s.chanAt j := by simp [State.chanAt, h.chans]
  have hslots : sc.slots = s.slots := by simp [State.slots, h.scParams]
  rw [(peripheralPhase_chan sc e x j).1, hslots, hx]
  exact ite_congr rfl (fun _ => chanNext_congr e hx h.params rfl) (fun _ => rfl)

/-- The answers a channel gets: one to the pull it makes, if it is a channel of the build. -/
theorem ServedFrom.answers {s sc x : State} (h : ServedFrom s sc x) (e : Env) (j : Fin 15) :
    ∃ u, OnlyServes x u ∧
      (peripheralPhase sc e x).ports.pulls.filter (fun a => a.chan == j) =
        if j ∈ s.slots then
          ((pullWanted s.params (s.chanAt j) (chanDrawOf e j)).map fun n =>
            translateAnswer sc.pool u j (s.chanAt j).addr (s.chanAt j).rem n).toList
        else [] := by
  have hc : sc.chanAt j = s.chanAt j := by simp [State.chanAt, h.scChans]
  have hslots : sc.slots = s.slots := by simp [State.slots, h.scParams]
  obtain ⟨u, hu, hans⟩ := (peripheralPhase_chan sc e x j).2
  refine ⟨u, hu, ?_⟩
  rw [hans, h.pulls, hslots, hc, h.scParams]
  cases pullWanted s.params (s.chanAt j) (chanDrawOf e j) <;> rfl

/-- The service of every cycle: its start, the machine it is given, and what it leaves to the next
state. With `rst_n` low that machine is the cleared one (log 18). -/
theorem step_served {s t : State} (h : step s = .next t) :
    ∃ sc x, ServedFrom s sc x ∧ t.chans = (peripheralPhase sc s.input x).chans ∧
      t.ports = (peripheralPhase sc s.input x).ports ∧ t.mem = x.mem ∧
      sc.pool = (if s.input.rstLow then (State.resetOf s.params).pool else s.pool) ∧
      (s.input.rstLow = false → t.insts = x.insts ∧ t.raced = x.raced) := by
  have g := hostPhase_spec s s.input
  have hpulls : (hostPhase s s.input).ports.pulls = [] := by
    rw [hostPhase_ports]
    exact (hostTurns_only _ _ _).pulls
  obtain ⟨-, ⟨hr, rfl⟩ | ⟨hr, w, hw, rfl⟩⟩ := step_cases h
  · refine ⟨s.resetUnit, hostPhase s s.input, ⟨rfl, rfl, g.params, g.chans, hpulls⟩, rfl, rfl,
      (peripheralPhase_only _ _ _).mem, by simp [hr, State.resetUnit, State.resetOf], ?_⟩
    simp [hr]
  · have o := (seqSteps_only hw).1
    have per := peripheralPhase_only s s.input w
    exact ⟨s, w, ⟨rfl, rfl, o.params.trans g.params, o.chans.trans g.chans, o.pulls.trans hpulls⟩, rfl,
      rfl, per.mem, by simp [hr], fun _ => ⟨per.insts, per.raced⟩⟩

/-- Settles O45: the service of a cycle answers each pull of the build once, and `chanNext` is the
contract, case by case of the kick, the stop and the channel's phase. -/
theorem channelContract : Obligations.ChannelContract := by
  refine ⟨fun s t j h => ?_, fun s e j => ?_⟩
  · intro c asks built answers
    obtain ⟨sc, x, served, hchans, hports, hmem, hpool, hrun⟩ := step_served h
    have hbuilt : j ∈ s.slots ↔ built := s.mem_slots j
    have hasks (n : BitVec 16) : pullWanted s.params c (chanDrawOf s.input j) = some n ↔ asks n :=
      pullWanted_iff s.params c (chanDrawOf s.input j) n
    have hchan : t.chanAt j = if j ∈ s.slots then chanNext s.input { s with ports := t.ports } j else c := by
      rw [hports, ← served.chanAt]
      simp [State.chanAt, hchans]
    obtain ⟨u, hu, hans⟩ := served.answers s.input j
    rw [← hports] at hans
    refine ⟨fun hb => ?_, fun hb => ?_, fun hn => ?_, fun n hb ha => ?_⟩
    · have hj := mt hbuilt.mp hb
      exact ⟨hchan.trans (if_neg hj), hans.trans (if_neg hj)⟩
    · exact hchan.trans (if_pos (hbuilt.mpr hb))
    · have hnone : pullWanted s.params c (chanDrawOf s.input j) = none :=
        Option.eq_none_iff_forall_ne_some.mpr fun n hs => hn n ((hasks n).mp hs)
      refine hans.trans ?_
      rw [hnone]
      exact ite_self _
    · refine ⟨{ u with pool := sc.pool }, hpool, hu.params.trans served.params,
        hu.mem.trans hmem.symm, fun hr => ?_, ?_⟩
      · exact ⟨hu.insts.trans (hrun hr).1.symm, hu.raced.trans (hrun hr).2.symm⟩
      · refine (hans.trans (if_pos (hbuilt.mpr hb))).trans ?_
        rw [(hasks n).mpr ha, translateAnswer_withPool]
        rfl
  · intro c d c' kick answer rest
    refine ⟨fun k hk => ?_, chanNext_idle, fun hk hs => ⟨?_, ?_, fun hp hm => ?_, fun lag hlag => ?_⟩,
      fun hk hs hp => ?_, fun hk hs hp hm => ?_, fun m hk hs hp hm => ?_,
      c.level_low s.params, fun it items => c.level_item s.params⟩
    · have hc : c' = kicked k d := chanNext_kicked hk
      rw [hc]
      exact ⟨rfl, rfl, rfl, rfl, rfl, Channel.level_low _ _ (.inr (.inr rfl))⟩
    · have hc : c' = _ := chanNext_stopped hk hs
      exact hc ▸ Channel.stopped_not_running _ _
    · have hc : c' = _ := chanNext_stopped hk hs
      exact hc ▸ Channel.level_low _ _ (.inl (Channel.stopped_not_running _ _))
    · have hc : c' = _ := chanNext_stop_running hk hs hp hm
      rw [hc]
      refine ⟨fun hd => ?_, fun hd hl => ?_, fun hd hl => ?_⟩
      · rw [hd]
        exact ⟨rfl, rfl⟩
      · rw [hd]
        exact (Channel.endTx_done _ _).1 hl
      · rw [hd]
        exact (Channel.endTx_done _ _).2 hl
    · have hc : c' = (c.endTx lag).stopped d := by
        rw [← chanCycle_ends hlag]
        exact chanNext_stopped hk hs
      rw [hc]
      exact c.stopped_of_endTx d lag
    · have hc : c' = c.endTx c.lag := (chanNext_undisturbed hk hs).trans (chanCycle_ended hp)
      rw [hc]
      exact c.endTx_done c.lag
    · have hc : c' = c.endTx d.latency :=
        (chanNext_undisturbed hk hs).trans (chanCycle_ends (.inr ⟨hp, hm, rfl⟩))
      rw [hc]
      exact c.endTx_done d.latency
    · have hc : c' = c.settle m answer := (chanNext_undisturbed hk hs).trans (chanCycle_goesOn hp hm)
      obtain ⟨phase, spec⟩ := c.settle_spec m answer
      rw [hc]
      exact ⟨phase.trans hp, spec⟩

end Sys2Proof.Machine
end

section
/-! The source space in a cycle: it takes the cycle's stores, and they race with the running commands
(20_memory.md R104, R105, R114, R115). -/

namespace Sys2Proof.Machine

/-- A cycle changes the source space by the stores of its hosts and of other agents alone, whatever
`rst_n` is (R105). -/
theorem step_mem_stores {s t : State} (h : step s = .next t) :
    t.ports.stores ++ s.input.stores = s.cycleStores s.input ∧
      t.mem = storeAll s.mem (s.cycleStores s.input) := by
  have ports := hostPhase_ports s s.input
  obtain ⟨-, ⟨-, rfl⟩ | ⟨-, w, hw, rfl⟩⟩ := step_cases h
  · obtain ⟨-, -, -, stores⟩ := peripheralPhase_ports s.resetUnit s.input (hostPhase s s.input)
    refine ⟨?_, resetCycle_mem s s.input⟩
    exact congrArg (· ++ s.input.stores) (stores.trans (by rw [ports]))
  · obtain ⟨-, -, -, stores⟩ := peripheralPhase_ports s s.input w
    have turns := (seqSteps_only hw).1
    refine ⟨?_, ?_⟩
    · exact congrArg (· ++ s.input.stores) (stores.trans (turns.stores.trans (by rw [ports])))
    · exact (peripheralPhase_only s s.input w).mem.trans
        (turns.mem.trans (hostPhase_spec s s.input).mem)

/-- After a cycle with `rst_n` high the source space and its races are as the host phase left them: the
unit never writes (R105). -/
theorem step_memory {s t : State} (h : step s = .next t) (hr : s.input.rstLow = false) :
    t.mem = (hostPhase s s.input).mem ∧ t.raced = (hostPhase s s.input).raced := by
  obtain ⟨w, hw, rfl⟩ := step_run h hr
  have turns := (seqSteps_only hw).1
  have per := peripheralPhase_only s s.input w
  exact ⟨per.mem.trans turns.mem, per.raced.trans turns.raced⟩

theorem mem_racedNext (sc s : State) (k : Fin 8) (stores : List (Word × Byte)) (a : Word) :
    a ∈ racedNext sc s k stores ↔
      ((sc.instAt k).status.busy = true ∧ a ∈ sc.raced[k.val]) ∨
        ((s.instAt k).status.busy = true ∧ ∃ c ∈ stores, c.1 = a) := by
  cases hsc : (sc.instAt k).status.busy <;> cases hs : (s.instAt k).status.busy <;>
    simp [racedNext, hsc, hs]

/-- The races after a cycle: those there were while the command ran at its start, and its stores where
the command runs once its host has taken its turn (R115). -/
theorem mem_step_raced {s t : State} (h : step s = .next t) (hr : s.input.rstLow = false) (k : Fin 8)
    (a : Word) :
    a ∈ t.raced[k.val] ↔
      ((s.instAt k).status.busy = true ∧ a ∈ s.raced[k.val]) ∨
        (((hostPhase s s.input).instAt k).status.busy = true ∧
          ∃ c ∈ t.ports.stores ++ s.input.stores, c.1 = a) := by
  have raced : t.raced[k.val] = (hostPhase s s.input).raced[k.val] := by rw [(step_memory h hr).2]
  rw [raced, hostPhase_raced, mem_racedNext, (step_mem_stores h).1]

/-- While a command runs, the addresses stored to join those raced for it (R115). -/
theorem mem_step_raced_of_busy {s t : State} (h : step s = .next t) (hr : s.input.rstLow = false)
    {k : Fin 8} (hb : (s.instAt k).status.busy = true) (a : Word) :
    a ∈ t.raced[k.val] ↔
      a ∈ s.raced[k.val] ∨ ∃ c ∈ t.ports.stores ++ s.input.stores, c.1 = a := by
  have host : ((hostPhase s s.input).instAt k).status.busy = true :=
    (hostMove_ack ((hostPhase_spec s s.input).insts k) hb).busy.trans hb
  simp only [mem_step_raced h hr, hb, host, true_and]

/-- A reset leaves no races (R420). -/
theorem resetCycle_raced (s : State) (e : Env) (k : Fin 8) : (resetCycle s e).raced[k.val] = [] :=
  Vector.getElem_replicate k.isLt

/-- Settles O58: `step_mem_stores` for the content, `mem_step_raced` for the races, which in a cycle
that starts with no command running are the stores of an accepting one. -/
theorem sourceSpaceOnlyChangedByStores : Obligations.SourceSpaceOnlyChangedByStores := by
  intro s t h stores
  obtain ⟨hstores, hmem⟩ := step_mem_stores h
  rw [← hstores] at hmem
  refine ⟨fun a ha => ?_, fun earlier c later hs hl => ?_, fun hw => ?_,
    fun hr k hb a => mem_step_raced_of_busy h hr hb a, fun hr k hb a => ?_, fun hr k => ?_⟩
  · rw [hmem]
    exact memFind_storeAll_ne _ _ _ ha
  · rw [memByte, hmem, show t.ports.stores ++ s.input.stores = earlier ++ c :: later from hs,
      memFind_storeAll_last _ _ _ _ hl, Option.getD_some]
  · rw [hmem]
    exact Memory.wf_storeAll _ _ hw
  · have raced := mem_step_raced h hr k a
    simp only [hb, Bool.false_eq_true, false_and, false_or] at raced
    refine ⟨fun ha => (raced.mp ha).2, fun hi => ?_⟩
    obtain ⟨-, -, -, unmoved⟩ := step_hostPhase h hr
    have kept : t.instAt k = (hostPhase s s.input).instAt k :=
      unmoved k fun hk => by simp [State.mem_movers, not_moves_of_idle hi] at hk
    rw [kept]
    exact raced
  · obtain ⟨-, ⟨-, rfl⟩ | ⟨hhigh, -⟩⟩ := step_cases h
    · exact resetCycle_raced s s.input k
    · exact absurd (hr.symm.trans hhigh) (by decide)

end Sys2Proof.Machine
end

section
/-! What the two backends read: a byte's address, a sequencer's fetch, and the reads of a pull
(41_sw_encoder.md R202, R203, 42_hw_pulsegen.md R268). -/

namespace Sys2Proof.Machine

/-! ## The address of a byte -/

/-- A byte of the frame lies inside it: with REORDER it stays in its pixel, and the pixels are whole
(R202). -/
theorem byteOffset_lt {r : Bool} (o : Order) {i n : Nat} (hn : r = true → n % 3 = 0) (hi : i < n) :
    byteOffset r o i < n := by
  have perm := o.perm_lt (i % 3)
  unfold byteOffset
  split
  · have := hn ‹_›
    omega
  · exact hi

/-- The addresses of a range's bytes lie in the range, which does not wrap (R202, R300). -/
theorem byteAddr_inside {base : Word} {r : Bool} (o : Order) {i n : Nat}
    (hb : base.toNat + n ≤ 2 ^ 32) (hn : r = true → n % 3 = 0) (hi : i < n) :
    base.toNat ≤ (byteAddr base r o i).toNat ∧ (byteAddr base r o i).toNat < base.toNat + n := by
  have offset := byteOffset_lt o hn hi
  have value : (byteAddr base r o i).toNat = base.toNat + byteOffset r o i := by
    rw [byteAddr, BitVec.toNat_add, BitVec.toNat_ofNat, Nat.add_mod_mod, Nat.mod_eq_of_lt (by omega)]
  omega

/-! ## A sequencer's fetch -/

theorem memReadState_reads (s : State) (r : Reader) (a : Word) :
    (memReadState s r a).ports.reads = s.ports.reads ++ [{ reader := r, addr := a }] := by
  unfold memReadState
  split <;> rfl

theorem Inst.silent_iff (x : Inst) : x.silent = true ↔ x.h.bright = 0 ∨ x.h.null = true := by
  simp [Inst.silent]

theorem fetchState_silent {s : State} {i : Nat} (h : s.inst.silent = true) : fetchState s i = s :=
  if_pos h

theorem fetchByte_reading {s : State} {i : Nat} (h : s.inst.silent = false) :
    fetchByte s i =
      scale (memReadByte s (.sequencer s.cur) (s.inst.frameAddr i)) s.inst.h.bright :=
  if_neg (by simp [h])

theorem fetchState_reading {s : State} {i : Nat} (h : s.inst.silent = false) :
    fetchState s i = memReadState s (.sequencer s.cur) (s.inst.frameAddr i) :=
  if_neg (by simp [h])

/-- Settles O38, by whether the frame reads memory: what a fetch leaves alone is `fetchState_onlyReads`,
and its one address is inside the range that a running command has captured. -/
theorem fetchReadsInsideFrame : Obligations.FetchReadsInsideFrame := by
  rintro s i ⟨-, -, range, pixels, -⟩ hi x a
  refine ⟨fun h => ?_, fun ⟨hbright, hnull⟩ => ?_, memReadByte_sequencer⟩
  · have silent := (Inst.silent_iff x).mpr h
    exact ⟨fetchByte_silent silent, fetchState_silent silent⟩
  · have reading : x.silent = false := by
      rw [Bool.eq_false_iff, ne_eq, Inst.silent_iff]
      simp_all
    obtain ⟨above, below⟩ := byteAddr_inside x.ctrl.order range (pixels hnull) hi
    have only := fetchState_onlyReads s i
    refine ⟨above, below, fetchByte_reading reading, ?_, only.insts, only.pool, only.mem, only.cycle⟩
    rw [fetchState_reading reading]
    exact memReadState_reads s _ _

/-! ## The reads of a pull -/

theorem Slot.silent_iff (q : Slot) : q.silent = true ↔ q.null = true ∨ q.bright = 0 := by
  rw [or_comm]
  simp [Slot.silent]

/-- The range of a held slot with a source buffer is the one that its holder's running command has
captured (R254, R300). -/
theorem State.Inv.slot_range {s : State} (h : s.Inv) {q : Fin 15} (hu : (s.slotAt q).inUse = true)
    (hn : (s.slotAt q).null = false) :
    ∃ len, (s.slotAt q).srcHi.toNat = (s.slotAt q).srcLo.toNat + len ∧
      (s.slotAt q).srcLo.toNat + len ≤ 2 ^ 32 ∧
      ((s.slotAt q).reorder = true → len % 3 = 0) := by
  obtain ⟨-, ok, -, ⟨held, -⟩, -⟩ := h
  obtain ⟨-, -, waits, -, filled⟩ := held q hu
  have phase := (ok (s.slotAt q).owner).phaseOk
  simp only [Inst.PhaseOk, waits] at phase
  obtain ⟨⟨-, -, range, pixels, -⟩, -⟩ := phase
  generalize s.instAt (s.slotAt q).owner = x at filled range pixels
  rw [filled] at hn ⊢
  have hnull : x.h.null = false := hn
  refine ⟨x.h.len.toNat, ?_, ?_, pixels hnull⟩
  · simp only [fillSlot, hnull, rangeEnd]
    exact Nat.mod_eq_of_lt (by omega)
  · simpa [fillSlot, hnull] using range

/-- Settles O44: `translateState_reads` lists the reads, and a byte used has its index below the length
of the slot's range, since a pull uses no more than the room from its address on. -/
theorem translateReadsInsideSlot : Obligations.TranslateReadsInsideSlot := by
  intro s j q a r n hI hr hq x reads
  have used : (translateAnswer s.pool s j a r n).used.toNat = pullBytes x a r.toNat n.toNat := by
    rw [translateAnswer_some n hr hq]
    exact answerPull_used_toNat _ _ _ _ _ _
  rw [translateEffect_some n hr hq]
  refine ⟨_, translateState_reads _ _ _ _ s, ?_⟩
  by_cases silent : x.silent = true
  · rw [if_pos silent, if_pos ((Slot.silent_iff x).mp silent)]
    simp
  · rw [if_neg silent, if_neg (mt (Slot.silent_iff x).mpr silent)]
    have hnull : x.null = false := by
      rw [Slot.silent_iff] at silent
      simp_all
    have holds : x.holds a = true := by
      rcases pullSlot_cases hq with ⟨-, hn, rfl⟩ | holds
      · exact absurd (hn.symm.trans hnull) (by decide)
      · exact holds
    obtain ⟨hu, -, above, below⟩ := (Slot.holds_iff x a).mp holds
    have first : x.firstIndex a r.toNat = a.toNat - x.srcLo.toNat := by simp [Slot.firstIndex, hnull]
    have room : pullBytes x a r.toNat n.toNat ≤ x.srcHi.toNat - a.toNat := by
      have := (pullBytes_le x a r n.toNat).2.2
      simpa [Slot.room, hnull] using this
    obtain ⟨len, hi, range, pixels⟩ := hI.slot_range hu hnull
    change x.srcHi.toNat = x.srcLo.toNat + len at hi
    refine ⟨?_, fun b hb => ?_, fun b hb => ?_⟩
    · rw [List.map_map, first, ← used]
      rfl
    · obtain ⟨t, ht, rfl⟩ := List.mem_map.mp hb
      have hused : t < pullBytes x a r.toNat n.toNat := List.mem_range.mp ht
      rw [first, hi]
      exact byteAddr_inside x.order range pixels (by omega)
    · obtain ⟨t, -, rfl⟩ := List.mem_map.mp hb
      exact ⟨rfl, rfl, fun held => if_pos held⟩

end Sys2Proof.Machine
end

section
/-! A cycle as one busy instance sees it, and the software bit loop in it, one bit per CYC_PERIOD
(41_sw_encoder.md R220 to R229). -/

namespace Sys2Proof.Machine

/-! ## A cycle around the turn of a busy instance -/

/-- The cycle from `t` to `t'` in which instance k's sequencer takes its step from `u` to `v`. -/
structure TurnCycle (k : Fin 8) (t t' u v : State) : Prop where
  step : step t = .next t'
  params : t'.params = t.params
  env : t'.env = t.env.tail
  cycle : t'.cycle = t.cycle + 1
  ack : OnlyAck (t.instAt k) u.inst
  turn : seqStep u = .next v
  inst : t'.instAt k = v.inst
  uCur : u.cur = k
  uParams : u.params = t.params
  uCycle : u.cycle = t.cycle
  uMem : u.mem = t'.mem
  uRaced : u.raced = t'.raced

/-- A busy instance of the build that is not stalled takes its turn in every cycle with `rst_n` high
(R35, R390). -/
theorem exists_turnCycle {t : State} {k : Fin 8} (hI : t.Inv) (hk : k.val < t.params.nInst)
    (hp : (t.instAt k).phase ≠ .idle) (hr : t.input.rstLow = false)
    (hst : (t.instAt k).stalled (preemptOf t.input k) = false) :
    ∃ t' u v, TurnCycle k t t' u v := by
  obtain ⟨hl, ok, -⟩ := hI
  obtain ⟨t', ht'⟩ := step_next hl
  obtain ⟨u, turns, ack, moved, -⟩ := step_turn_busy ht' hr k ((ok k).busy hp)
  obtain ⟨v, hv, hvt⟩ := moved ⟨hk, by simp [moves, hp, hst]⟩
  obtain ⟨mem, raced⟩ := step_memory ht' hr
  obtain ⟨w, hw, rfl⟩ := step_run ht' hr
  have host := hostPhase_spec t t.input
  have others := (seqSteps_only hw).1
  have per := peripheralPhase_only t t.input w
  exact ⟨_, u.focus k, v, {
    step := ht'
    params := per.params.trans (others.params.trans host.params)
    env := per.env.trans (others.env.trans host.env)
    cycle := rfl
    ack := ack
    turn := hv
    inst := hvt.trans (seqStep_inst hv).symm
    uCur := rfl
    uParams := turns.params.trans host.params
    uCycle := turns.cycle.trans host.cycle
    uMem := turns.mem.trans mem.symm
    uRaced := turns.raced.trans raced.symm }⟩

/-! ## The steps of the bit loop without an overrun -/

theorem seqStep_awaitSlot {u : State} (h : u.inst.phase = .awaitSlot) :
    seqStep u = .next (awaitSlotStep u) := by simp [seqStep, h]

theorem seqStep_holdHigh {u : State} (h : u.inst.phase = .holdHigh) :
    seqStep u = .next (holdHighStep u) := by simp [seqStep, h]

theorem seqStep_finalLow {u : State} (h : u.inst.phase = .finalLow) :
    seqStep u = .next (finalLowStep u) := by simp [seqStep, h]

/-- Up to its deadline nothing overruns (R221, R224). -/
theorem Inst.overrun_of_le {x : Inst} {c : Time} {d : Word} (h : elapsed c x.h.tStart ≤ d.toNat) :
    x.overrun c d = false := by
  have : ¬ elapsed c x.h.tStart > d.toNat + x.cfg.slack.toNat := by omega
  simp [Inst.overrun, this]

/-- The frame's first bit is raised at once, any other exactly a period after the one before it
(R220, R222). -/
theorem awaitSlotStep_raises {u : State}
    (h : u.inst.h.first = true ∨ elapsed u.cycle u.inst.h.tStart = u.inst.prof.cycPeriod.toNat) :
    awaitSlotStep u = raiseAndAdvance u := by
  unfold awaitSlotStep
  rcases h with h | h
  · rw [if_pos h]
  · split
    · rfl
    · rw [Inst.overrun_of_le h.le, if_neg Bool.false_ne_true, if_pos h.ge]

theorem awaitSlotStep_waits {u : State} (hf : u.inst.h.first = false)
    (h : elapsed u.cycle u.inst.h.tStart < u.inst.prof.cycPeriod.toNat) : awaitSlotStep u = u := by
  unfold awaitSlotStep
  rw [if_neg (by simp [hf]), Inst.overrun_of_le h.le, if_neg Bool.false_ne_true, if_neg (by omega)]

theorem holdHighStep_lowers {u : State}
    (h : elapsed u.cycle u.inst.h.tStart = u.inst.h.tHold.toNat) :
    holdHighStep u = u.onInst Inst.lower := by
  unfold holdHighStep
  rw [Inst.overrun_of_le h.le, if_neg Bool.false_ne_true, if_pos h.ge]

theorem holdHighStep_holds {u : State}
    (h : elapsed u.cycle u.inst.h.tStart < u.inst.h.tHold.toNat) : holdHighStep u = u := by
  unfold holdHighStep
  rw [Inst.overrun_of_le h.le, if_neg Bool.false_ne_true, if_neg (by omega)]

theorem finalLowStep_ends {u : State}
    (h : elapsed u.cycle u.inst.h.tStart = u.inst.prof.cycPeriod.toNat) :
    finalLowStep u = u.onInst (Inst.endAttempt true .none u.cycle) := if_pos h.ge

theorem finalLowStep_waits {u : State}
    (h : elapsed u.cycle u.inst.h.tStart < u.inst.prof.cycPeriod.toNat) : finalLowStep u = u :=
  if_neg (by omega)

/-- A successful end stamps its cycle, whoever owns the attempt (R306). -/
theorem endAttempt_success (x : Inst) (f : Time) :
    (x.endAttempt true .none f).phase = .idle ∧ (x.endAttempt true .none f).status.busy = false ∧
      (x.endAttempt true .none f).status.lastOk = true ∧
      (x.endAttempt true .none f).stats.lastDisplay = f := by
  refine ⟨rfl, rfl, rfl, ?_⟩
  show (x.noteEnd true f).stats.lastDisplay = f
  unfold Inst.noteEnd
  split <;> rfl

/-! ## A bit and its period -/

/-- The phase of the bit loop `r` cycles after the line went high: high for the high time, then low
to the end of the period (R224, R225). -/
def Inst.bitPhase (y : Inst) (r : Nat) : Phase :=
  if r < y.h.tHold.toNat then .holdHigh else if y.h.eof then .finalLow else .awaitSlot

theorem Inst.bitPhase_eq_holdHigh_iff (y : Inst) (r : Nat) :
    y.bitPhase r = .holdHigh ↔ r < y.h.tHold.toNat := by
  unfold Inst.bitPhase
  split
  · simp [*]
  · split <;> simpa using Nat.le_of_not_lt ‹_›

theorem Inst.bitPhase_isBitLoop (y : Inst) (r : Nat) : (y.bitPhase r).isBitLoop = true := by
  unfold Inst.bitPhase
  split
  · rfl
  · split <;> rfl

/-- Bit `n` of the frame of `x` stands on the line for the `r`-th cycle; its high time is that of
the bit `b`, and it was raised in cycle `c`. -/
structure BitOnLine (known : Nat → Option Byte) (x y : Inst) (b : Bool) (c n r : Nat) : Prop where
  frame : SameFrame x y
  raised : BitRaised known x y n y.h.tStart
  start : y.h.tStart.toNat = c
  hold : y.h.tHold = if b then x.prof.cycT1h else x.prof.cycT0h
  phase : y.phase = y.bitPhase r

section
variable {known : Nat → Option Byte} {x : Inst} {b : Bool} {c n r : Nat} {u : State}

theorem BitOnLine.ack {y z : Inst} (h : BitOnLine known x y b c n r) (a : OnlyAck y z) :
    BitOnLine known x z b c n r := by
  refine ⟨h.frame.ack a, ?_, ?_, ?_, ?_⟩
  · rw [a.h]
    exact h.raised.of_hidden a.h
  · rw [a.h]
    exact h.start
  · rw [a.h]
    exact h.hold
  · rw [Inst.bitPhase, a.h, a.phase]
    exact h.phase

/-- Where the line stays as it is, the next cycle of the bit has the same phase. -/
theorem BitOnLine.stay {y : Inst} (h : BitOnLine known x y b c n r)
    (hp : y.bitPhase (r + 1) = y.bitPhase r) : BitOnLine known x y b c n (r + 1) :=
  ⟨h.frame, h.raised, h.start, h.hold, h.phase.trans hp.symm⟩

/-- LOWER, at the end of the high time (R225). -/
theorem BitOnLine.lower {y : Inst} (h : BitOnLine known x y b c n r) (hr : y.h.tHold.toNat ≤ r + 1) :
    BitOnLine known x y.lower b c n (r + 1) := by
  obtain ⟨⟨ctrl, cfg, prof, len, src, bright, null⟩, raised, start, hold, -⟩ := h
  refine ⟨⟨ctrl, cfg, prof, len, src, bright, null⟩, raised.of_hidden rfl, start, hold, ?_⟩
  have low : ¬ r + 1 < y.h.tHold.toNat := by omega
  exact (if_neg low).symm

/-- Inside a bit's period the sequencer only lowers the line, exactly at the end of the high time
(R224, R225, R229). -/
theorem BitOnLine.next (h : BitOnLine known x u.inst b c n r) (hc : u.cycle.toNat = c + r + 1)
    (hr : r + 1 < x.prof.cycPeriod.toNat) :
    ∃ v, seqStep u = .next v ∧ BitOnLine known x v.inst b c n (r + 1) := by
  have passed : elapsed u.cycle u.inst.h.tStart = r + 1 := by
    rw [elapsed_of_le] <;> rw [h.start, hc] <;> omega
  have period : elapsed u.cycle u.inst.h.tStart < u.inst.prof.cycPeriod.toNat := by
    rw [passed, h.frame.prof]
    exact hr
  have phase := h.phase
  unfold Inst.bitPhase at phase
  by_cases high : r < u.inst.h.tHold.toNat
  · rw [if_pos high] at phase
    rw [seqStep_holdHigh phase]
    refine ⟨_, rfl, ?_⟩
    by_cases full : r + 1 = u.inst.h.tHold.toNat
    · rw [holdHighStep_lowers (passed.trans full), State.onInst_inst]
      exact h.lower full.ge
    · rw [holdHighStep_holds (by omega)]
      refine h.stay ?_
      rw [Inst.bitPhase, Inst.bitPhase, if_pos (by omega), if_pos high]
  · rw [if_neg high] at phase
    have stay : BitOnLine known x u.inst b c n (r + 1) :=
      h.stay (by rw [Inst.bitPhase, Inst.bitPhase, if_neg (by omega), if_neg high])
    refine ⟨u, ?_, stay⟩
    split at phase
    · rw [seqStep_finalLow phase, finalLowStep_waits period]
    · rw [seqStep_awaitSlot phase, awaitSlotStep_waits h.raised.first period]

/-- Bit `n` is to be raised in the cycle that the acting instance's turn belongs to. -/
structure BitDue (known : Nat → Option Byte) (x : Inst) (u : State) (n : Nat) : Prop where
  frame : SameFrame x u.inst
  phase : u.inst.phase = .awaitSlot
  pending : BitPending known x u.inst n
  due : u.inst.h.first = true ∨ elapsed u.cycle u.inst.h.tStart = u.inst.prof.cycPeriod.toNat

/-- A bit that is due is raised, with the high time of some bit (R220, R222). -/
theorem BitDue.raise (h : BitDue known x u n) (hP : x.prof.Ok)
    (hf : ∀ b, known (n / 8 + 1) = some b →
      fetchByte (u.onInst (Inst.raise u.cycle)) (n / 8 + 1) = b) :
    ∃ v, seqStep u = .next v ∧
      BitOnLine known x v.inst (decide (v.inst.h.tHold = x.prof.cycT1h)) u.cycle.toNat n 0 := by
  obtain ⟨frame, raised, phase⟩ := raiseAndAdvance_bit h.frame h.pending hf
  refine ⟨raiseAndAdvance u, ?_, frame, raised.tStart.symm ▸ raised, by rw [raised.tStart], ?_, ?_⟩
  · rw [seqStep_awaitSlot h.phase, awaitSlotStep_raises h.due]
  · by_cases one : (raiseAndAdvance u).inst.h.tHold = x.prof.cycT1h
    · rw [decide_eq_true one]
      exact one
    · rw [decide_eq_false one]
      exact raised.high.resolve_left one
  · have positive : 0 < (raiseAndAdvance u).inst.h.tHold.toNat := by
      obtain ⟨zero, one, -⟩ := hP
      rcases raised.high with e | e <;> rw [e] <;> omega
    rw [phase, Inst.bitPhase, if_pos positive]

/-- The high time is shorter than the period (R174). -/
theorem BitOnLine.hold_lt {y : Inst} (h : BitOnLine known x y b c n r) (hP : x.prof.Ok) :
    y.h.tHold.toNat < x.prof.cycPeriod.toNat := by
  obtain ⟨-, one, period, -⟩ := hP
  rcases h.raised.high with e | e <;> rw [e] <;> omega

/-- At the end of a bit's period the next bit is due, unless the frame is over (R220, R229). -/
theorem BitOnLine.due (h : BitOnLine known x u.inst b c n r) (hc : u.cycle.toNat = c + r + 1)
    (hr : r + 1 = x.prof.cycPeriod.toNat) (hP : x.prof.Ok)
    (hn : n + 1 < 8 * x.h.len.toNat) : BitDue known x u (n + 1) := by
  have low := h.hold_lt hP
  have pending := h.raised.next hn
  refine ⟨h.frame, ?_, pending, .inr ?_⟩
  · rw [h.phase, Inst.bitPhase, if_neg (by omega), pending.eof]
    rfl
  · rw [h.frame.prof, ← hr, elapsed_of_le] <;> rw [h.start, hc] <;> omega

/-- At the end of the last bit's period the attempt ends with success (R226). -/
theorem BitOnLine.ends (h : BitOnLine known x u.inst b c n r) (hc : u.cycle.toNat = c + r + 1)
    (hr : r + 1 = x.prof.cycPeriod.toNat) (hP : x.prof.Ok)
    (hn : n + 1 = 8 * x.h.len.toNat) :
    seqStep u = .next (u.onInst (Inst.endAttempt true .none u.cycle)) := by
  have low := h.hold_lt hP
  have phase : u.inst.phase = .finalLow := by
    rw [h.phase, Inst.bitPhase, if_neg (by omega), h.raised.last hn]
    rfl
  have passed : elapsed u.cycle u.inst.h.tStart = u.inst.prof.cycPeriod.toNat := by
    rw [h.frame.prof, ← hr, elapsed_of_le] <;> rw [h.start, hc] <;> omega
  rw [seqStep_finalLow phase, finalLowStep_ends passed]

end

end Sys2Proof.Machine
end

section
/-! The waveform of a software attempt without stalls, from its first AWAIT_SLOT to its end
(41_sw_encoder.md R203, R204, R229, R231). -/

namespace Sys2Proof.Machine

section
variable (s : State) (k : Fin 8)

/-- The cycles of one bit (R229). -/
abbrev wavePeriod : Nat := (s.instAt k).prof.cycPeriod.toNat

/-- The cycles of a frame, from the first raise to the attempt's end (R229). -/
def waveCycles : Nat := 8 * (s.instAt k).h.len.toNat * wavePeriod s k

/-- Where a run of instance k begins: the first AWAIT_SLOT, byte 0 loaded, no stall and no reset to
come before its end. -/
structure WaveStart : Prop where
  inv : s.Inv
  built : k.val < s.params.nInst
  phase : (s.instAt k).phase = .awaitSlot
  first : (s.instAt k).h.first = true
  cursor : (s.instAt k).h.cursor = 1
  mask : (s.instAt k).h.mask = 0x80
  zero : (s.instAt k).silent = true → (s.instAt k).h.cur = 0
  undisturbed : s.Undisturbed k (waveCycles s k + 1)
  room : s.cycle.toNat + waveCycles s k + 1 < 2 ^ 64

/-- An address that the source space holds a known byte at throughout the run: backed, not raced and
not stored to (R106, R115). -/
def Untouched (a : Word) : Prop :=
  isBacked s.params a.toNat = true ∧ a ∉ s.raced[k.val] ∧
    ∀ e t, e ≤ waveCycles s k → runFor (e + 1) s = .next t →
      ∀ c ∈ t.ports.stores ++ (s.env.getD e Env.quiet).stores, c.1 ≠ a

open Classical in
/-- Byte `i` of the frame, where the spec fixes it: byte 0 as loaded, zeros for a frame that reads
no memory, the scaled content of an untouched address (R203, R204). -/
noncomputable def knownByte (i : Nat) : Option Byte :=
  if i = 0 then some (s.instAt k).h.cur
  else if (s.instAt k).silent = true then some 0
  else if Untouched s k ((s.instAt k).frameAddr i) then
    some (scale (memByte s.mem ((s.instAt k).frameAddr i).toNat) (s.instAt k).h.bright)
  else none

/-- Bit `n` as the run sends it: whether its high time is that of a 1 bit (R222). -/
def sentBit (n : Nat) : Bool :=
  match runFor (n * wavePeriod s k + 1) s with
  | .next t => decide ((t.instAt k).h.tHold = (s.instAt k).prof.cycT1h)
  | .fault _ => false
  | .refused _ => false

/-- The machine `e` cycles into the run, but for instance k. -/
structure WaveFrame (e : Nat) (t : State) : Prop where
  run : runFor e s = .next t
  inv : t.Inv
  params : t.params = s.params
  env : t.env = s.env.drop e
  cycle : t.cycle.toNat = s.cycle.toNat + e
  clean : ∀ a, Untouched s k a →
    memByte t.mem a.toNat = memByte s.mem a.toNat ∧ a ∉ t.raced[k.val]

/-- Instance k awaits the slot of the frame's first bit. -/
structure AwaitsFirst (y : Inst) : Prop where
  frame : SameFrame (s.instAt k) y
  phase : y.phase = .awaitSlot
  first : y.h.first = true
  pending : BitPending (knownByte s k) (s.instAt k) y 0

/-- The machine `e` cycles into the run: from cycle 1 on, bit after bit stands on the line for a
period (R229). -/
structure WaveAt (e : Nat) (t : State) : Prop extends WaveFrame s k e t where
  start : e = 0 → AwaitsFirst s k (t.instAt k)
  line : ∀ n r, e = n * wavePeriod s k + r + 1 →
    r < wavePeriod s k →
    BitOnLine (knownByte s k) (s.instAt k) (t.instAt k) (sentBit s k n)
      (s.cycle.toNat + n * wavePeriod s k) n r

end

section
variable {s t t' u v : State} {k : Fin 8} {e n i : Nat} {b : Byte}

/-! ## The start -/

/-- The frame is not empty, and its command runs. -/
theorem WaveStart.running (W : WaveStart s k) :
    (s.instAt k).Running ∧ 1 ≤ (s.instAt k).h.len.toNat ∧ (s.instAt k).h.eof = false := by
  obtain ⟨-, ok, -⟩ := W.inv
  have phase := (ok k).phaseOk
  simp only [Inst.PhaseOk, W.phase] at phase
  obtain ⟨running, -, ⟨low, high⟩, eof, -⟩ := phase
  exact ⟨running, low.trans high, eof⟩

theorem WaveStart.prof (W : WaveStart s k) : (s.instAt k).prof.Ok := by
  obtain ⟨-, ok, -⟩ := W.inv
  obtain ⟨⟨valid, -⟩, -⟩ := W.running
  refine (ok k).core.prof ?_
  cases h : (s.instAt k).status.profileValid
  · simp [Inst.noProfile, h] at valid
  · rfl

theorem WaveStart.period_pos (W : WaveStart s k) : 0 < wavePeriod s k := by
  obtain ⟨zero, one, period, -⟩ := W.prof
  show 0 < (s.instAt k).prof.cycPeriod.toNat
  omega

theorem WaveStart.waveAt (W : WaveStart s k) : WaveAt s k 0 s where
  run := rfl
  inv := W.inv
  params := rfl
  env := rfl
  cycle := rfl
  clean _ ha := ⟨rfl, ha.2.1⟩
  start _ := by
    obtain ⟨-, len, eof⟩ := W.running
    refine ⟨⟨rfl, rfl, rfl, rfl, rfl, rfl, rfl⟩, W.phase, W.first, by omega, eof, ?_, W.mask, ?_⟩
    · rw [W.cursor]
      rfl
    · intro b hb
      simpa [knownByte] using hb
  line n r h := by omega

/-! ## One cycle of the run -/

/-- The inputs listed for cycle `e` are the inputs of that cycle (R34). -/
theorem WaveFrame.input (h : WaveFrame s k e t) {i : Env} (hi : s.env[e]? = some i) :
    t.input = i ∧ s.env.getD e Env.quiet = i := by
  have drop : t.env = i :: s.env.drop (e + 1) := by
    rw [h.env]
    exact List.drop_eq_getElem?_toList_append.trans (by rw [hi]; rfl)
  refine ⟨by rw [State.input, drop], ?_⟩
  rw [List.getD_eq_getElem?_getD, hi, Option.getD_some]

/-- The bit on the line `e + 1` cycles into the run, `e` cycles after the first raise (R229). -/
theorem WaveAt.lineNow (W : WaveStart s k) (h : WaveAt s k (e + 1) t) :
    BitOnLine (knownByte s k) (s.instAt k) (t.instAt k) (sentBit s k (e / wavePeriod s k))
      (s.cycle.toNat + e / wavePeriod s k * wavePeriod s k) (e / wavePeriod s k)
      (e % wavePeriod s k) :=
  h.line _ _ (by rw [Nat.div_add_mod']) (Nat.mod_lt _ W.period_pos)

/-- Within the run instance k is in the bit loop, on the frame it began with. -/
theorem WaveAt.inLoop (W : WaveStart s k) (h : WaveAt s k e t) :
    SameFrame (s.instAt k) (t.instAt k) ∧ (t.instAt k).phase.isBitLoop = true := by
  cases e with
  | zero =>
    obtain ⟨frame, phase, -⟩ := h.start rfl
    exact ⟨frame, by rw [phase]; rfl⟩
  | succ e =>
    have line := h.lineNow W
    exact ⟨line.frame, by rw [line.phase, Inst.bitPhase_isBitLoop]⟩

/-- A cycle of the run goes on with the run, around the turn of instance k. -/
theorem WaveAt.turn (W : WaveStart s k) (h : WaveAt s k e t) (he : e ≤ waveCycles s k) :
    ∃ t' u v, TurnCycle k t t' u v ∧ WaveFrame s k (e + 1) t' := by
  obtain ⟨frame, loop⟩ := h.inLoop W
  obtain ⟨i, hi, hr, calm⟩ := W.undisturbed e (by omega)
  obtain ⟨input, listed⟩ := h.input hi
  have hp : (t.instAt k).phase ≠ .idle := fun q => by simp [q, Phase.isBitLoop] at loop
  have unstalled : (t.instAt k).stalled (preemptOf t.input k) = false := by
    rw [input, Inst.stalled, loop, frame.ctrl]
    rcases calm with calm | calm <;> simp [calm]
  have rst : t.input.rstLow = false := by rw [input]; exact hr
  obtain ⟨t', u, v, T⟩ := exists_turnCycle h.inv (h.params.symm ▸ W.built) hp rst unstalled
  have run : runFor (e + 1) s = .next t' := (runFor_succ h.run).trans T.step
  refine ⟨t', u, v, T, run, stepKeepsInv t t' h.inv T.step, T.params.trans h.params, ?_, ?_, ?_⟩
  · rw [T.env, h.env, List.tail_drop]
  · have := W.room
    rw [T.cycle, BitVec.toNat_add, h.cycle]
    exact Nat.mod_eq_of_lt (by simp; omega)
  · intro a ha
    obtain ⟨content, race⟩ := h.clean a ha
    obtain ⟨-, -, stores⟩ := ha
    have away : ∀ c ∈ t'.ports.stores ++ t.input.stores, c.1 ≠ a := by
      rw [input, ← listed]
      exact stores e t' he run
    obtain ⟨hstores, hmem⟩ := step_mem_stores T.step
    refine ⟨?_, fun q => ?_⟩
    · rw [← content, memByte, memByte, hmem, ← hstores, memFind_storeAll_ne]
      exact fun c hc q => away c hc (BitVec.eq_of_toNat_eq q)
    · obtain ⟨-, ok, -⟩ := h.inv
      rcases (mem_step_raced_of_busy T.step rst ((ok k).busy hp) a).mp q with q | ⟨c, hc, q⟩
      · exact race q
      · exact away c hc q

/-- A byte that the spec fixes is fetched as fixed, in any cycle of the run (R203, R204). -/
theorem WaveFrame.fetchByte_eq (h : WaveFrame s k (e + 1) t') (T : TurnCycle k t t' u v)
    (frame : SameFrame (s.instAt k) u.inst) (hi : i ≠ 0) (hb : knownByte s k i = some b) :
    fetchByte (u.onInst (Inst.raise u.cycle)) i = b := by
  have silent : (u.onInst (Inst.raise u.cycle)).inst.silent = (s.instAt k).silent := by
    rw [State.onInst_inst]
    simp [Inst.silent, Inst.raise, frame.bright, frame.null]
  have addr : (u.onInst (Inst.raise u.cycle)).inst.frameAddr i = (s.instAt k).frameAddr i := by
    rw [State.onInst_inst]
    simp [Inst.frameAddr, Inst.raise, frame.src, frame.ctrl]
  have bright : (u.onInst (Inst.raise u.cycle)).inst.h.bright = (s.instAt k).h.bright := by
    rw [State.onInst_inst]
    exact frame.bright
  unfold knownByte at hb
  rw [if_neg hi] at hb
  split at hb
  · rename_i hs
    injection hb with hb
    exact (fetchByte_silent (silent.trans hs)).trans hb
  · rename_i hs
    split at hb
    · rename_i ha
      injection hb with hb
      obtain ⟨content, race⟩ := h.clean _ ha
      rw [fetchByte_known (silent.trans (Bool.eq_false_iff.mpr hs)), addr, bright,
        State.onInst_mem, T.uMem, content, hb]
      · rw [addr, State.onInst_params, T.uParams, ← T.params, h.params]
        exact ha.1
      · simp only [addr, State.onInst_raced, State.onInst_cur, T.uRaced, T.uCur]
        exact race
    · cases hb

theorem sentBit_eq (h : runFor (n * wavePeriod s k + 1) s = .next t) :
    sentBit s k n = decide ((t.instAt k).h.tHold = (s.instAt k).prof.cycT1h) := by
  rw [sentBit, h]

/-- A bit that is due in a cycle of the run is on the line in the next. -/
theorem WaveFrame.raise (W : WaveStart s k)
    (h : WaveFrame s k (n * wavePeriod s k + 1) t') (T : TurnCycle k t t' u v)
    (due : BitDue (knownByte s k) (s.instAt k) u n)
    (hc : u.cycle.toNat = s.cycle.toNat + n * wavePeriod s k) :
    BitOnLine (knownByte s k) (s.instAt k) (t'.instAt k) (sentBit s k n)
      (s.cycle.toNat + n * wavePeriod s k) n 0 := by
  obtain ⟨v', hv, line⟩ := due.raise W.prof fun b hb => h.fetchByte_eq T due.frame (by omega) hb
  cases hv.symm.trans T.turn
  rwa [sentBit_eq h.run, T.inst, ← hc]

/-- The run goes on, cycle by cycle, to the end of the last bit's period. -/
theorem WaveAt.next (W : WaveStart s k) (h : WaveAt s k e t) (he : e < waveCycles s k) :
    ∃ t', WaveAt s k (e + 1) t' := by
  obtain ⟨t', u, v, T, frame⟩ := h.turn W he.le
  have hc : u.cycle.toNat = s.cycle.toNat + e := by rw [T.uCycle, h.cycle]
  refine ⟨t', frame, by omega, fun n r hn hr => ?_⟩
  have hP := W.period_pos
  cases r with
  | succ r =>
    have line := (h.line n r (by omega) (by omega)).ack T.ack
    obtain ⟨v', hv, line⟩ := line.next (by omega) hr
    cases hv.symm.trans T.turn
    rwa [T.inst]
  | zero =>
    obtain rfl : e = n * wavePeriod s k := by omega
    refine frame.raise W T ?_ hc
    cases n with
    | zero =>
      obtain ⟨same, phase, first, pending⟩ := h.start (by omega)
      exact ⟨same.ack T.ack, T.ack.phase.trans phase, pending.of_hidden T.ack.h,
        .inl (by rw [T.ack.h]; exact first)⟩
    | succ n =>
      have split := Nat.add_one_mul n (wavePeriod s k)
      have line := (h.line n (wavePeriod s k - 1) (by omega) (by omega)).ack T.ack
      exact line.due (by omega) (Nat.sub_add_cancel hP) W.prof (Nat.lt_of_mul_lt_mul_right he)

theorem WaveStart.exists_waveAt (W : WaveStart s k) (he : e ≤ waveCycles s k) :
    ∃ t, WaveAt s k e t := by
  induction e with
  | zero => exact ⟨s, W.waveAt⟩
  | succ e ih =>
    obtain ⟨t, h⟩ := ih (by omega)
    exact h.next W he

/-! ## What the run shows -/

/-- The line is high in the first cycles of each bit's period, for the bit's high time (R229). -/
theorem WaveAt.dout_iff (W : WaveStart s k) (h : WaveAt s k e t) :
    (t.instAt k).pins.dout = true ↔ 1 ≤ e ∧
      (e - 1) % wavePeriod s k <
        (if sentBit s k ((e - 1) / wavePeriod s k) then (s.instAt k).prof.cycT1h
          else (s.instAt k).prof.cycT0h).toNat := by
  obtain ⟨-, ok, -⟩ := h.inv
  obtain ⟨-, -, high, -⟩ := (Inst.ok_iff _ _).mp (ok k)
  rw [high]
  cases e with
  | zero => simp [(h.start rfl).phase]
  | succ e =>
    have line := h.lineNow W
    rw [line.phase, Inst.bitPhase_eq_holdHigh_iff, Nat.add_sub_cancel, ← line.hold]
    simp

/-- A bit of a byte that the spec fixes is sent as fixed, most significant first (R204). -/
theorem WaveStart.sentBit_known (W : WaveStart s k) {m : Nat} (hm : m < 8)
    (hi : i < (s.instAt k).h.len.toNat) (hb : knownByte s k i = some b) :
    sentBit s k (8 * i + m) = b.getLsbD (7 - m) := by
  have inside : (8 * i + m) * wavePeriod s k < waveCycles s k :=
    Nat.mul_lt_mul_of_pos_right (by omega) W.period_pos
  obtain ⟨t, h⟩ := W.exists_waveAt (Nat.succ_le_of_lt inside)
  have raised := (h.line (8 * i + m) 0 rfl W.period_pos).raised
  have bit := raised.bit b (by rwa [show (8 * i + m) / 8 = i by omega])
  rw [show (8 * i + m) % 8 = m by omega] at bit
  obtain ⟨-, order, -⟩ := W.prof
  rw [sentBit_eq h.run, bit]
  cases b.getLsbD (7 - m)
  · exact decide_eq_false fun q => order.ne (congrArg BitVec.toNat q)
  · exact decide_eq_true rfl

/-- Every bit of a frame that reads no memory is a 0 bit (R203, R347). -/
theorem WaveStart.sentBit_silent (W : WaveStart s k) (hs : (s.instAt k).silent = true)
    (hn : n < 8 * (s.instAt k).h.len.toNat) : sentBit s k n = false := by
  have known : knownByte s k (n / 8) = some 0 := by
    by_cases h0 : n / 8 = 0
    · rw [knownByte, if_pos h0, W.zero hs]
    · rw [knownByte, if_neg h0, if_pos hs]
  have sent := W.sentBit_known (m := n % 8) (by omega) (by omega) known
  rw [Nat.div_add_mod] at sent
  simpa using sent

/-- With the last bit's period the attempt ends with success (R226, R229). -/
theorem WaveStart.ends (W : WaveStart s k) :
    ∃ t, runFor (waveCycles s k + 1) s = .next t ∧ (t.instAt k).phase = .idle ∧
      (t.instAt k).status.busy = false ∧ (t.instAt k).status.lastOk = true ∧
      (t.instAt k).stats.lastDisplay.toNat = s.cycle.toNat + waveCycles s k := by
  obtain ⟨t, h⟩ := W.exists_waveAt le_rfl
  obtain ⟨t', u, v, T, frame⟩ := h.turn W le_rfl
  have hc : u.cycle.toNat = s.cycle.toNat + waveCycles s k := by rw [T.uCycle, h.cycle]
  have hP := W.period_pos
  obtain ⟨-, len, -⟩ := W.running
  obtain ⟨n, hn⟩ : ∃ n, 8 * (s.instAt k).h.len.toNat = n + 1 :=
    ⟨_, (Nat.sub_add_cancel (by omega)).symm⟩
  have total : waveCycles s k =
      n * wavePeriod s k + wavePeriod s k := by
    rw [waveCycles, hn, Nat.succ_mul]
  have line := (h.line n (wavePeriod s k - 1) (by omega) (by omega)).ack T.ack
  have turn := line.ends (by omega) (Nat.sub_add_cancel hP) W.prof hn.symm
  cases turn.symm.trans T.turn
  obtain ⟨idle, busy, ok, stamp⟩ := endAttempt_success u.inst u.cycle
  refine ⟨t', frame.run, ?_⟩
  rw [T.inst, State.onInst_inst]
  exact ⟨idle, busy, ok, by rw [stamp, hc]⟩

end

/-- Settles O34: `WaveAt` holds of every cycle of the run, by induction on the cycle; the bits are
those that the run sends, and a byte that the spec fixes is fetched as fixed. -/
theorem softwareWaveformIsExact : Obligations.SoftwareWaveformIsExact := by
  intro s k inv built phase first cursor mask zero x period total undisturbed room
  have W : WaveStart s k := ⟨inv, built, phase, first, cursor, mask, zero, undisturbed, room⟩
  obtain ⟨-, len, -⟩ := W.running
  refine ⟨sentBit s k, fun m hm => ?_, fun silent n hn => W.sentBit_silent silent hn, ?_,
    fun e he => ?_, W.ends⟩
  · have sent := W.sentBit_known hm len (by rw [knownByte, if_pos rfl])
    rwa [Nat.mul_zero, Nat.zero_add] at sent
  · intro reading i h1 hi a backed race away m hm
    refine W.sentBit_known hm hi ?_
    have heard : ¬ (s.instAt k).silent = true := Bool.eq_false_iff.mp reading
    rw [knownByte, if_neg (by omega), if_neg heard]
    exact if_pos ⟨backed, race, away⟩
  · obtain ⟨t, h⟩ := W.exists_waveAt he
    obtain ⟨-, loop⟩ := h.inLoop W
    obtain ⟨-, ok, -⟩ := h.inv
    refine ⟨t, h.run, h.cycle, (ok k).busy fun q => ?_, h.dout_iff W⟩
    simp [q, Phase.isBitLoop] at loop

end Sys2Proof.Machine
end

section
/-! The command words: each well-formed command has one word, its value as a number, and decoding a word
is finding the command that has it (30_encoding.md R131 to R137). -/

namespace Sys2Proof

/-- The word of a command as a number: its operand above the opcode (R131, R133). -/
def Instr.value : Instr → Nat
  | .nop => 0
  | .loadProfile => 1
  | .showFrame b => b * 256 + 2
  | .forceClear n => n * 256 + 3
  | .getStats => 4
  | .clearStats => 5
  | .beginLine => 6

theorem encode_toNat {i : Instr} (h : i.wf = true) : (encode i).toNat = i.value := by
  cases i with
  | showFrame b => exact encode_showFrame_toNat b (of_decide_eq_true h)
  | forceClear n => exact encode_forceClear_toNat n (of_decide_eq_true h)
  | nop | loadProfile | getStats | clearStats | beginLine => rfl

/-- Decoding finds exactly the well-formed command that has the word's value (R134). -/
theorem decode_eq_command_iff (w : Word) (i : Instr) :
    decode w = .command i ↔ i.wf = true ∧ w.toNat = i.value := by
  have bound := w.isLt
  rw [decode_by_value]
  constructor
  · intro h
    split_ifs at h <;> cases h <;> simp [Instr.wf, Instr.value] <;> omega
  · rintro ⟨fits, value⟩
    cases i with
    | showFrame b =>
      have : b < 256 := of_decide_eq_true fits
      simp only [value, Instr.value]
      rw [if_neg (by omega), if_neg (by omega), if_pos (by omega)]
      congr 2
      omega
    | forceClear n =>
      simp only [value, Instr.value]
      rw [if_neg (by omega), if_neg (by omega), if_neg (by omega), if_pos (by omega)]
      congr 2
      omega
    | nop | loadProfile | getStats | clearStats | beginLine => simp [value, Instr.value]

theorem decode_encode {i : Instr} (h : i.wf = true) : decode (encode i) = .command i :=
  (decode_eq_command_iff _ i).mpr ⟨h, encode_toNat h⟩

theorem eq_encode_of_decode {w : Word} {i : Instr} (h : decode w = .command i) : w = encode i := by
  obtain ⟨fits, value⟩ := (decode_eq_command_iff w i).mp h
  exact BitVec.eq_of_toNat_eq (value.trans (encode_toNat fits).symm)

/-- Settles O1: the word of a well-formed command has the command's value. -/
theorem decodeInvertsEncode : Obligations.DecodeInvertsEncode := fun _ => decode_encode

/-- The illegal words: a reserved opcode, or a must-be-zero field that is not zero (R132, R134). -/
theorem decode_illegal_iff (w : Word) :
    (∃ why, decode w = .illegal why) ↔
      7 ≤ w.toNat % 256 ∨
      (w.toNat % 256 ≠ 2 ∧ w.toNat % 256 ≠ 3 ∧ w.toNat / 256 ≠ 0) ∨
      (w.toNat % 256 = 2 ∧ w.toNat / 65536 ≠ 0) := by
  rw [decode_by_value]
  split_ifs <;> simp <;> omega

/-- Settles O2: `decode_eq_command_iff` for each command, and `decode_illegal_iff`. -/
theorem commandWordValues : Obligations.CommandWordValues := by
  intro w
  have plain (i : Instr) (fits : i.wf = true) : decode w = .command i ↔ w.toNat = i.value :=
    (decode_eq_command_iff w i).trans (and_iff_right fits)
  refine ⟨plain .nop rfl, plain .loadProfile rfl, fun b => ?_, fun n => ?_, plain .getStats rfl,
    plain .clearStats rfl, plain .beginLine rfl, decode_illegal_iff w⟩
  · rw [decode_eq_command_iff, Instr.wf, decide_eq_true_iff, Instr.value]
  · rw [decode_eq_command_iff, Instr.wf, decide_eq_true_iff, Instr.value]
    have := w.isLt
    omega

/-! ## The rows of the opcode map (R133) -/

/-- A row's match value says which row it is, so it fixes the mask. -/
theorem rowMask_of_rowMatch (i : Instr) :
    rowMask i = if rowMatch i = 2 then 0xFFFF00FF else if rowMatch i = 3 then 0x000000FF
      else BitVec.allOnes 32 := by
  cases i <;> rfl

theorem encode_meets_row (i : Instr) : encode i &&& rowMask i = rowMatch i := by
  cases i with
  | showFrame b => exact Laws.MatchesRow.showFrame b
  | forceClear n => exact Laws.MatchesRow.forceClear n
  | nop | loadProfile | getStats | clearStats | beginLine => rfl

/-! A masked word's value tells every field that the mask keeps whole. -/

theorem opField_of_and {w m v : Word} (h : w &&& m = v) (kept : opField m = 0xFF) :
    opField w = opField v := by
  have : opField (w &&& m) = opField w &&& opField m := BitVec.extractLsb'_and
  rw [← h, this, kept]
  exact BitVec.and_allOnes.symm

theorem upperHalf_of_and {w m v : Word} (h : w &&& m = v) (kept : upperHalf m = 0xFFFF) :
    upperHalf w = upperHalf v := by
  have : upperHalf (w &&& m) = upperHalf w &&& upperHalf m := BitVec.extractLsb'_and
  rw [← h, this, kept]
  exact BitVec.and_allOnes.symm

/-- A word meets a row exactly when it decodes to a command of that row. -/
theorem meets_row_iff (w : Word) (i : Instr) :
    w &&& rowMask i = rowMatch i ↔ ∃ j, decode w = .command j ∧ rowMatch j = rowMatch i := by
  constructor
  · intro h
    have plain (full : rowMask i = BitVec.allOnes 32) (fits : i.wf = true)
        (word : encode i = rowMatch i) : ∃ j, decode w = .command j ∧ rowMatch j = rowMatch i := by
      rw [full, BitVec.and_allOnes, ← word] at h
      exact ⟨i, h ▸ decode_encode fits, rfl⟩
    cases i with
    | showFrame b =>
      have op : opField w = opField 2 := opField_of_and (m := 0xFFFF00FF) h (by decide)
      have upper : upperHalf w = upperHalf 2 := upperHalf_of_and (m := 0xFFFF00FF) h (by decide)
      exact ⟨.showFrame (brightField w).toNat, by rw [decode, op, upper]; rfl, rfl⟩
    | forceClear n =>
      have op : opField w = opField 3 := opField_of_and (m := 0x000000FF) h (by decide)
      exact ⟨.forceClear (operandField w).toNat, by rw [decode, op]; rfl, rfl⟩
    | nop | loadProfile | getStats | clearStats | beginLine => exact plain rfl rfl rfl
  · rintro ⟨j, hj, same⟩
    rw [eq_encode_of_decode hj, rowMask_of_rowMatch i, ← same, ← rowMask_of_rowMatch j]
    exact encode_meets_row j

/-- Settles O3: a word meets a row exactly when it decodes into it, and it decodes to one command. -/
theorem rowsSelectWords : Obligations.RowsSelectWords := by
  refine ⟨fun w i h => (meets_row_iff w i).mpr ⟨i, h, rfl⟩, fun w i => (meets_row_iff w i).mp,
    fun w i j hi hj => ?_, fun b n => ⟨rfl, rfl, rfl, rfl, rfl, rfl, rfl, rfl, rfl⟩,
    fun i show_ clear => ?_⟩
  · obtain ⟨c, hc, ci⟩ := (meets_row_iff w i).mp hi
    obtain ⟨d, hd, dj⟩ := (meets_row_iff w j).mp hj
    cases hc.symm.trans hd
    exact ci.symm.trans dj
  · cases i with
    | showFrame b => exact absurd rfl (show_ b)
    | forceClear n => exact absurd rfl (clear n)
    | nop | loadProfile | getStats | clearStats | beginLine => rfl

/-- Settles O5, by running the decoder on each word. -/
theorem sampleWordsDecode : Obligations.SampleWordsDecode := by
  unfold Obligations.SampleWordsDecode
  decide

/-! ## The assembler (R137) -/

/-- A command statement is one CMD write of the command's value, or is refused. -/
theorem assemble_cmd (i : Instr) :
    assemble (.cmd i) =
      if i.wf = true then some [.write 0x0C .word (BitVec.ofNat 32 i.value)] else none := by
  show (if i.wf = true then some [cmdWrite (encode i)] else none) = _
  split
  · rw [← encode_toNat ‹_›, BitVec.ofNat_toNat, BitVec.setWidth_eq]
    rfl
  · rfl

/-- Settles O6: a command whose operand fits is written as its value, one that does not is refused. -/
theorem assemblerExpandsStatements : Obligations.AssemblerExpandsStatements := by
  have show_fits (b : Nat) : (Instr.showFrame b).wf = true ↔ b ≤ 255 :=
    decide_eq_true_iff.trans Nat.lt_succ_iff
  have clear_fits (n : Nat) : (Instr.forceClear n).wf = true ↔ n < 2 ^ 24 := decide_eq_true_iff
  exact ⟨fun _ _ => rfl, fun _ => rfl, fun _ => rfl, assemble_cmd .nop, assemble_cmd .loadProfile,
    fun b => (assemble_cmd _).trans (if_congr (show_fits b) rfl rfl),
    fun n => (assemble_cmd _).trans (if_congr (clear_fits n) rfl rfl),
    assemble_cmd .getStats, assemble_cmd .clearStats, assemble_cmd .beginLine⟩

end Sys2Proof
end

section
/-! What becomes of an illegal word (30_encoding.md R135). -/

namespace Sys2Proof.Machine

/-- Whatever becomes of the acting instance, the rest of the machine stays. -/
theorem onInst_sameOutside (s : State) (f : Inst → Inst) : SameOutside s (s.onInst f) :=
  ⟨rfl, rfl, fun _ other => State.onInst_instAt_ne s f other, rfl, rfl, fun _ => rfl, rfl, rfl, rfl,
    rfl, rfl, rfl, rfl⟩

theorem seqStep_illegal {s : State} {why : Illegal} (hp : s.inst.phase = .decode)
    (hd : decode s.inst.h.cmdword = .illegal why) :
    seqStep s = .next (s.onInst (Inst.finish false .illegalCmd)) := by
  simp [seqStep, hp, decodeStep, hd]

/-- Settles O4: `decode_illegal_iff` for the words, the CMD write's own equation for the acceptance, and
`finish` of the acting instance alone for the DECODE cycle. -/
theorem illegalWordsEndWithError : Obligations.IllegalWordsEndWithError := by
  refine ⟨fun w => (decode_illegal_iff w).mpr, fun p x w hb => ?_, fun s why hp hd =>
    ⟨_, seqStep_illegal hp hd, onInst_sameOutside s _, State.onInst_inst s _⟩⟩
  obtain ⟨-, accepted, -⟩ := statusAndCmdWrites p x w 0
  exact accepted hb

end Sys2Proof.Machine
end

section
/-! Pulse items and the order of a frame's bytes (30_encoding.md R150, R155, R156, 41_sw_encoder.md
R202). -/

namespace Sys2Proof.Machine

/-! ## Pulse items -/

section
variable (d0 d1 : BitVec 15) (l0 l1 : Bool)

@[simp] theorem itemD0_item : itemD0 (item d0 l0 d1 l1) = d0.toNat := by
  rw [itemD0, BitVec.extractLsb'_toNat, item_toNat]
  have := d0.isLt
  omega

@[simp] theorem itemD1_item : itemD1 (item d0 l0 d1 l1) = d1.toNat := by
  rw [itemD1, BitVec.extractLsb'_toNat, item_toNat, Nat.shiftRight_eq_div_pow]
  have := d0.isLt
  have := d1.isLt
  have := l0.toNat_le
  omega

@[simp] theorem itemL0_item : itemL0 (item d0 l0 d1 l1) = l0 := by
  simp only [itemL0, item, BitVec.getLsbD_append]
  cases l0 <;> rfl

@[simp] theorem itemL1_item : itemL1 (item d0 l0 d1 l1) = l1 := by
  simp only [itemL1, item, BitVec.getLsbD_append]
  cases l1 <;> rfl

end

/-- Settles O17: the fields of an item are read back as they were put in, and the low time of a template
is the rest of the bit period. -/
theorem itemFieldsAndTemplates : Obligations.ItemFieldsAndTemplates := by
  refine ⟨fun d0 d1 l0 l1 => ⟨itemD0_item .., itemL0_item .., itemD1_item .., itemL1_item ..,
    item_toNat ..⟩, fun k kp fits => ⟨itemD0_item .., itemL0_item .., ?_, itemL1_item ..⟩⟩
  rw [template, itemD0_item, itemD1_item, BitVec.toNat_sub_of_le fits]
  exact Nat.add_sub_of_le fits

/-! ## The order of a frame's bytes -/

/-- A byte's address is its offset from the base, on the 32-bit port (R104, R202). -/
theorem byteAddr_toNat (base : Word) (r : Bool) (o : Order) (i : Nat) :
    (byteAddr base r o i).toNat = (base.toNat + byteOffset r o i) % 2 ^ 32 := by
  rw [byteAddr, BitVec.toNat_add, BitVec.toNat_ofNat, Nat.add_mod_mod]

/-- Reordering keeps a byte in its pixel, at the order's place for it. -/
theorem byteOffset_reorder (o : Order) (i : Nat) :
    byteOffset true o i / 3 = i / 3 ∧ byteOffset true o i % 3 = o.perm (i % 3) := by
  have inside := o.perm_lt (i % 3)
  rw [byteOffset, if_pos rfl]
  omega

/-- No two bytes have one place: the pixel and the place inside it give the index back. -/
theorem byteOffset_inj {r : Bool} {o : Order} {i j : Nat} (h : byteOffset r o i = byteOffset r o j) :
    i = j := by
  cases r with
  | false => exact h
  | true =>
    obtain ⟨pixelI, placeI⟩ := byteOffset_reorder o i
    obtain ⟨pixelJ, placeJ⟩ := byteOffset_reorder o j
    rw [h] at pixelI placeI
    have pixel : i / 3 = j / 3 := pixelI.symm.trans pixelJ
    have place : i % 3 = j % 3 := o.perm_inj (Nat.mod_lt _ (by decide)) (Nat.mod_lt _ (by decide))
      (placeI.symm.trans placeJ)
    omega

theorem Order.perm_surj (o : Order) : ∀ k, k < 3 → ∃ i, i < 3 ∧ o.perm i = k := by
  cases o <;> decide

theorem orderOf_eq_none_iff (c : BitVec 3) : orderOf c = none ↔ c = 6 ∨ c = 7 := by
  revert c
  decide

theorem code_of_orderOf {c : BitVec 3} {o : Order} (h : orderOf c = some o) : o.code = c := by
  revert c o
  decide

/-- Settles O36: an offset keeps its pixel and permutes the places in it; the order codes and the table
of R150 are read off case by case. -/
theorem byteOrderIsPermutation : Obligations.ByteOrderIsPermutation := by
  refine ⟨byteAddr_toNat, fun _ _ => rfl, fun o i => ⟨(byteOffset_reorder o i).1, rfl⟩,
    fun r o n i whole inside => byteOffset_lt o whole inside, fun r o i j => byteOffset_inj,
    Order.perm_surj, fun c => ⟨orderOf_eq_none_iff c, fun _ => code_of_orderOf⟩, fun o => ?_⟩
  cases o <;> rfl

end Sys2Proof.Machine
end

section
/-! The timing profile: the cycle conversion in nanoseconds, and LOAD_PROFILE (40_profile.md R171 to
R176). -/

namespace Sys2Proof.Machine

/-! ## The cycle conversion -/

/-- A value read as MHz, in the source's own arithmetic (R171, R172). -/
theorem conv_of_mhz {f : Word} (ns : Word) (mhz : f.toNat < 1000000) :
    conv f ns = f.toNat * ns.toNat / 1000 := by
  rw [conv, freqHz, if_pos mhz, Nat.mul_right_comm]
  exact Nat.mul_div_mul_right _ 1000 (by decide)

/-- The product the conversion divides needs 72 bits (R172). -/
theorem freqHz_mul_lt (f ns : Word) : freqHz f * ns.toNat < 2 ^ 72 :=
  calc freqHz f * ns.toNat
    _ < 2 ^ 40 * 2 ^ 32 := Nat.mul_lt_mul'' (freqHz_lt f) ns.isLt
    _ = 2 ^ 72 := by decide

/-- Where `f` is the actual rate, the converted counts last no longer than the nanoseconds asked for, and
one count more would last longer (R433, R451). -/
theorem conv_spans {rate : Nat} {f : Word} (ns : Word) (actual : rate = freqHz f)
    (running : 1 ≤ rate) :
    (conv f ns : Rat) * 1000000000 / rate ≤ ns.toNat ∧
      (ns.toNat : Rat) < ((conv f ns + 1 : Nat) : Rat) * 1000000000 / rate := by
  have whole : conv f ns * 1000000000 ≤ ns.toNat * rate := by
    rw [actual, Nat.mul_comm ns.toNat]
    exact Nat.div_mul_le_self _ _
  have rounded : ns.toNat * rate < (conv f ns + 1) * 1000000000 := by
    rw [actual, Nat.mul_comm ns.toNat]
    exact (Nat.div_lt_iff_lt_mul (by decide)).mp (Nat.lt_succ_self _)
  have positive : (0 : Rat) < rate := by exact_mod_cast running
  rw [div_le_iff₀ positive, lt_div_iff₀ positive]
  exact ⟨by exact_mod_cast whole, by exact_mod_cast rounded⟩

theorem cyclesNs_succ (p : Params) (k : Nat) : cyclesNs p (k + 1) = cyclesNs p k + cyclesNs p 1 := by
  simp only [cyclesNs, Nat.cast_add, add_mul, add_div]

theorem ticksNs_succ (p : Params) (k : Nat) : ticksNs p (k + 1) = ticksNs p k + ticksNs p 1 := by
  simp only [ticksNs, Nat.cast_add, add_mul, add_div]

/-- Settles O16: the floor is within one count of the quotient, so each backend's duration is within its
own cycle or tick of the nanoseconds, and the two within that of each other. -/
theorem conversionIsExact : Obligations.ConversionIsExact := by
  intro f ns
  refine ⟨rfl, conv_of_mhz ns, freqHz_mul_lt f ns, fun p g clk periph atClk atPeriph => ?_⟩
  obtain ⟨cyclesLe, ltCycles⟩ : cyclesNs p (conv f ns) ≤ ns.toNat ∧
      ns.toNat < cyclesNs p (conv f ns + 1) := conv_spans ns atClk clk
  obtain ⟨ticksLe, ltTicks⟩ : ticksNs p (conv g ns) ≤ ns.toNat ∧
      ns.toNat < ticksNs p (conv g ns + 1) := conv_spans ns atPeriph periph
  refine ⟨cyclesLe, ltCycles, ticksLe, ltTicks, ?_, ?_⟩
  · rw [← ticksNs_succ]
    exact cyclesLe.trans_lt ltTicks
  · rw [← cyclesNs_succ]
    exact ticksLe.trans_lt ltCycles

/-! ## LOAD_PROFILE -/

/-- The conditions of `valid_sw()`, R174(a), (b) and (c). -/
theorem Settings.validSw_iff (g : Settings) : g.validSw = true ↔
    (0 < g.t0hNs.toNat ∧ g.t0hNs.toNat < g.t1hNs.toNat ∧ g.t1hNs.toNat < g.periodNs.toNat ∧
      g.periodNs.toNat ≤ g.resetNs.toNat) ∧
    (0 < g.cyc g.t0hNs ∧ g.cyc g.t0hNs < g.cyc g.t1hNs ∧ g.cyc g.t1hNs < g.cyc g.periodNs ∧
      g.cyc g.periodNs ≤ g.cyc g.resetNs ∧ g.cyc g.periodNs ≤ g.cyc g.mindispNs) ∧
    (g.cyc g.t0hNs < 2 ^ 32 ∧ g.cyc g.t1hNs < 2 ^ 32 ∧ g.cyc g.periodNs < 2 ^ 32 ∧
      g.cyc g.resetNs < 2 ^ 32 ∧ g.cyc g.mindispNs < 2 ^ 32) := by
  simp only [Settings.validSw, Settings.nsOrdered, Settings.cyclesOrdered, Settings.cyclesFit,
    Bool.and_eq_true, decide_eq_true_eq, and_assoc, ge_iff_le]

/-- The conditions of `valid_hw()` (R175). -/
theorem validHw_iff (p : Params) (g : Settings) : validHw p g = true ↔
    p.hasPulsegen = true ∧ g.validSw = true ∧ 0 < g.tick g.t0hNs ∧
      g.tick g.t0hNs < g.tick g.t1hNs ∧ g.tick g.t1hNs < g.tick g.periodNs ∧
      g.tick g.periodNs ≤ 32767 := by
  simp only [validHw, Bool.and_eq_true, decide_eq_true_eq, and_assoc]

/-- A tick count up to the bit period fits the latch of a valid template (R175, R176). -/
theorem tickLatch_toNat {p : Params} {g : Settings} {ns : Word} (valid : validHw p g = true)
    (inPeriod : g.tick ns ≤ g.tick g.periodNs) : (tickLatch p g ns).toNat = g.tick ns := by
  obtain ⟨-, -, -, -, -, fits⟩ := (validHw_iff p g).mp valid
  rw [tickLatch, if_pos valid, BitVec.toNat_ofNat]
  exact Nat.mod_eq_of_lt (by omega)

theorem tickLatch_of_invalid {p : Params} {g : Settings} (ns : Word) (bad : ¬ validHw p g = true) :
    tickLatch p g ns = 0 := if_neg bad

theorem templateReg_of_valid {p : Params} {g : Settings} (ns : Word) (valid : validHw p g = true) :
    templateReg p g ns = template (tickLatch p g ns) (tickLatch p g g.periodNs) := if_pos valid

theorem templateReg_of_invalid {p : Params} {g : Settings} (ns : Word)
    (bad : ¬ validHw p g = true) : templateReg p g ns = 0 := if_neg bad

theorem profileOf_fHz (p : Params) (g : Settings) : (profileOf p g).fHz.toNat = freqHz g.clkFreq := by
  rw [profileOf, BitVec.toNat_ofNat]
  exact Nat.mod_eq_of_lt (freqHz_lt _)

/-- LOAD_PROFILE writes the profile whether it is valid or not, then ends with the success (R176). -/
theorem loadProfile_eq (p : Params) (x : Inst) :
    x.loadProfile p = (x.writeProfile p).finish (!loadFails p x) .cfgInvalid := by
  unfold Inst.loadProfile
  cases loadFails p x <;> rfl

theorem not_loadFails_iff (p : Params) (x : Inst) : (!loadFails p x) = true ↔
    x.cfg.validSw = true ∧ (x.ctrl.backend = true → validHw p x.cfg = true) := by
  simp only [loadFails, Bool.not_or, Bool.not_not, Bool.and_eq_true, Bool.not_and, Bool.or_eq_true,
    Bool.not_eq_true', imp_iff_not_or, Bool.not_eq_true]

/-- Settles O15: `loadProfile_eq` says what the command writes, `validSw_iff` and `validHw_iff` when the
profiles are valid; a latch holds its tick count exactly when the templates are. -/
theorem loadProfileConverts : Obligations.LoadProfileConverts := by
  intro s g hz c k okSw okHw
  have sw : g.validSw = true ↔ okSw := g.validSw_iff
  have hw : validHw s.params g = true ↔ okHw :=
    (validHw_iff s.params g).trans (and_congr_right fun _ => and_congr_left fun _ => sw)
  refine ⟨_, rfl, onInst_sameOutside s _, ?_⟩
  rw [State.onInst_inst, loadProfile_eq]
  refine ⟨rfl, rfl, rfl, rfl, rfl, rfl, rfl, sat32_min _, sat32_min _, sat32_min _, sat32_min _,
    sat32_min _, profileOf_fHz s.params g, sw, hw, fun ok => ?_, fun bad => ?_,
    (not_loadFails_iff s.params s.inst).trans (and_congr sw (imp_congr_right fun _ => hw)),
    rfl, rfl, rfl, rfl, rfl, rfl⟩
  · have valid := hw.mpr ok
    obtain ⟨-, -, -, t0h_lt, t1h_lt, -⟩ := ok
    exact ⟨tickLatch_toNat valid (t0h_lt.trans t1h_lt).le, tickLatch_toNat valid t1h_lt.le,
      tickLatch_toNat valid le_rfl, templateReg_of_valid _ valid, templateReg_of_valid _ valid⟩
  · have invalid := mt hw.mp bad
    exact ⟨tickLatch_of_invalid _ invalid, tickLatch_of_invalid _ invalid,
      tickLatch_of_invalid _ invalid, templateReg_of_invalid _ invalid,
      templateReg_of_invalid _ invalid⟩

end Sys2Proof.Machine
end

section
/-! What each command leaves alone of the acting instance (40_profile.md R176,
43_show_retry_throttle.md R300, 44_forceclear_stats_misc.md R341, R352, R355, R358, R360). -/

namespace Sys2Proof.Machine

/-- What the DECODE step of a command makes of the acting instance in cycle d (R381). -/
def Inst.command (p : Params) (d : Time) (x : Inst) : Instr → Inst
  | .nop => x.finish true .none
  | .loadProfile => (x.writeProfile p).finish (!loadFails p x) .cfgInvalid
  | .showFrame b => x.showDecode (BitVec.ofNat 8 b)
  | .forceClear n => x.forceClear p n d
  | .getStats => (x.snapshotFps d).finish true .none
  | .clearStats => (x.restartEpoch d).finish true .none
  | .beginLine => x.driveLow.finish true .none

/-- Every command completes, and changes the acting instance alone. -/
theorem exec_eq (i : Instr) (s : State) :
    exec i s = .next (s.onInst fun x => x.command s.params s.cycle i) := by
  cases i with
  | loadProfile =>
    exact congrArg (Host.Outcome.next ∘ s.setInstAt s.cur) (loadProfile_eq s.params s.inst)
  | _ => rfl

/-- What no command writes besides its setup (`Inst.setup`): the CYCLE latch, HW_CHAN, WR_IGNORED, the
debug pins and LAST_DISPLAY. -/
def Inst.aside (x : Inst) : Word × BitVec 4 × Bool × Bool × Bool × Time :=
  (x.hiLatch, x.status.hwChan, x.status.wrIgnored, x.pins.dbgStart, x.pins.dbgAbort,
    x.stats.lastDisplay)

/-! The commands that branch. -/

section
variable (p : Params) (x : Inst)

theorem showDecode_aside (b : Byte) : (x.showDecode b).aside = x.aside := by
  unfold Inst.showDecode
  split_ifs <;> rfl

theorem showDecode_stats (b : Byte) : (x.showDecode b).stats = x.stats := by
  unfold Inst.showDecode
  split_ifs <;> rfl

theorem showDecode_pins (b : Byte) : (x.showDecode b).pins = x.pins := by
  unfold Inst.showDecode
  split_ifs <;> rfl

theorem forceClear_aside (n : Nat) (d : Time) : (x.forceClear p n d).aside = x.aside := by
  unfold Inst.forceClear
  split_ifs <;> rfl

theorem forceClear_stats (n : Nat) (d : Time) : (x.forceClear p n d).stats = x.stats := by
  unfold Inst.forceClear
  split_ifs <;> rfl

end

/-! Every command. -/

section
variable (p : Params) (d : Time) (x : Inst)

theorem command_setup (i : Instr) : (x.command p d i).setup = x.setup := by
  cases i with
  | showFrame b => exact congrArg Prod.fst (showDecode_config _ x)
  | forceClear n => exact congrArg Prod.fst (forceClear_config p n d x)
  | _ => rfl

theorem command_aside (i : Instr) : (x.command p d i).aside = x.aside := by
  cases i with
  | showFrame b => exact showDecode_aside x _
  | forceClear n => exact forceClear_aside p x n d
  | _ => rfl

theorem command_profiles {i : Instr} (other : i ≠ .loadProfile) :
    (x.command p d i).profiles = x.profiles := by
  cases i with
  | loadProfile => exact absurd rfl other
  | showFrame b => exact congrArg Prod.snd (showDecode_config _ x)
  | forceClear n => exact congrArg Prod.snd (forceClear_config p n d x)
  | _ => rfl

theorem command_stats {i : Instr} (noGet : i ≠ .getStats) (noClear : i ≠ .clearStats) :
    (x.command p d i).stats = x.stats := by
  cases i with
  | getStats => exact absurd rfl noGet
  | clearStats => exact absurd rfl noClear
  | showFrame b => exact showDecode_stats x _
  | forceClear n => exact forceClear_stats p x n d
  | _ => rfl

theorem command_pins {i : Instr} (noBegin : i ≠ .beginLine) (noClear : ∀ n, i ≠ .forceClear n) :
    (x.command p d i).pins = x.pins := by
  cases i with
  | beginLine => exact absurd rfl noBegin
  | forceClear n => exact absurd rfl (noClear n)
  | showFrame b => exact showDecode_pins x _
  | _ => rfl

/-- A command that transmits nothing ends in its DECODE cycle and leaves the hidden registers alone. -/
theorem command_ends {i : Instr} (noShow : ∀ b, i ≠ .showFrame b) (noClear : ∀ n, i ≠ .forceClear n) :
    (x.command p d i).h = x.h ∧ (x.command p d i).status.attempts = x.status.attempts ∧
      (x.command p d i).phase = .idle := by
  cases i with
  | showFrame b => exact absurd rfl (noShow b)
  | forceClear n => exact absurd rfl (noClear n)
  | _ => exact ⟨rfl, rfl, rfl⟩

end

/-- Settles O23: `exec_eq` for the completion and the rest of the machine, then the parts that every
command keeps and those that only some write. -/
theorem commandFrame : Obligations.CommandFrame := by
  intro i s
  refine ⟨_, exec_eq i s, onInst_sameOutside s _, ?_⟩
  rw [State.onInst_inst]
  have setup := command_setup s.params s.cycle s.inst i
  have aside := command_aside s.params s.cycle s.inst i
  simp only [Inst.setup, Inst.aside, Prod.mk.injEq] at setup aside
  obtain ⟨ctrl, cfg, cmdword⟩ := setup
  obtain ⟨hiLatch, hwChan, wrIgnored, dbgStart, dbgAbort, lastDisplay⟩ := aside
  refine ⟨ctrl, cfg, hiLatch, hwChan, wrIgnored, dbgStart, dbgAbort, lastDisplay, cmdword,
    fun other => ?_, command_stats _ _ _, command_pins _ _ _, command_ends _ _ _⟩
  simpa [Inst.profiles] using command_profiles s.params s.cycle s.inst other

end Sys2Proof.Machine
end

section
/-! The byte source: brightness scaling, and the bits of a byte in the order they are sent
(41_sw_encoder.md R201, R204). -/

namespace Sys2Proof.Machine

theorem scale_zero (v : Byte) : scale v 0 = 0 := rfl

/-- The scaled byte fits its 8 bits, since b + 1 is at most 256 (R201). -/
theorem scale_toNat (v : Byte) {b : Byte} (h : b ≠ 0) :
    (scale v b).toNat = v.toNat * (b.toNat + 1) / 256 := by
  have fits : v.toNat * (b.toNat + 1) < 256 * 256 :=
    Nat.mul_lt_mul_of_lt_of_le v.isLt b.isLt (by decide)
  rw [scale, if_neg h, BitVec.toNat_ofNat, Nat.shiftRight_eq_div_pow]
  exact Nat.mod_eq_of_lt (Nat.div_lt_of_lt_mul fits)

theorem scale_le (v b : Byte) : (scale v b).toNat ≤ v.toNat := by
  by_cases off : b = 0
  · rw [off]
    exact Nat.zero_le _
  · rw [scale_toNat v off]
    exact Nat.div_le_of_le_mul (Nat.mul_comm 256 _ ▸ Nat.mul_le_mul_left _ b.isLt)

theorem scale_full (v : Byte) : scale v 255 = v :=
  BitVec.eq_of_toNat_eq ((scale_toNat v (by decide)).trans (Nat.mul_div_cancel _ (by decide)))

/-- Settles O35: the scaled value as a number, whose factor b + 1 is 256 at full brightness and 2 at
brightness 1. -/
theorem scaleBrightness : Obligations.ScaleBrightness := by
  refine fun v b => ⟨scale_zero v, scale_toNat v, scale_full v, scale_le v b, by decide, ?_⟩
  rw [scale_toNat v (by decide)]
  show v.toNat * 2 / 256 = _
  omega

/-- Settles O37: an item per bit, bit 7 − m the m-th. -/
theorem bitsMostSignificantFirst : Obligations.BitsMostSignificantFirst :=
  fun bit0 bit1 v => ⟨byteItems_length bit0 bit1 v, fun _ => byteItems_getElem? bit0 bit1 v⟩

end Sys2Proof.Machine
end

section
/-! The start of a software attempt, and the steps of the bit loop with the interrupts tolerated or
masked (41_sw_encoder.md R211 to R231, 60_exceptions.md R390). -/

namespace Sys2Proof.Machine

/-- Settles O28: `swStart_inst` is the acting instance after sw_start, `swStart_only` what it leaves
alone. -/
theorem softwareStartLoadsFirstByte : Obligations.SoftwareStartLoadsFirstByte := by
  intro s
  have only := swStart_only s
  refine ⟨fun empty => if_pos empty, fun nonempty =>
    ⟨?_, only.others, only.pool, only.chans, only.cycle, only.mem⟩⟩
  rw [swStart_inst, if_neg nonempty]
  rfl

/-! ## The steps by the time elapsed -/

section
variable {s : State}

/-- The frame's first bit is raised at once, any other from CYC_PERIOD on unless the wait has overrun
(R220, R221). -/
theorem awaitSlotStep_raise (h : s.inst.h.first = true ∨
      (s.inst.overrun s.cycle s.inst.prof.cycPeriod = false ∧
        s.inst.prof.cycPeriod.toNat ≤ elapsed s.cycle s.inst.h.tStart)) :
    awaitSlotStep s = raiseAndAdvance s := by
  unfold awaitSlotStep
  rcases h with first | ⟨inTime, due⟩
  · rw [if_pos first]
  · rw [inTime, if_neg Bool.false_ne_true, if_pos due, ite_self]

theorem awaitSlotStep_abort (later : s.inst.h.first = false)
    (late : s.inst.overrun s.cycle s.inst.prof.cycPeriod = true) :
    awaitSlotStep s = s.onInst (Inst.abort s.cycle) := by
  rw [awaitSlotStep, later, if_neg Bool.false_ne_true, if_pos late]

theorem holdHighStep_lower (inTime : s.inst.overrun s.cycle s.inst.h.tHold = false)
    (due : s.inst.h.tHold.toNat ≤ elapsed s.cycle s.inst.h.tStart) :
    holdHighStep s = s.onInst Inst.lower := by
  rw [holdHighStep, inTime, if_neg Bool.false_ne_true, if_pos due]

theorem holdHighStep_abort (late : s.inst.overrun s.cycle s.inst.h.tHold = true) :
    holdHighStep s = s.onInst (Inst.abort s.cycle) := if_pos late

theorem finalLowStep_end
    (due : s.inst.prof.cycPeriod.toNat ≤ elapsed s.cycle s.inst.h.tStart) :
    finalLowStep s = s.onInst (Inst.endAttempt true .none s.cycle) := if_pos due

end

/-- Settles O29: the three steps of AWAIT_SLOT, the elapsed time and the overrun test in numbers. -/
theorem awaitSlotRaisesOrAborts : Obligations.AwaitSlotRaisesOrAborts := by
  intro s phase started x e aborts raises
  have passed : elapsed s.cycle x.h.tStart = e := elapsed_of_le started
  have late := x.overrun_iff s.cycle x.prof.cycPeriod started
  rw [seqStep_awaitSlot phase]
  refine ⟨fun raise => congrArg _ (awaitSlotStep_raise ?_),
    fun ⟨later, abort⟩ => congrArg _ (awaitSlotStep_abort later (late.mpr abort)),
    fun noRaise noAbort => congrArg _ ?_⟩
  · cases first : x.h.first with
    | true => exact .inl rfl
    | false =>
      obtain ⟨noAbort, due⟩ := raise.resolve_left (by simp [first])
      have inTime := Bool.eq_false_iff.mpr fun h => noAbort ⟨first, late.mp h⟩
      exact .inr ⟨inTime, due.trans passed.ge⟩
  · obtain ⟨later, wait⟩ := not_or.mp noRaise
    have early : e < x.prof.cycPeriod.toNat := Nat.lt_of_not_le fun due => wait ⟨noAbort, due⟩
    exact awaitSlotStep_waits (Bool.eq_false_iff.mpr later) (passed.trans_lt early)

/-- Settles O31: the three steps of HOLD_HIGH and the two of FINAL_LOW, the elapsed time and the overrun
test in numbers. -/
theorem holdHighAndFinalLow : Obligations.HoldHighAndFinalLow := by
  intro s started x e aborts
  have passed : elapsed s.cycle x.h.tStart = e := elapsed_of_le started
  have late : x.overrun s.cycle x.h.tHold = true ↔ aborts := x.overrun_iff s.cycle x.h.tHold started
  refine ⟨fun phase => ?_, fun phase => ?_⟩
  · rw [seqStep_holdHigh phase]
    exact ⟨fun abort => congrArg _ (holdHighStep_abort (late.mpr abort)),
      fun noAbort due => congrArg _
        (holdHighStep_lower (Bool.eq_false_iff.mpr (mt late.mp noAbort)) (due.trans passed.ge)),
      fun _ early => congrArg _ (holdHighStep_holds (passed.trans_lt early))⟩
  · rw [seqStep_finalLow phase]
    exact ⟨fun due => congrArg _ (finalLowStep_end (due.trans passed.ge)),
      fun early => congrArg _ (finalLowStep_waits (passed.trans_lt early))⟩

/-! ## The bit loop with interrupts masked -/

theorem Phase.isBitLoop_iff (p : Phase) :
    p.isBitLoop = true ↔ p = .awaitSlot ∨ p = .holdHigh ∨ p = .finalLow := by
  cases p <;> simp [Phase.isBitLoop]

/-- A masked bit loop is not stalled (R390). -/
theorem Inst.not_stalled_of_masked {x : Inst} (masked : x.ctrl.intTol = false)
    (loop : x.phase.isBitLoop = true) (preempt : Bool) : x.stalled preempt = false := by
  simp [Inst.stalled, masked, loop]

/-- A masked bit loop does not overrun (R228). -/
theorem Inst.not_overrun_of_masked {x : Inst} (masked : x.ctrl.intTol = false) (c : Time) (d : Word) :
    x.overrun c d = false := by
  simp [Inst.overrun, masked]

/-- From `x` to `y` nothing was aborted, and the bit loop goes on or the command has succeeded. -/
def Inst.Unaborted (x y : Inst) : Prop :=
  y.stats.aborted = x.stats.aborted ∧ (y.phase = .awaitSlot ∨ y.phase = .holdHigh ∨
    y.phase = .finalLow ∨ (y.phase = .idle ∧ y.status.lastOk = true ∧ y.status.err = .none))

theorem Inst.Unaborted.of_loop {x y : Inst} (stats : y.stats = x.stats)
    (loop : y.phase.isBitLoop = true) : x.Unaborted y := by
  refine ⟨congrArg Stats.aborted stats, ?_⟩
  rcases y.phase.isBitLoop_iff.mp loop with h | h | h
  · exact .inl h
  · exact .inr (.inl h)
  · exact .inr (.inr (.inl h))

/-- A successful end counts no aborted attempt (R306, R307). -/
theorem Inst.unaborted_success (x : Inst) (f : Time) : x.Unaborted (x.endAttempt true .none f) := by
  refine ⟨?_, .inr (.inr (.inr ⟨rfl, rfl, rfl⟩))⟩
  show (x.noteEnd true f).stats.aborted = _
  unfold Inst.noteEnd
  split <;> rfl

theorem raiseAndAdvance_unaborted (s : State) : s.inst.Unaborted (raiseAndAdvance s).inst := by
  refine .of_loop ?_ ?_ <;> rw [raiseAndAdvance_inst]
  · split
    · rfl
    · split <;> rfl
  · rfl

theorem lower_unaborted (x : Inst) : x.Unaborted x.lower := by
  refine .of_loop rfl ?_
  show (if x.h.eof then Phase.finalLow else .awaitSlot).isBitLoop = true
  split <;> rfl

/-- A step of a masked bit loop waits, moves the line, or ends the attempt with success (R228). -/
theorem seqStep_masked {u v : State} (masked : u.inst.ctrl.intTol = false)
    (loop : u.inst.phase.isBitLoop = true) (h : seqStep u = .next v) : u.inst.Unaborted v.inst := by
  have stay : u.inst.Unaborted u.inst := .of_loop rfl loop
  rcases u.inst.phase.isBitLoop_iff.mp loop with phase | phase | phase
  · rw [seqStep_awaitSlot phase, awaitSlotStep, Inst.not_overrun_of_masked masked,
      if_neg Bool.false_ne_true] at h
    injection h with h
    subst h
    split
    · exact raiseAndAdvance_unaborted u
    · split
      · exact raiseAndAdvance_unaborted u
      · exact stay
  · rw [seqStep_holdHigh phase, holdHighStep, Inst.not_overrun_of_masked masked,
      if_neg Bool.false_ne_true] at h
    injection h with h
    subst h
    split
    · rw [State.onInst_inst]
      exact lower_unaborted _
    · exact stay
  · rw [seqStep_finalLow phase, finalLowStep] at h
    injection h with h
    subst h
    split
    · rw [State.onInst_inst]
      exact Inst.unaborted_success _ _
    · exact stay

/-- Settles O33: a masked bit loop is not stalled, so it takes its turn, whose step `seqStep_masked`
describes; its host before it changes neither CTRL, phase nor statistics. -/
theorem maskedBitLoopNeverAborts : Obligations.MaskedBitLoopNeverAborts := by
  intro s t k inv ht rst built masked phase
  have loop := (Phase.isBitLoop_iff _).mpr phase
  have busy : (s.instAt k).phase ≠ .idle := fun idle => by simp [idle, Phase.isBitLoop] at loop
  have unstalled := Inst.not_stalled_of_masked masked loop (preemptOf s.input k)
  refine ⟨by simp [moves, busy, unstalled], ?_⟩
  obtain ⟨t', u, v, turn⟩ := exists_turnCycle inv built busy rst unstalled
  obtain rfl : t = t' := by
    injection ht.symm.trans turn.step
  obtain ⟨aborted, ends⟩ :=
    seqStep_masked (turn.ack.ctrl ▸ masked) (turn.ack.phase ▸ loop) turn.turn
  rw [turn.inst, ← turn.ack.stats]
  exact ⟨aborted, ends⟩

end Sys2Proof.Machine
end

section
/-! The hardware attempt: its start, its wait, and the arbiter's grants (42_hw_pulsegen.md R252 to R255,
R260, R276, R277). -/

namespace Sys2Proof.Machine

/-! ## hw_start and its grant -/

section
variable {s : State}

theorem hwStart_empty (empty : s.inst.h.len = 0) :
    hwStart s = s.onInst (fun x => (x.setHwChan 0xF).endAttempt true .none s.cycle) := if_pos empty

theorem hwStart_poolEmpty (nonempty : s.inst.h.len ≠ 0) (noSlot : s.arb = []) :
    hwStart s = s.onInst (fun x => (x.setHwChan 0xF).failAttempt .poolEmpty s.cycle) := by
  rw [hwStart, if_neg nonempty, noSlot]

theorem hwStart_grant {j : Fin 15} {rest : List (Fin 15)} (nonempty : s.inst.h.len ≠ 0)
    (free : s.arb = j :: rest) : hwStart s = grantSlot (s.setArb rest) j := by
  rw [hwStart, if_neg nonempty, free]

end

/-- A grant fills the slot granted and no other (R254). -/
theorem grantSlot_slotAt (s : State) (j l : Fin 15) :
    (grantSlot s j).slotAt l = if l = j then fillSlot s.cur s.inst else s.slotAt l :=
  State.slotAt_setSlotAt s j l _

/-- The end of a source range fits its 33 bits (R254). -/
theorem rangeEnd_toNat (src len : Word) : (rangeEnd src len).toNat = src.toNat + len.toNat :=
  Nat.mod_eq_of_lt (by omega)

/-- Settles O39: `grantSlot_inst` is the acting instance after the grant, `grantSlot_slotAt` the pool,
and `hwStart_only` what hw_start leaves alone. -/
theorem hardwareStartAcquiresSlot : Obligations.HardwareStartAcquiresSlot := by
  intro s x
  refine ⟨hwStart_empty, hwStart_poolEmpty, fun j rest nonempty free => ?_⟩
  have only := hwStart_only s
  rw [hwStart_grant nonempty free] at only ⊢
  have filled := (grantSlot_slotAt (s.setArb rest) j j).trans (if_pos rfl)
  rw [filled]
  refine ⟨grantSlot_inst s rest j, rfl, ?_,
    fun l other => (grantSlot_slotAt (s.setArb rest) j l).trans (if_neg other), only.others, rfl, rfl,
    only.mem⟩
  show (if x.h.null then 0 else rangeEnd x.h.src x.h.len).toNat = _
  split
  · rfl
  · exact rangeEnd_toNat _ _

/-! ## HW_WAIT -/

section
variable {s : State}

theorem seqStep_hwWait (h : s.inst.phase = .hwWait) : seqStep s = .next (hwWaitStep s) := by
  simp [seqStep, h]

theorem hwWaitStep_done (done : (s.chanAt s.inst.h.hwJ).done = true) :
    hwWaitStep s = (s.release s.inst.h.hwJ).onInst (Inst.endAttempt true .none s.cycle) := if_pos done

theorem hwWaitStep_timeout (notDone : (s.chanAt s.inst.h.hwJ).done = false)
    (due : s.inst.cfg.hwTimeout.toNat ≤ elapsed s.cycle s.inst.h.hwT) :
    hwWaitStep s = ((s.stop s.inst.h.hwJ).release s.inst.h.hwJ).onInst
      (Inst.failAttempt .hwTimeout s.cycle) := by
  rw [hwWaitStep, notDone, if_neg Bool.false_ne_true, if_pos due]

theorem hwWaitStep_waits (notDone : (s.chanAt s.inst.h.hwJ).done = false)
    (early : ¬ s.inst.cfg.hwTimeout.toNat ≤ elapsed s.cycle s.inst.h.hwT) : hwWaitStep s = s := by
  rw [hwWaitStep, notDone, if_neg Bool.false_ne_true, if_neg early]

end

/-- A release clears the slot released and no other (R277). -/
theorem State.release_slotAt (s : State) (j l : Fin 15) :
    (s.release j).slotAt l = if l = j then Slot.reset else s.slotAt l :=
  State.slotAt_setSlotAt s j l _

/-- Both exits of HW_WAIT release the slot held (R260, R277). -/
theorem hwWaitStep_slotAt {s : State} (ends : (s.chanAt s.inst.h.hwJ).done = true ∨
      s.inst.cfg.hwTimeout.toNat ≤ elapsed s.cycle s.inst.h.hwT) (l : Fin 15) :
    (hwWaitStep s).slotAt l = if l = s.inst.h.hwJ then Slot.reset else s.slotAt l := by
  cases done : (s.chanAt s.inst.h.hwJ).done with
  | true =>
    rw [hwWaitStep_done done]
    exact s.release_slotAt _ l
  | false =>
    rw [hwWaitStep_timeout done (ends.resolve_left (by simp [done]))]
    exact (s.stop _).release_slotAt _ l

/-- Settles O40: the three steps of HW_WAIT, the elapsed time in numbers; `hwWaitStep_slotAt` is the
pool after either exit. -/
theorem hardwareWaitReleasesSlot : Obligations.HardwareWaitReleasesSlot := by
  intro s phase started j timedOut
  have passed : elapsed s.cycle s.inst.h.hwT = s.cycle.toNat - s.inst.h.hwT.toNat :=
    elapsed_of_le started
  have due : timedOut ↔ s.inst.cfg.hwTimeout.toNat ≤ elapsed s.cycle s.inst.h.hwT := by rw [passed]
  refine ⟨hwWaitStep s, seqStep_hwWait phase, fun done => ?_, fun notDone late => ?_, fun ends => ?_,
    fun notDone early => hwWaitStep_waits notDone (mt due.mpr early)⟩
  · rw [hwWaitStep_done done, State.onInst_inst]
    exact ⟨rfl, rfl⟩
  · rw [hwWaitStep_timeout notDone (due.mp late), State.onInst_inst]
    exact ⟨rfl, rfl⟩
  · have slots := hwWaitStep_slotAt (ends.imp_right due.mp)
    have released := (slots j).trans (if_pos rfl)
    exact ⟨congrArg Slot.inUse released, released, fun l other => (slots l).trans (if_neg other),
      (hwWaitStep_only s).others⟩

/-! ## The arbiter -/

/-- From `s` to `t` no slot is granted: the arbiter's list stays, and the acting instance does not begin
to wait on a channel (R252, R253). -/
def NoGrant (s t : State) : Prop :=
  t.arb = s.arb ∧ (t.inst.phase = .hwWait → s.inst.phase = .hwWait)

/-- From `s` to `t` the acting instance is granted the lowest slot that remains (R253). -/
def Grant (s t : State) : Prop :=
  t.inst.phase = .hwWait ∧ s.arb = t.inst.h.hwJ :: t.arb

theorem NoGrant.refl (s : State) : NoGrant s s := ⟨rfl, id⟩

theorem NoGrant.trans {s t u : State} (h : NoGrant s t) (g : NoGrant t u) : NoGrant s u :=
  ⟨g.1.trans h.1, h.2 ∘ g.2⟩

/-- A step of the acting instance alone that does not end in HW_WAIT. -/
theorem OnlyActing.noGrant {s t : State} (h : OnlyActing s t) (other : t.inst.phase ≠ .hwWait) :
    NoGrant s t := ⟨h.arb, fun waits => absurd waits other⟩

theorem onInst_noGrant {s : State} {f : Inst → Inst} (other : (f s.inst).phase ≠ .hwWait) :
    NoGrant s (s.onInst f) :=
  (onInst_only s f).noGrant (by rwa [State.onInst_inst])

/-- DECODE ends the command or goes to the gate (R300, R341, R381). -/
theorem command_not_wait (p : Params) (d : Time) (x : Inst) (i : Instr) :
    (x.command p d i).phase ≠ .hwWait := by
  cases i with
  | showFrame b =>
    show (Inst.showDecode _ x).phase ≠ _
    unfold Inst.showDecode
    split
    · simp [Inst.finish]
    · split <;> simp [Inst.finish, Inst.captureShow]
  | forceClear n =>
    show (Inst.forceClear p n d x).phase ≠ _
    unfold Inst.forceClear
    split <;> simp [Inst.finish, Inst.captureClear]
  | _ => simp [Inst.command, Inst.finish]

theorem decodeStep_noGrant {s t : State} (h : decodeStep s = .next t) : NoGrant s t := by
  unfold decodeStep at h
  split at h
  · injection h with h
    exact h ▸ onInst_noGrant (by simp [Inst.finish])
  · rw [exec_eq] at h
    injection h with h
    exact h ▸ onInst_noGrant (command_not_wait _ _ _ _)

theorem raiseAndAdvance_noGrant (s : State) : NoGrant s (raiseAndAdvance s) :=
  (raiseAndAdvance_only s).noGrant (by simp [raiseAndAdvance_inst, Inst.goTo])

theorem awaitSlotStep_noGrant (s : State) : NoGrant s (awaitSlotStep s) := by
  unfold awaitSlotStep
  split
  · exact raiseAndAdvance_noGrant s
  · split
    · exact onInst_noGrant (endAttempt_not_wait _ _ _ _)
    · split
      · exact raiseAndAdvance_noGrant s
      · exact .refl s

theorem holdHighStep_noGrant (s : State) : NoGrant s (holdHighStep s) := by
  unfold holdHighStep
  split
  · exact onInst_noGrant (endAttempt_not_wait _ _ _ _)
  · split
    · refine onInst_noGrant ?_
      simp only [Inst.lower, Inst.goTo]
      split <;> simp
    · exact .refl s

theorem finalLowStep_noGrant (s : State) : NoGrant s (finalLowStep s) := by
  unfold finalLowStep
  split
  · exact onInst_noGrant (endAttempt_not_wait _ _ _ _)
  · exact .refl s

/-- A slot released in HW_WAIT is not put back into the arbiter's list (R253, R277). -/
theorem hwWaitStep_noGrant {s : State} (phase : s.inst.phase = .hwWait) :
    NoGrant s (hwWaitStep s) := by
  refine ⟨?_, fun _ => phase⟩
  unfold hwWaitStep
  split
  · rfl
  · split <;> rfl

theorem swStart_noGrant (s : State) : NoGrant s (swStart s) := by
  refine (swStart_only s).noGrant ?_
  rw [swStart_inst]
  split
  · exact endAttempt_not_wait _ _ _ _
  · simp [Inst.loadFirst]

/-- hw_start grants the head of what remains, unless the frame is empty or nothing remains (R252). -/
theorem hwStart_grants (s : State) : NoGrant s (hwStart s) ∨ Grant s (hwStart s) := by
  by_cases empty : s.inst.h.len = 0
  · rw [hwStart_empty empty]
    exact .inl (onInst_noGrant (endAttempt_not_wait _ _ _ _))
  · cases free : s.arb with
    | nil =>
      rw [hwStart_poolEmpty empty free]
      exact .inl (onInst_noGrant (endAttempt_not_wait _ _ _ _))
    | cons j rest =>
      rw [hwStart_grant empty free, Grant, grantSlot_inst]
      exact .inr ⟨rfl, free⟩

/-- The gate grants a slot only to an attempt that it starts on the hardware backend (R303, R304). -/
theorem gateStep_grants (s : State) :
    NoGrant s (gateStep s) ∨ (s.inst.ctrl.backend = true ∧ Grant s (gateStep s)) := by
  have started : NoGrant s (s.onInst fun x => x.countAttempt.toggleStart) :=
    ⟨rfl, fun waits => by rwa [State.onInst_inst, (toggleStart_only _).phase] at waits⟩
  unfold gateStep startAttempt
  split
  · split
    · rename_i backend
      exact (hwStart_grants _).imp started.trans fun grant => ⟨backend, grant⟩
    · exact .inl (started.trans (swStart_noGrant _))
  · exact .inl (.refl s)

/-- A sequencer's step grants no slot, but for a hardware attempt that starts at the gate (R253). -/
theorem seqStep_grants {s t : State} (h : seqStep s = .next t) :
    NoGrant s t ∨ (s.inst.phase = .gate ∧ s.inst.ctrl.backend = true ∧ Grant s t) := by
  unfold seqStep at h
  split at h
  case h_2 => exact .inl (decodeStep_noGrant h)
  all_goals injection h with h; subst h
  case h_1 => exact .inl (.refl s)
  case h_3 gate => exact (gateStep_grants s).imp_right fun grant => ⟨gate, grant⟩
  case h_4 => exact .inl (awaitSlotStep_noGrant s)
  case h_5 => exact .inl (holdHighStep_noGrant s)
  case h_6 => exact .inl (finalLowStep_noGrant s)
  case h_7 wait => exact .inl (hwWaitStep_noGrant wait)

theorem State.freeSlots_sorted (s : State) : s.freeSlots.Pairwise (· < ·) := by
  have slots : s.slots.Pairwise (· < ·) := by
    unfold State.slots
    split
    · exact allSlots_sorted.filter _
    · exact .nil
  exact slots.filter _

theorem State.movers_sorted (s : State) (e : Env) : (s.movers e).Pairwise (· < ·) :=
  have ids : allIds.Pairwise (· < ·) := by decide
  (ids.filter _).filter _

/-- Settles O41: the arbiter's list of a cycle is `freeSlots` of its start, in the order of the slots;
`seqStep_grants` is what a step can do to it. -/
theorem arbiterGrantsFreeSlotsInOrder : Obligations.ArbiterGrantsFreeSlotsInOrder := by
  refine ⟨fun s e => ?_, State.movers_sorted, fun s t => seqStep_grants⟩
  rw [(hostPhase_spec s e).arb]
  exact ⟨s.freeSlots_sorted, fun j => by rw [State.mem_freeSlots, and_assoc]⟩

end Sys2Proof.Machine
end

section
/-! The answer to a pull: how many bytes and items it has, what the items are, and which slot answers
(42_hw_pulsegen.md R267 to R272, R284). -/

namespace Sys2Proof.Machine

/-! ## Lengths -/

theorem padding_length {r k n : Nat} (h : k ≤ r) :
    (padding r k n).length = if k = r then n - 8 * k else 0 := by
  unfold padding
  by_cases last : k = r
  · rw [if_pos (by omega), if_pos last, List.length_replicate]
  · rw [if_neg (by omega), if_neg last]
    rfl

theorem padding_getElem? {r k n i : Nat} (h : i < (padding r k n).length) :
    (padding r k n)[i]? = some idleItem := by
  unfold padding at h ⊢
  split at h
  · rw [List.length_replicate] at h
    rw [if_pos ‹_›, List.getElem?_replicate, if_pos h]
  · exact absurd h (Nat.not_lt_zero i)

/-! ## A pull of an exhausted channel, and one that no held slot answers -/

section
variable {s : State} {j : Fin 15} {a r : Word} (n : BitVec 16)

theorem translateAnswer_exhausted (h : r = 0) :
    translateAnswer s.pool s j a r n = answerPull j a r n (List.replicate n.toNat idleItem) 0 :=
  if_pos h

theorem translateEffect_exhausted (h : r = 0) : translateEffect s.pool s j a r n = s := if_pos h

theorem translateAnswer_none (hr : r ≠ 0) (h : pullSlot s.pool j a = none) :
    translateAnswer s.pool s j a r n = answerPull j a r n [] 0 := by
  rw [translateAnswer, if_neg hr, h]

theorem translateEffect_none (hr : r ≠ 0) (h : pullSlot s.pool j a = none) :
    translateEffect s.pool s j a r n = s := by
  rw [translateEffect, if_neg hr, h]

end

/-! ## A pull that slot `q` answers -/

section
variable {s : State} {j q : Fin 15} {a r : Word} (n : BitVec 16)

theorem translateAnswer_used (hr : r ≠ 0) (h : pullSlot s.pool j a = some q) :
    (translateAnswer s.pool s j a r n).used.toNat = pullBytes (s.slotAt q) a r.toNat n.toNat := by
  rw [translateAnswer_some n hr h]
  exact answerPull_used_toNat _ _ _ _ _ _

/-- The items of a pull: those of its bytes, then idle items. -/
theorem translateAnswer_items (hr : r ≠ 0) (h : pullSlot s.pool j a = some q) :
    (translateAnswer s.pool s j a r n).items =
      translateItems (pullReader s.pool j q) (s.slotAt q)
          (translateAnswer s.pool s j a r n).used.toNat ((s.slotAt q).firstIndex a r.toNat) s ++
        padding r.toNat (translateAnswer s.pool s j a r n).used.toNat n.toNat := by
  rw [translateAnswer_used n hr h, translateAnswer_some n hr h]
  rfl

theorem translateAnswer_used_le (hr : r ≠ 0) (h : pullSlot s.pool j a = some q) :
    (translateAnswer s.pool s j a r n).used.toNat ≤ r.toNat ∧
      8 * (translateAnswer s.pool s j a r n).used.toNat ≤ n.toNat := by
  rw [translateAnswer_used n hr h]
  exact ⟨(pullBytes_le _ a r _).1, (pullBytes_le _ a r _).2.1⟩

/-- Eight items for each byte used, and as many as asked for when the bytes are the last (R270). -/
theorem translateAnswer_length (hr : r ≠ 0) (h : pullSlot s.pool j a = some q) :
    (translateAnswer s.pool s j a r n).items.length =
      if (translateAnswer s.pool s j a r n).used = r then n.toNat
      else 8 * (translateAnswer s.pool s j a r n).used.toNat := by
  obtain ⟨le_rem, le_wanted⟩ := translateAnswer_used_le n hr h
  rw [translateAnswer_items n hr h, List.length_append, translateItems_length,
    padding_length le_rem]
  by_cases last : (translateAnswer s.pool s j a r n).used = r
  · rw [if_pos (congrArg BitVec.toNat last), if_pos last]
    omega
  · rw [if_neg (mt BitVec.eq_of_toNat_eq last), if_neg last, Nat.add_zero]

/-- The items of the bytes used, bit by bit; the filling stands behind them (R267, R268). A slot that
reads nothing gives zeros. -/
theorem translateAnswer_bytes (hr : r ≠ 0) (h : pullSlot s.pool j a = some q) :
    ∃ v : Nat → Byte, (∀ t, (s.slotAt q).silent = true → v t = 0) ∧
      ∀ t, t < (translateAnswer s.pool s j a r n).used.toNat →
        SlotByte (pullReader s.pool j q) (s.slotAt q) s ((s.slotAt q).firstIndex a r.toNat + t)
          (v t) ∧
        ∀ m, m < 8 → (translateAnswer s.pool s j a r n).items[8 * t + m]? =
          some (if (v t).getLsbD (7 - m) then (s.slotAt q).bit1 else (s.slotAt q).bit0) := by
  obtain ⟨v, hv⟩ := translateItems_spec (pullReader s.pool j q) (s.slotAt q)
    (translateAnswer s.pool s j a r n).used.toNat ((s.slotAt q).firstIndex a r.toNat) s
  refine ⟨fun t => if (s.slotAt q).silent then 0 else v t, fun t silent => if_pos silent,
    fun t ht => ?_⟩
  obtain ⟨byte, bits⟩ := hv t ht
  have same : (if (s.slotAt q).silent then 0 else v t) = v t := by
    split
    · exact (byte.1 ‹_›).symm
    · rfl
  simp only [same]
  refine ⟨byte, fun m hm => ?_⟩
  rw [translateAnswer_items n hr h, List.getElem?_append_left (by rw [translateItems_length]; omega)]
  exact bits m hm

/-- Behind the items of its bytes a pull is filled with idle items (R270). -/
theorem translateAnswer_idle (hr : r ≠ 0) (h : pullSlot s.pool j a = some q) {i : Nat}
    (behind : 8 * (translateAnswer s.pool s j a r n).used.toNat ≤ i)
    (inside : i < (translateAnswer s.pool s j a r n).items.length) :
    (translateAnswer s.pool s j a r n).items[i]? = some idleItem := by
  rw [translateAnswer_items n hr h] at inside ⊢
  rw [List.length_append, translateItems_length] at inside
  rw [List.getElem?_append_right (by rw [translateItems_length]; exact behind),
    translateItems_length]
  exact padding_getElem? (by omega)

/-- A pull of at least a byte's items is answered with a byte at least: the slot has room for one. -/
theorem one_le_pullBytes (hr : r ≠ 0) (h : pullSlot s.pool j a = some q) (hn : 8 ≤ n.toNat) :
    1 ≤ pullBytes (s.slotAt q) a r.toNat n.toNat := by
  have rem : 1 ≤ r.toNat := Nat.one_le_iff_ne_zero.mpr (mt (BitVec.eq_of_toNat_eq (y := 0)) hr)
  have room : 1 ≤ (s.slotAt q).room a r.toNat := by
    unfold Slot.room
    rcases pullSlot_cases h with ⟨-, null, rfl⟩ | holds
    · rw [if_pos null]
      exact rem
    · obtain ⟨-, source, -, below⟩ := (Slot.holds_iff _ a).mp holds
      rw [source, if_neg Bool.false_ne_true]
      omega
  unfold pullBytes
  omega

end

/-! ## The count on the port -/

theorem translateAnswer_length_le (s : State) (j : Fin 15) (a r : Word) (n : BitVec 16) :
    (translateAnswer s.pool s j a r n).items.length ≤ n.toNat := by
  by_cases hr : r = 0
  · rw [translateAnswer_exhausted n hr]
    exact List.length_replicate.le
  · cases h : pullSlot s.pool j a with
    | none =>
      rw [translateAnswer_none n hr h]
      exact Nat.zero_le _
    | some q =>
      rw [translateAnswer_length n hr h]
      split
      · exact le_rfl
      · exact (translateAnswer_used_le n hr h).2

/-- The count fits the port, since no more items are sent than asked for (R251). -/
theorem translateAnswer_count (s : State) (j : Fin 15) (a r : Word) (n : BitVec 16) :
    (translateAnswer s.pool s j a r n).count.toNat =
      (translateAnswer s.pool s j a r n).items.length := by
  have field : (translateAnswer s.pool s j a r n).count =
      BitVec.ofNat 16 (translateAnswer s.pool s j a r n).items.length := by
    unfold translateAnswer
    split
    · rfl
    · split <;> rfl
  rw [field]
  exact Nat.mod_eq_of_lt ((translateAnswer_length_le s j a r n).trans_lt n.isLt)

/-! ## What a pull is answered with -/

/-- The byte of a pull, where the source space fixes it (R104, R106, R115). -/
theorem byteKnown_of_fixed {s : State} {r : Reader} {a : Word}
    (backed : isBacked s.params a.toNat = true) (free : s.racedFor r.inst a = false)
    (freeVia : s.racedFor r.via a = false) : s.byteKnown r a = some (memByte s.mem a.toNat) := by
  simp [State.byteKnown, backed, free, freeVia]

/-- Settles O42: an exhausted channel, no slot, and a slot that answers, whose items
`translateAnswer_bytes` gives bit by bit; the slot is the one that `pullSlot` finds. -/
theorem translateCountsItems : Obligations.TranslateCountsItems := by
  intro s j a r n hn ans contains
  have contains_iff (l : Fin 15) : (s.slotAt l).holds a = true ↔ contains l := Slot.holds_iff _ a
  refine ⟨translateAnswer_count s j a r n, fun empty => ?_, fun hr hq => ?_, fun q hr hq => ?_,
    pullSlot_null a, fun source => ?_⟩
  · exact ⟨congrArg PullAnswer.items (translateAnswer_exhausted n empty),
      congrArg PullAnswer.used (translateAnswer_exhausted n empty), translateEffect_exhausted n empty⟩
  · exact ⟨congrArg PullAnswer.items (translateAnswer_none n hr hq),
      congrArg PullAnswer.used (translateAnswer_none n hr hq), translateEffect_none n hr hq⟩
  · intro x room first
    have used := translateAnswer_used n hr hq
    obtain ⟨v, zero, bytes⟩ := translateAnswer_bytes n hr hq
    refine ⟨used, used ▸ one_le_pullBytes n hr hq hn, translateAnswer_length n hr hq,
      fun i => translateAnswer_idle n hr hq, v, fun t ht => (bytes t ht).2,
      fun t noSource => zero t ((Slot.silent_iff x).mpr noSource), fun t ht source bright => ?_⟩
    have reads : x.silent = false := by
      rw [Bool.eq_false_iff, ne_eq, Slot.silent_iff]
      exact not_or.mpr ⟨by simp [source], bright⟩
    obtain ⟨scaled, known⟩ := (bytes t ht).1.2 reads
    exact ⟨scaled, fun backed free freeVia => known _ (byteKnown_of_fixed backed free freeVia)⟩
  · rw [pullSlot_eq_find a (by rintro ⟨held, null⟩; simp [held, null] at source)]
    refine ⟨fun q found => ⟨?_, fun l lower => ?_⟩, fun none l => ?_⟩
    · exact (contains_iff q).mp (List.find?_some (p := fun q => (s.slotAt q).holds a) found)
    · rw [← contains_iff, find_holds_lowest found l lower]
      exact Bool.false_ne_true
    · rw [← contains_iff]
      exact List.find?_eq_none.mp none l (mem_allSlots l)

/-- Settles O43: a slot that reads nothing gives the byte 0, each of whose bits is a 0 bit. -/
theorem silentPullSendsBit0 : Obligations.SilentPullSendsBit0 := by
  intro s j q a r n hr hq noSource
  have silent := (Slot.silent_iff _).mpr noSource
  refine ⟨?_, fun i hi => ?_⟩
  · rw [translateEffect_some n hr hq]
    exact translateState_silent _ _ silent _ _ s
  · obtain ⟨v, zero, bytes⟩ := translateAnswer_bytes n hr hq
    have item := (bytes (i / 8) (by omega)).2 (i % 8) (by omega)
    rw [Nat.div_add_mod, zero _ silent] at item
    simpa using item

end Sys2Proof.Machine
end

section
/-! The waveform of a channel that emits back to back: the emission of a whole run of cycles, and the
bits of a frame in it (42_hw_pulsegen.md R281, R283). -/

namespace Sys2Proof.Machine

/-! ## A run of cycles -/

/-- A channel that makes no pause has none to come. -/
theorem emit_wait {p : Params} {t pos : Nat} {items : List Word} {m : Emission}
    (h : emit p [] t 0 pos items = some m) : m.wait = 0 := by
  induction items generalizing t pos with
  | nil =>
    injection h with h
    exact h ▸ rfl
  | cons it rest ih =>
    rw [emit_cons] at h
    split at h
    · cases h
    · split at h
      · injection h with h
        exact h ▸ rfl
      · exact ih h

/-- `x` is the channel `c` after `u` units of emission from its first item on: it has only emitted, or
has reached the idle item and transmits no more. -/
def EmittedTo (p : Params) (c : Channel) (u : Nat) (x : Channel) : Prop :=
  match emit p [] u 0 0 c.fifo with
  | some m => x = { c with wait := m.wait, pos := m.pos, fifo := m.fifo }
  | none => x.phase ≠ .running

section
variable {p : Params} {c : Channel}

theorem emittedTo_some {u : Nat} {x : Channel} {m : Emission} (h : EmittedTo p c u x)
    (goesOn : emit p [] u 0 0 c.fifo = some m) :
    x = { c with wait := m.wait, pos := m.pos, fifo := m.fifo } := by
  rwa [EmittedTo, goesOn] at h

theorem emittedTo_none {u : Nat} {x : Channel} (h : EmittedTo p c u x)
    (ended : emit p [] u 0 0 c.fifo = none) : x.phase ≠ .running := by
  rwa [EmittedTo, ended] at h

/-- A channel at the start of an item that has a first level has emitted nothing yet. -/
theorem emittedTo_zero {it : Word} {rest : List Word} (hp : 1 ≤ p.fClk) (wait : c.wait = 0)
    (pos : c.pos = 0) (fifo : c.fifo = it :: rest) (h0 : itemD0 it ≠ 0) : EmittedTo p c 0 c := by
  have lasts : 0 < itemUnits p it := Nat.mul_pos (by omega) hp
  rw [EmittedTo, fifo, emit_cons, if_neg h0, if_pos lasts]
  cases c
  simp_all

/-- A cycle without a pause or an answer emits for one cycle more, F_PERIPH units (log 27). -/
theorem emittedTo_cycle {u : Nat} {x : Channel} {d : ChanDraw} (running : c.phase = .running)
    (h : EmittedTo p c u x) (noGap : d.gaps = []) :
    EmittedTo p c (u + cycleUnits p) (x.cycle p d none) := by
  unfold EmittedTo
  rw [emit_emit]
  cases before : emit p [] u 0 0 c.fifo with
  | none => exact x.cycle_silent p d none (emittedTo_none h before)
  | some m =>
    obtain rfl := emittedTo_some h before
    obtain ⟨goesOn, ends⟩ := Channel.cycle_emits p
      { c with wait := m.wait, pos := m.pos, fifo := m.fifo } d running noGap
    dsimp only at goesOn ends ⊢
    rw [emit_wait before] at goesOn ends ⊢
    cases now : emit p [] (cycleUnits p) 0 m.pos m.fifo with
    | none => exact ends now
    | some m' => exact goesOn m' now

/-- Cycles without a pause or an answer, one after another. -/
theorem emittedTo_run {u : Nat} {x : Channel} (running : c.phase = .running) (h : EmittedTo p c u x)
    (ds : List ChanDraw) (noGaps : ∀ d ∈ ds, d.gaps = []) :
    EmittedTo p c (u + ds.length * p.fPeriph) (ds.foldl (fun x d => x.cycle p d none) x) := by
  induction ds generalizing u x with
  | nil => simpa using h
  | cons d ds ih =>
    have next := ih (emittedTo_cycle running h (noGaps d (by simp)))
      fun d' hd => noGaps d' (List.mem_cons_of_mem d hd)
    rw [List.length_cons, Nat.succ_mul]
    rwa [Nat.add_assoc, Nat.add_comm (cycleUnits p)] at next

/-- A channel that holds a frame's items and the idle item after them, after as many cycles as `ds`
has entries. -/
theorem emittedTo_frame {items : List Word} {ds : List ChanDraw} (hp : 1 ≤ p.fClk)
    (running : c.phase = .running) (wait : c.wait = 0) (pos : c.pos = 0)
    (fifo : c.fifo = items ++ [idleItem]) (nonempty : items ≠ []) (h0 : ∀ i ∈ items, itemD0 i ≠ 0)
    (noGaps : ∀ d ∈ ds, d.gaps = []) :
    EmittedTo p c (ds.length * p.fPeriph) (ds.foldl (fun x d => x.cycle p d none) c) := by
  obtain ⟨it, rest, rfl⟩ := List.exists_cons_of_ne_nil nonempty
  have run := emittedTo_run running (emittedTo_zero hp wait pos fifo (h0 it (by simp))) ds noGaps
  rwa [Nat.zero_add] at run

/-! ## What the line shows -/

/-- While an item is under emission the line is at its first level for d0 ticks, then at its second. -/
theorem emittedTo_level {u : Nat} {x : Channel} {before after : List Word} {it : Word}
    (h : EmittedTo p c u x) (running : c.phase = .running)
    (fifo : c.fifo = before ++ it :: after ++ [idleItem])
    (h0 : ∀ i ∈ before ++ it :: after, itemD0 i ≠ 0) (begun : runUnits p before ≤ u)
    (within : u < runUnits p before + itemUnits p it) :
    x.phase = .running ∧ x.level p =
      if u - runUnits p before < itemD0 it * p.fClk then itemL0 it else itemL1 it := by
  have emitted : emit p [] u 0 0 c.fifo =
      some { wait := 0, pos := u - runUnits p before, fifo := it :: (after ++ [idleItem]) } := by
    rw [fifo, List.append_assoc, List.cons_append]
    refine emit_inside p before it _ u (fun i hi => h0 i ?_) begun within
    rw [List.append_cons]
    exact List.mem_append_left after hi
  have emission := emittedTo_some h emitted
  have phase : x.phase = .running := by rw [emission, running]
  refine ⟨phase, ?_⟩
  rw [x.level_item p phase (by rw [emission]) (by rw [emission]), if_neg (h0 it (by simp)), emission]

/-- When every item has had its time the line is low. -/
theorem emittedTo_low {u : Nat} {x : Channel} {items : List Word} (h : EmittedTo p c u x)
    (fifo : c.fifo = items ++ [idleItem]) (h0 : ∀ i ∈ items, itemD0 i ≠ 0)
    (passed : runUnits p items ≤ u) : x.phase ≠ .running ∧ x.level p = false := by
  have silent := emittedTo_none h (by rw [fifo]; exact emit_over p items [] u h0 passed)
  exact ⟨silent, x.level_silent p silent⟩

end

/-! ## The bits of a frame -/

/-- The item of a bit: high for `k1` or `k0` of the `kp` ticks of its period (R156). -/
def bitItem (k0 k1 kp : BitVec 15) (b : Bool) : Word := template (if b then k1 else k0) kp

section
variable (k0 k1 kp : BitVec 15) (b : Bool)

@[simp] theorem itemD0_bitItem : itemD0 (bitItem k0 k1 kp b) = (if b then k1 else k0).toNat :=
  itemD0_item ..

@[simp] theorem itemL0_bitItem : itemL0 (bitItem k0 k1 kp b) = true := itemL0_item ..

@[simp] theorem itemL1_bitItem : itemL1 (bitItem k0 k1 kp b) = false := itemL1_item ..

end

/-- A bit lasts the bit period, whatever its high time (R156). -/
theorem itemUnits_bitItem (p : Params) {k0 k1 kp : BitVec 15} (b : Bool)
    (fits0 : k0.toNat ≤ kp.toNat) (fits1 : k1.toNat ≤ kp.toNat) :
    itemUnits p (bitItem k0 k1 kp b) = kp.toNat * p.fClk := by
  have fits : (if b then k1 else k0).toNat ≤ kp.toNat := by
    cases b
    · exact fits0
    · exact fits1
  rw [itemUnits, tickUnits, bitItem, template, itemD0_item, itemD1_item,
    BitVec.toNat_sub_of_le fits, Nat.add_sub_of_le fits]

/-- Bits last a bit period each. -/
theorem runUnits_bitItems (p : Params) {k0 k1 kp : BitVec 15} (bits : List Bool)
    (fits0 : k0.toNat ≤ kp.toNat) (fits1 : k1.toNat ≤ kp.toNat) :
    runUnits p (bits.map (bitItem k0 k1 kp)) = bits.length * (kp.toNat * p.fClk) := by
  have period : bits.map (itemUnits p ∘ bitItem k0 k1 kp) = bits.map fun _ => kp.toNat * p.fClk :=
    List.map_congr_left fun b _ => itemUnits_bitItem p b fits0 fits1
  rw [runUnits, List.map_map, period, List.map_const', List.sum_replicate, smul_eq_mul]

/-- Bit after bit: the line is high in a bit's period for exactly the bit's high time (R283). -/
theorem emittedTo_bit {p : Params} {c x : Channel} {u : Nat} {k0 k1 kp : BitVec 15}
    {before after : List Bool} {b : Bool} (h : EmittedTo p c u x) (running : c.phase = .running)
    (fifo : c.fifo = (before ++ b :: after).map (bitItem k0 k1 kp) ++ [idleItem])
    (h0 : ∀ i ∈ (before ++ b :: after).map (bitItem k0 k1 kp), itemD0 i ≠ 0)
    (fits0 : k0.toNat ≤ kp.toNat) (fits1 : k1.toNat ≤ kp.toNat)
    (begun : before.length * (kp.toNat * p.fClk) ≤ u)
    (within : u < (before.length + 1) * (kp.toNat * p.fClk)) :
    x.level p = true ↔ u - before.length * (kp.toNat * p.fClk) <
      (if b then k1 else k0).toNat * p.fClk := by
  have start := runUnits_bitItems p before fits0 fits1
  rw [List.map_append, List.map_cons] at fifo h0
  rw [← start] at begun ⊢
  rw [Nat.succ_mul, ← start, ← itemUnits_bitItem p b fits0 fits1] at within
  rw [(emittedTo_level h running fifo h0 begun within).2, itemD0_bitItem, itemL0_bitItem,
    itemL1_bitItem]
  split <;> simp [*]

/-- A tick is F_CLK units long and a cycle F_PERIPH, in nanoseconds (R9, log 27). -/
theorem ticksNs_eq (p : Params) (k : Nat) (hp : 1 ≤ p.fClk) :
    ticksNs p k = cyclesNs p (tickUnits p k) / cycleUnits p := by
  have : (p.fClk : Rat) ≠ 0 := by exact_mod_cast Nat.one_le_iff_ne_zero.mp hp
  unfold ticksNs cyclesNs tickUnits cycleUnits
  push_cast
  field_simp

/-- Settles O32: `emittedTo_frame` is the channel after the cycles; at an item its level is that of
`emittedTo_level`, at a bit that of `emittedTo_bit`, and after the last item `emittedTo_low`. -/
theorem hardwareWaveformIsExact : Obligations.HardwareWaveformIsExact := by
  refine ⟨fun p k hp => ⟨ticksNs_eq p k hp, rfl, rfl⟩, ?_⟩
  intro p c ds hp running wait pos noGaps t u
  refine ⟨fun before it after fifo h0 => ?_, fun items fifo nonempty h0 => ?_,
    fun bits k0 k1 kp high0 fits0 high1 fits1 fifo i b bit begun within => ?_⟩
  · have frame := emittedTo_frame hp running wait pos fifo (by simp) h0 noGaps
    exact emittedTo_level frame running fifo h0
  · exact emittedTo_low (emittedTo_frame hp running wait pos fifo nonempty h0 noGaps) fifo h0
  · obtain ⟨inside, rfl⟩ := List.getElem?_eq_some_iff.mp bit
    have h0 : ∀ it ∈ bits.map (bitItem k0 k1 kp), itemD0 it ≠ 0 := by
      intro it hit
      obtain ⟨b, -, rfl⟩ := List.mem_map.mp hit
      rw [itemD0_bitItem]
      cases b
      · exact high0.ne'
      · exact high1.ne'
    have nonempty : bits.map (bitItem k0 k1 kp) ≠ [] := by
      rintro empty
      simp [List.map_eq_nil_iff.mp empty] at inside
    have frame := emittedTo_frame hp running wait pos fifo nonempty h0 noGaps
    have parts : bits = bits.take i ++ bits[i] :: bits.drop (i + 1) := by
      rw [← List.drop_eq_getElem_cons inside, List.take_append_drop]
    have len : (bits.take i).length = i := List.length_take_of_le inside.le
    have level := emittedTo_bit (before := bits.take i) (b := bits[i]) (after := bits.drop (i + 1))
      frame running (parts ▸ fifo) (parts ▸ h0) fits0 fits1
    rw [len] at level
    exact level begun within

end Sys2Proof.Machine
end

section
/-! The DECODE cycles of SHOW and FORCE_CLEAR (43_show_retry_throttle.md R300 to R303,
44_forceclear_stats_misc.md R341, R343). -/

namespace Sys2Proof.Machine

/-! ## When they refuse -/

/-- No valid profile for the selected backend (R300, R341). -/
theorem Inst.noProfile_iff (x : Inst) : x.noProfile = true ↔
    x.status.profileValid = false ∨
      (x.ctrl.backend = true ∧ x.status.hwProfileValid = false) := by
  simp [Inst.noProfile]

/-- A range SHOW refuses (R300). -/
theorem Inst.badLength_iff (x : Inst) : x.badLength = true ↔
    (x.ctrl.reorder = true ∧ x.cfg.srcLen.toNat % 3 ≠ 0) ∨
      x.cfg.srcAddr.toNat + x.cfg.srcLen.toNat > 2 ^ 32 := by
  simp only [Inst.badLength, rangeTooLong, Bool.or_eq_true, Bool.and_eq_true, decide_eq_true_eq]

/-! ## What they make of the instance -/

section
variable {x : Inst}

theorem showDecode_noProfile (b : Byte) (refused : x.noProfile = true) :
    x.showDecode b = x.finish false .noProfile := if_pos refused

theorem showDecode_badLength (b : Byte) (valid : ¬ x.noProfile = true) (bad : x.badLength = true) :
    x.showDecode b = x.finish false .badLength := by
  rw [Inst.showDecode, if_neg valid, if_pos bad]

theorem showDecode_captures (b : Byte) (valid : ¬ x.noProfile = true)
    (fits : ¬ x.badLength = true) : x.showDecode b = x.captureShow b := by
  rw [Inst.showDecode, if_neg valid, if_neg fits]

theorem forceClear_noProfile (p : Params) (n : Nat) (d : Time) (refused : x.noProfile = true) :
    x.forceClear p n d = x.driveLow.finish false .noProfile := if_pos refused

theorem forceClear_captures (p : Params) (n : Nat) (d : Time) (valid : ¬ x.noProfile = true) :
    x.forceClear p n d = x.driveLow.captureClear p n d := if_neg valid

end

/-- FORCE_CLEAR drives the line low, with or without a profile (R341). -/
theorem forceClear_pins (p : Params) (n : Nat) (d : Time) (x : Inst) :
    (x.forceClear p n d).pins = x.driveLow.pins := by
  unfold Inst.forceClear
  split <;> rfl

/-- The null frame's length fits its register (R341). -/
theorem captureClear_len {n : Nat} (fits : n < 2 ^ 24) (p : Params) (d : Time) (x : Inst) :
    (x.captureClear p n d).h.len.toNat = 3 * n :=
  (BitVec.toNat_ofNat _ _).trans (Nat.mod_eq_of_lt (by omega))

/-- FORCE_CLEAR may make FC_ATTEMPTS attempts, the first of them without a retry (R341). -/
theorem captureClear_left {p : Params} (legal : p.legal) (n : Nat) (d : Time) (x : Inst) :
    (x.captureClear p n d).h.left.toNat + 1 = p.fcAttempts := by
  obtain ⟨-, -, -, ⟨atLeastOne, atMost15⟩, -⟩ := legal
  have left : (x.captureClear p n d).h.left.toNat = (p.fcAttempts - 1) % 2 ^ 4 :=
    BitVec.toNat_ofNat _ _
  omega

/-- Settles O18: `showDecode` by its two tests, which `noProfile_iff` and `badLength_iff` read. -/
theorem showDecodes : Obligations.ShowDecodes := by
  intro s b wf x noProfile badLength
  have missing : x.noProfile = true ↔ noProfile := x.noProfile_iff
  have bad : x.badLength = true ↔ badLength := x.badLength_iff
  refine ⟨_, rfl, onInst_sameOutside s _, fun refused => ?_, fun ⟨valid, refused⟩ => ?_,
    fun ⟨valid, fits⟩ => ?_⟩ <;> rw [State.onInst_inst]
  · rw [showDecode_noProfile _ (missing.mpr refused)]
    rfl
  · rw [showDecode_badLength _ (mt missing.mp valid) (bad.mpr refused)]
    rfl
  · rw [showDecode_captures _ (mt missing.mp valid) (mt bad.mp fits)]
    exact ⟨rfl, (BitVec.toNat_ofNat _ _).trans (Nat.mod_eq_of_lt (of_decide_eq_true wf))⟩

/-- Settles O19: the line by `forceClear_pins`, then `forceClear` by its test, the captured numbers by
`captureClear_len` and `captureClear_left`. -/
theorem forceClearDecodes : Obligations.ForceClearDecodes := by
  intro s n legal wf x noProfile
  have missing : x.noProfile = true ↔ noProfile := x.noProfile_iff
  refine ⟨_, rfl, onInst_sameOutside s _, ?_, fun refused => ?_, fun valid => ?_⟩ <;>
    rw [State.onInst_inst]
  · exact forceClear_pins s.params n s.cycle x
  · rw [forceClear_noProfile _ _ _ (missing.mpr refused)]
    rfl
  · rw [forceClear_captures _ _ _ (mt missing.mp valid)]
    exact ⟨rfl, captureClear_len (of_decide_eq_true wf) _ _ _, captureClear_left legal _ _ _⟩

end Sys2Proof.Machine
end

section
/-! The gate, the end of an attempt, and the retry budget of SHOW (43_show_retry_throttle.md R302 to
R307, R313, 44_forceclear_stats_misc.md R341, R346). -/

namespace Sys2Proof.Machine

/-! ## The debug triggers and the bookkeeping -/

section
variable (x : Inst)

/-- The start trigger toggles with DBG_EN (R304, R402). -/
theorem toggleStart_eq : x.toggleStart = { x with pins := { x.pins with
    dbgStart := if x.ctrl.dbgEn then !x.pins.dbgStart else x.pins.dbgStart } } := by
  unfold Inst.toggleStart
  split <;> rfl

/-- The abort trigger toggles with DBG_EN (R306, R402). -/
theorem toggleAbort_eq : x.toggleAbort = { x with pins := { x.pins with
    dbgAbort := if x.ctrl.dbgEn then !x.pins.dbgAbort else x.pins.dbgAbort } } := by
  unfold Inst.toggleAbort
  split <;> rfl

/-- What an attempt's end counts, for either owner: the epoch and the snapshot stay (R306, R307). -/
theorem noteEnd_stats (ok : Bool) (f : Time) : (x.noteEnd ok f).stats = { x.stats with
    lastDisplay := f
    frames := (x.noteEnd ok f).stats.frames
    aborted := (x.noteEnd ok f).stats.aborted } := by
  unfold Inst.noteEnd
  split <;> rfl

/-- An attempt's end writes the statistics alone before it decides what follows (R306). -/
theorem noteEnd_eq (ok : Bool) (f : Time) :
    x.noteEnd ok f = { x with stats := (x.noteEnd ok f).stats } := by
  unfold Inst.noteEnd
  split <;> rfl

end

section
variable {x : Inst}

theorem noteEnd_of_show (owned : x.ownedByShow = true) (ok : Bool) (f : Time) :
    x.noteEnd ok f = x.recordStats ok f := if_pos owned

theorem noteEnd_of_other (other : ¬ x.ownedByShow = true) (ok : Bool) (f : Time) :
    x.noteEnd ok f = x.stampDisplay f := if_neg other

end

/-! ## A successful end -/

/-- A success writes nothing of ABORTED (R307). -/
theorem noteEnd_success_aborted (x : Inst) (f : Time) :
    (x.noteEnd true f).stats.aborted = x.stats.aborted := by
  unfold Inst.noteEnd
  split <;> rfl

/-- Settles O24: `noteEnd` and then `finish`; only SHOW counts the frame. -/
theorem attemptSucceeds : Obligations.AttemptSucceeds := by
  intro x code f y
  have ended : y = (x.noteEnd true f).finish true .none := rfl
  rw [ended]
  constructor
  · rw [noteEnd_eq, noteEnd_stats, noteEnd_success_aborted]
    rfl
  · show (x.noteEnd true f).stats.frames.toNat = _
    by_cases owned : x.ownedByShow = true
    · rw [noteEnd_of_show owned, if_pos (x.ownedByShow_iff.mp owned)]
      exact sat32_min _
    · rw [noteEnd_of_other owned, if_neg (mt x.ownedByShow_iff.mpr owned)]
      rfl

/-! ## A failed end -/

/-- The gap before a retry (R303, R341). -/
def Inst.gap (x : Inst) : Word := if x.ownedByShow then x.retryGap else x.prof.cycReset

/-- The longer of the two waits is one of them, so the gap keeps its value (R303). -/
theorem gap_toNat (x : Inst) : x.gap.toNat =
    if x.h.cmdword.toNat % 256 = 2 then max x.prof.cycReset.toNat x.prof.cycMindisp.toNat
    else x.prof.cycReset.toNat := by
  rw [Inst.gap, apply_ite BitVec.toNat]
  refine if_congr x.ownedByShow_iff ?_ rfl
  exact (BitVec.toNat_ofNat _ _).trans
    (Nat.mod_eq_of_lt (max_lt x.prof.cycReset.isLt x.prof.cycMindisp.isLt))

/-- What a failure notes before it decides what follows: the statistics, the code and the abort trigger
(R306). -/
def Inst.noteFailure (code : ErrCode) (f : Time) (x : Inst) : Inst :=
  { x with
    stats := (x.noteEnd false f).stats
    h := { x.h with err := code }
    pins := { x.pins with dbgAbort := if x.ctrl.dbgEn then !x.pins.dbgAbort else x.pins.dbgAbort } }

theorem noteError_noteEnd (x : Inst) (code : ErrCode) (f : Time) :
    (x.noteEnd false f).noteError code = x.noteFailure code f := by
  rw [noteEnd_eq, Inst.noteError, toggleAbort_eq]
  rfl

/-- The two owners of an attempt differ in their gap alone once the failure is noted (R306, R341). -/
theorem endAttempt_failure (x : Inst) (code : ErrCode) (f : Time) :
    x.endAttempt false code f = if x.h.left = 0 then (x.noteFailure code f).finish false code
      else (x.noteFailure code f).spendRetry.enterGate f x.gap := by
  rw [Inst.endAttempt, if_neg Bool.false_ne_true, noteError_noteEnd, Inst.gap]
  split <;> rfl

/-- Of the statistics a failed end writes those of its bookkeeping (R306). -/
theorem endAttempt_failure_stats (x : Inst) (code : ErrCode) (f : Time) :
    (x.endAttempt false code f).stats = (x.noteEnd false f).stats := by
  rw [endAttempt_failure]
  split <;> rfl

theorem endAttempt_failure_pins (x : Inst) (code : ErrCode) (f : Time) :
    (x.endAttempt false code f).pins = (x.noteFailure code f).pins := by
  rw [endAttempt_failure]
  split <;> rfl

/-- Only a SHOW counts the frame and its abort (R307). -/
theorem noteEnd_failure_counts (x : Inst) (f : Time) :
    (x.h.cmdword.toNat % 256 = 2 →
      (x.noteEnd false f).stats.frames.toNat = min (x.stats.frames.toNat + 1) 0xFFFFFFFF ∧
      (x.noteEnd false f).stats.aborted.toNat = min (x.stats.aborted.toNat + 1) 0xFFFFFFFF) ∧
    (¬ x.h.cmdword.toNat % 256 = 2 →
      (x.noteEnd false f).stats.frames = x.stats.frames ∧
      (x.noteEnd false f).stats.aborted = x.stats.aborted) := by
  rw [← x.ownedByShow_iff]
  refine ⟨fun owned => ?_, fun other => ?_⟩
  · rw [noteEnd_of_show owned]
    exact ⟨sat32_min _, sat32_min _⟩
  · rw [noteEnd_of_other other]
    exact ⟨rfl, rfl⟩

theorem Inst.left_eq_zero_iff (x : Inst) : x.h.left = 0 ↔ x.h.left.toNat = 0 := BitVec.toNat_eq

/-- A failed end takes a retry, where one is left (R306). -/
theorem endAttempt_failure_left (x : Inst) (code : ErrCode) (f : Time) :
    (x.endAttempt false code f).h.left.toNat = x.h.left.toNat - 1 := by
  rw [endAttempt_failure]
  split
  next spent =>
    show x.h.left.toNat = _
    rw [x.left_eq_zero_iff.mp spent]
  next remains =>
    exact BitVec.toNat_sub_of_le (Nat.one_le_iff_ne_zero.mpr (mt x.left_eq_zero_iff.mpr remains))

/-- The count of the attempts is its start's, and its end leaves it alone (R304, R306). -/
theorem endAttempt_failure_attempts (x : Inst) (code : ErrCode) (f : Time) :
    (x.endAttempt false code f).h.attempts = x.h.attempts ∧
      (x.endAttempt false code f).status.attempts = x.status.attempts := by
  rw [endAttempt_failure]
  split <;> exact ⟨rfl, rfl⟩

/-- Settles O25: `endAttempt_failure` is what follows, `noteFailure` what is kept of the failure. -/
theorem attemptFails : Obligations.AttemptFails := by
  intro x code f y isShow
  have only : OnlyAttemptEnd x y := endAttempt_only x false code f
  have stats : y.stats = (x.noteEnd false f).stats := endAttempt_failure_stats x code f
  obtain ⟨counted, uncounted⟩ := noteEnd_failure_counts x f
  refine ⟨only.ctrl, only.cfg, only.prof, only.hiLatch, endAttempt_failure_pins x code f, ?_,
    stats ▸ counted, stats ▸ uncounted, fun spent => ?_, fun remains => ?_⟩
  · rw [stats]
    exact noteEnd_stats x false f
  · have ended : y = (x.noteFailure code f).finish false code :=
      (endAttempt_failure x code f).trans (if_pos spent)
    rw [ended]
    exact ⟨rfl, rfl, rfl⟩
  · have again : y = (x.noteFailure code f).spendRetry.enterGate f x.gap :=
      (endAttempt_failure x code f).trans (if_neg remains)
    have left : y.h.left.toNat = x.h.left.toNat - 1 := endAttempt_failure_left x code f
    have positive : x.h.left.toNat ≠ 0 := mt x.left_eq_zero_iff.mpr remains
    exact ⟨again ▸ rfl, again ▸ rfl, again ▸ rfl, by omega, again ▸ gap_toNat x⟩

/-! ## The start of an attempt -/

/-- The attempt is counted, the count mirrored, and at most a debug pin moves (R304). -/
theorem start_eq (x : Inst) : x.countAttempt.toggleStart =
    { x with
      h := { x.h with attempts := x.countAttempt.h.attempts }
      status := { x.status with attempts := x.countAttempt.h.attempts }
      pins := { x.pins with
        dbgStart := if x.ctrl.dbgEn then !x.pins.dbgStart else x.pins.dbgStart } } :=
  toggleStart_eq _

theorem countAttempt_toNat (x : Inst) :
    x.countAttempt.h.attempts.toNat = min (x.h.attempts.toNat + 1) 255 :=
  (BitVec.toNat_ofNat _ _).trans (Nat.mod_eq_of_lt (by omega))

section
variable {s : State}

theorem seqStep_gate (phase : s.inst.phase = .gate) : seqStep s = .next (gateStep s) := by
  rw [seqStep, phase]

theorem gateStep_waits (early : elapsed s.cycle s.inst.h.gateT < s.inst.h.gateD.toNat) :
    gateStep s = s := if_neg early.not_ge

theorem gateStep_starts (due : s.inst.h.gateD.toNat ≤ elapsed s.cycle s.inst.h.gateT) :
    gateStep s = startAttempt s := if_pos due

end

theorem startAttempt_eq (s : State) : startAttempt s =
    (if s.inst.ctrl.backend then hwStart else swStart)
      (s.onInst fun x => x.countAttempt.toggleStart) := by
  unfold startAttempt
  split <;> rfl

/-- Settles O27: the two steps of GATE, the elapsed time in numbers, and `start_eq` for the acting
instance. -/
theorem gateWaitsThenStarts : Obligations.GateWaitsThenStarts := by
  intro s phase opened
  have passed := elapsed_of_le opened
  rw [seqStep_gate phase]
  refine ⟨fun early => congrArg _ (gateStep_waits (passed.trans_lt early)), fun due =>
    ⟨s.inst.countAttempt.h.attempts, countAttempt_toNat s.inst, congrArg _ ?_⟩⟩
  rw [gateStep_starts (due.trans passed.ge), startAttempt_eq]
  exact congrArg (fun x => (if s.inst.ctrl.backend then hwStart else swStart) (s.setInstAt s.cur x))
    (start_eq s.inst)

/-! ## A failed attempt -/

/-- An attempt that fails with a code in a cycle: its start (R304) and its end (R306). -/
def Inst.failedAttempt (x : Inst) (e : ErrCode × Time) : Inst :=
  x.countAttempt.toggleStart.failAttempt e.1 e.2

section
variable (x : Inst) (e : ErrCode × Time)

theorem failedAttempt_eq :
    x.failedAttempt e = x.countAttempt.toggleStart.endAttempt false e.1 e.2 := rfl

theorem failedAttempt_cmdword : (x.failedAttempt e).h.cmdword = x.h.cmdword := by
  rw [failedAttempt_eq, (endAttempt_only _ _ _ _).cmdword, start_eq]

theorem failedAttempt_left : (x.failedAttempt e).h.left.toNat = x.h.left.toNat - 1 := by
  rw [failedAttempt_eq, endAttempt_failure_left, start_eq]

/-- The count of the attempt's start stands in STATUS after its end (R304). -/
theorem failedAttempt_attempts :
    (x.failedAttempt e).h.attempts.toNat = min (x.h.attempts.toNat + 1) 255 ∧
      (x.failedAttempt e).status.attempts = (x.failedAttempt e).h.attempts := by
  obtain ⟨hidden, mirror⟩ := endAttempt_failure_attempts x.countAttempt.toggleStart e.1 e.2
  rw [failedAttempt_eq, hidden, mirror, start_eq]
  exact ⟨countAttempt_toNat x, rfl⟩

theorem failedAttempt_lastDisplay : (x.failedAttempt e).stats.lastDisplay = e.2 := by
  rw [failedAttempt_eq, endAttempt_failure_stats, noteEnd_stats]

end

section
variable {x : Inst} (e : ErrCode × Time)

/-- A SHOW's failed attempt counts a frame and an abort (R307). -/
theorem failedAttempt_counts (isShow : x.h.cmdword.toNat % 256 = 2) :
    (x.failedAttempt e).stats.frames.toNat = min (x.stats.frames.toNat + 1) 0xFFFFFFFF ∧
      (x.failedAttempt e).stats.aborted.toNat = min (x.stats.aborted.toNat + 1) 0xFFFFFFFF := by
  obtain ⟨counts, -⟩ := noteEnd_failure_counts x.countAttempt.toggleStart e.2
  rw [failedAttempt_eq, endAttempt_failure_stats]
  rw [start_eq] at counts ⊢
  exact counts isShow

/-- With a retry left the sequencer goes back to GATE (R306). -/
theorem failedAttempt_again (remains : x.h.left ≠ 0) : (x.failedAttempt e).phase = .gate := by
  rw [failedAttempt_eq, endAttempt_failure, start_eq, if_neg remains]
  rfl

/-- Without one the command ends with the attempt's code (R306). -/
theorem failedAttempt_ends (spent : x.h.left = 0) :
    (x.failedAttempt e).phase = .idle ∧ (x.failedAttempt e).status.busy = false ∧
      (x.failedAttempt e).status.lastOk = false ∧ (x.failedAttempt e).status.err = e.1 := by
  rw [failedAttempt_eq, endAttempt_failure, start_eq, if_pos spent]
  exact ⟨rfl, rfl, rfl, rfl⟩

end

/-! ## The retry budget -/

/-- `z` is an instance whose SHOW, begun with retry budget `R` and the counters of `stats`, has failed
in `n` attempts (R302, R307, R313). -/
structure Inst.AfterFailures (stats : Stats) (R : BitVec 4) (n : Nat) (z : Inst) : Prop where
  isShow : z.h.cmdword.toNat % 256 = 2
  left : z.h.left.toNat = R.toNat - n
  counted : z.h.attempts.toNat = n
  mirrored : z.status.attempts.toNat = n
  frames : z.stats.frames.toNat = min (stats.frames.toNat + n) 0xFFFFFFFF
  aborted : z.stats.aborted.toNat = min (stats.aborted.toNat + n) 0xFFFFFFFF
  gate : n ≤ R.toNat → z.phase = .gate

/-- SHOW's DECODE step has spent nothing of the budget. -/
theorem captureShow_afterFailures {x : Inst} (b : Byte) (isShow : x.h.cmdword.toNat % 256 = 2) :
    (x.captureShow b).AfterFailures x.stats x.ctrl.retry 0 where
  isShow := isShow
  left := rfl
  counted := rfl
  mirrored := rfl
  frames := (min_eq_left (Nat.le_of_lt_succ x.stats.frames.isLt)).symm
  aborted := (min_eq_left (Nat.le_of_lt_succ x.stats.aborted.isLt)).symm
  gate _ := rfl

/-- The next failed attempt takes a retry if one is left; ATTEMPTS does not saturate, the budget being
at most 15 (R302, R304). -/
theorem Inst.AfterFailures.next {stats : Stats} {R : BitVec 4} {n : Nat} {z : Inst}
    (h : z.AfterFailures stats R n) (within : n ≤ R.toNat) (e : ErrCode × Time) :
    (z.failedAttempt e).AfterFailures stats R (n + 1) := by
  obtain ⟨counted, mirrored⟩ := failedAttempt_attempts z e
  obtain ⟨frames, aborted⟩ := failedAttempt_counts e h.isShow
  have counted' : (z.failedAttempt e).h.attempts.toNat = n + 1 := by
    have := R.isLt
    rw [counted, h.counted]
    omega
  constructor
  case isShow => rw [failedAttempt_cmdword, h.isShow]
  case left => rw [failedAttempt_left, h.left, Nat.sub_sub]
  case counted => exact counted'
  case mirrored => rw [mirrored, counted']
  case frames =>
    rw [frames, h.frames]
    omega
  case aborted =>
    rw [aborted, h.aborted]
    omega
  case gate =>
    refine fun more => failedAttempt_again e fun spent => ?_
    rw [z.left_eq_zero_iff, h.left] at spent
    omega

/-- The failures of SHOW one after another, as many as the budget and the first attempt allow. -/
theorem foldl_afterFailures {x : Inst} (b : Byte) (isShow : x.h.cmdword.toNat % 256 = 2)
    (ends : List (ErrCode × Time)) (within : ends.length ≤ x.ctrl.retry.toNat + 1) :
    (ends.foldl Inst.failedAttempt (x.captureShow b)).AfterFailures x.stats x.ctrl.retry
      ends.length := by
  induction ends using List.reverseRecOn with
  | nil => exact captureShow_afterFailures b isShow
  | append_singleton rest e ih =>
    rw [List.length_append, List.length_singleton] at within ⊢
    rw [List.foldl_concat]
    exact (ih (by omega)).next (by omega) e

/-- Settles O26: `foldl_afterFailures` after all the attempts, and before the last of them for how it
ends. -/
theorem retryBudgetBoundsAttempts : Obligations.RetryBudgetBoundsAttempts := by
  intro x b ends isShow within y
  have h : y.AfterFailures x.stats x.ctrl.retry ends.length := foldl_afterFailures b isShow ends within
  refine ⟨h.mirrored, h.frames, h.aborted, fun more => ⟨h.gate more, ?_⟩, ?_⟩
  · rw [h.left]
    exact Nat.sub_add_cancel more
  · rintro e rest rfl
    have last : y = (rest.foldl Inst.failedAttempt (x.captureShow b)).failedAttempt e :=
      List.foldl_concat ..
    rw [List.length_append, List.length_singleton] at within ⊢
    refine ⟨last ▸ failedAttempt_lastDisplay _ e, fun all => ?_⟩
    have before := foldl_afterFailures b isShow rest (by omega)
    rw [last]
    refine failedAttempt_ends e ?_
    rw [Inst.left_eq_zero_iff, before.left]
    omega

end Sys2Proof.Machine
end

section
/-! The commands that end in their DECODE cycle, the statistics, and the line after a FORCE_CLEAR
(10_state.md R37, 44_forceclear_stats_misc.md R341 to R360). -/

namespace Sys2Proof.Machine

/-! ## NOP, GET_STATS, CLEAR_STATS and BEGIN -/

/-- Settles O14: `exec_eq`, where NOP's command is `finish` with success. -/
theorem nopCompletes : Obligations.NopCompletes := fun s =>
  ⟨_, exec_eq .nop s, onInst_sameOutside s _, State.onInst_inst s _⟩

/-- Settles O21: `exec_eq`, where CLEAR_STATS restarts the epoch and finishes. -/
theorem clearStatsRestartsEpoch : Obligations.ClearStatsRestartsEpoch := fun s =>
  ⟨_, exec_eq .clearStats s, onInst_sameOutside s _, State.onInst_inst s _⟩

/-- A driven line that is not routed carries DOUT (R37). -/
theorem State.lineLevel_of_unrouted {s : State} {k : Fin 8} (driven : (s.instAt k).pins.doutOe = true)
    (unrouted : (s.instAt k).phase ≠ .hwWait) : s.lineLevel k = some (s.instAt k).pins.dout := by
  obtain ⟨line, -⟩ := statusWordLayout
  obtain ⟨-, -, dout⟩ := line s k
  exact dout driven unrouted

/-- Settles O22: `exec_eq`, where BEGIN drives the line low and finishes; an idle sequencer routes no
channel to the line. -/
theorem beginDrivesLineLow : Obligations.BeginDrivesLineLow := by
  intro s
  refine ⟨_, exec_eq .beginLine s, onInst_sameOutside s _, State.onInst_inst s _, ?_⟩
  generalize after : s.onInst (fun x => x.command s.params s.cycle .beginLine) = t
  have acting : t.instAt s.cur = s.inst.driveLow.finish true .none := after ▸ State.onInst_inst s _
  rw [State.lineLevel_of_unrouted] <;> rw [acting]
  · rfl
  · rfl
  · simp [Inst.finish]

/-- Without a valid profile there is no rate (R352). -/
theorem fps_of_invalid {x : Inst} (invalid : x.status.profileValid = false) (d : Time) :
    x.fps d = 0 := by
  simp [Inst.fps, invalid]

/-- The rate of a valid profile, saturated (R352). -/
theorem fps_toNat {x : Inst} (valid : x.status.profileValid = true) (d : Time) :
    (x.fps d).toNat = if x.elapsedMs d = 0 then 0
      else min (x.stats.frames.toNat * 1000 / x.elapsedMs d) 0xFFFFFFFF := by
  rw [Inst.fps, valid]
  split
  · contradiction
  · rw [apply_ite BitVec.toNat, sat32_min]
    rfl

/-- Settles O20: `exec_eq` for the frame, the two cases of `fps` for the snapshot, the elapsed time in
numbers by R33's premise. -/
theorem getStatsSnapshots : Obligations.GetStatsSnapshots := by
  intro s x ms
  refine ⟨_, exec_eq .getStats s, onInst_sameOutside s _, ?_⟩
  rw [State.onInst_inst]
  refine ⟨rfl, fun invalid => fps_of_invalid invalid s.cycle, fun valid started => ?_⟩
  have elapsed_ms : x.elapsedMs s.cycle = ms := by rw [Inst.elapsedMs, elapsed_of_le started]
  rw [← elapsed_ms]
  exact fps_toNat valid s.cycle

/-! ## What a sequencer's step makes of the statistics and the line -/

/-- What the phases of an attempt leave alone until it ends: the statistics, whether the line is driven,
and the command that owns the attempt. -/
def Inst.record (x : Inst) : Stats × Bool × Word := (x.stats, x.pins.doutOe, x.h.cmdword)

/-- What a step of an attempt in cycle `c` makes of `x`: the attempt goes on and the record is kept, or
the attempt ends, from an instance `y` with the record of `x` (R306). -/
inductive AttemptStep (c : Time) (x : Inst) : Inst → Prop
  | goesOn {y : Inst} (kept : y.record = x.record) : AttemptStep c x y
  | ends {y : Inst} {ok : Bool} {code : ErrCode} (kept : y.record = x.record) :
      AttemptStep c x (y.endAttempt ok code c)

theorem AttemptStep.of_record {c : Time} {x y z : Inst} (h : AttemptStep c y z)
    (kept : y.record = x.record) : AttemptStep c x z := by
  cases h with
  | goesOn record => exact .goesOn (record.trans kept)
  | ends record => exact .ends (record.trans kept)

/-- An abort lowers the pin before the attempt fails (R227). -/
theorem abort_attemptStep (c : Time) (x : Inst) : AttemptStep c x (x.abort c) :=
  .ends (y := x.setPin false) (ok := false) (code := .overrun) rfl

section
variable (s : State)

theorem swStart_attemptStep : AttemptStep s.cycle s.inst (swStart s).inst := by
  rw [swStart_inst]
  split
  · exact .ends rfl
  · exact .goesOn rfl

theorem hwStart_attemptStep : AttemptStep s.cycle s.inst (hwStart s).inst := by
  by_cases empty : s.inst.h.len = 0
  · rw [hwStart_empty empty, State.onInst_inst]
    exact .ends rfl
  · cases free : s.arb with
    | nil =>
      rw [hwStart_poolEmpty empty free, State.onInst_inst]
      exact .ends rfl
    | cons j rest =>
      rw [hwStart_grant empty free, grantSlot_inst]
      exact .goesOn rfl

theorem gateStep_attemptStep : AttemptStep s.cycle s.inst (gateStep s).inst := by
  have started : (s.onInst fun x => x.countAttempt.toggleStart).inst.record = s.inst.record := by
    rw [State.onInst_inst, start_eq]
    rfl
  unfold gateStep startAttempt
  split
  · split
    · exact (hwStart_attemptStep (s.onInst _)).of_record started
    · exact (swStart_attemptStep (s.onInst _)).of_record started
  · exact .goesOn rfl

theorem raiseAndAdvance_record : (raiseAndAdvance s).inst.record = s.inst.record := by
  rw [raiseAndAdvance_inst]
  split
  · rfl
  · split <;> rfl

theorem awaitSlotStep_attemptStep : AttemptStep s.cycle s.inst (awaitSlotStep s).inst := by
  unfold awaitSlotStep
  split
  · exact .goesOn (raiseAndAdvance_record s)
  · split
    · rw [State.onInst_inst]
      exact abort_attemptStep s.cycle s.inst
    · split
      · exact .goesOn (raiseAndAdvance_record s)
      · exact .goesOn rfl

theorem holdHighStep_attemptStep : AttemptStep s.cycle s.inst (holdHighStep s).inst := by
  unfold holdHighStep
  split
  · rw [State.onInst_inst]
    exact abort_attemptStep s.cycle s.inst
  · split
    · rw [State.onInst_inst]
      exact .goesOn rfl
    · exact .goesOn rfl

theorem finalLowStep_attemptStep : AttemptStep s.cycle s.inst (finalLowStep s).inst := by
  unfold finalLowStep
  split
  · rw [State.onInst_inst]
    exact .ends rfl
  · exact .goesOn rfl

theorem hwWaitStep_attemptStep : AttemptStep s.cycle s.inst (hwWaitStep s).inst := by
  unfold hwWaitStep
  split
  · rw [State.onInst_inst]
    exact .ends rfl
  · split
    · rw [State.onInst_inst]
      exact .ends rfl
    · exact .goesOn rfl

end

section
variable {s t : State}

/-- The DECODE cycle of a command word (R381). -/
theorem seqStep_command {i : Instr} (phase : s.inst.phase = .decode)
    (word : decode s.inst.h.cmdword = .command i) (h : seqStep s = .next t) :
    t.inst = s.inst.command s.params s.cycle i := by
  rw [seqStep_decode phase word, exec_eq] at h
  injection h with h
  rw [← h, State.onInst_inst]

/-- What a sequencer's step can do to its instance: end an illegal command, perform a command, or take
an attempt on. -/
theorem seqStep_cases (h : seqStep s = .next t) :
    t.inst = s.inst.finish false .illegalCmd ∨
    (∃ i, s.inst.phase = .decode ∧ decode s.inst.h.cmdword = .command i ∧
      t.inst = s.inst.command s.params s.cycle i) ∨
    AttemptStep s.cycle s.inst t.inst := by
  by_cases phase : s.inst.phase = .decode
  · cases word : decode s.inst.h.cmdword with
    | illegal why =>
      rw [seqStep_illegal phase word] at h
      injection h with h
      exact .inl (h ▸ State.onInst_inst s _)
    | command i => exact .inr (.inl ⟨i, phase, rfl, seqStep_command phase word h⟩)
  · refine .inr (.inr ?_)
    unfold seqStep at h
    split at h
    case h_2 decoding => exact absurd decoding phase
    all_goals injection h with h; subst h
    case h_1 => exact .goesOn rfl
    case h_3 => exact gateStep_attemptStep s
    case h_4 => exact awaitSlotStep_attemptStep s
    case h_5 => exact holdHighStep_attemptStep s
    case h_6 => exact finalLowStep_attemptStep s
    case h_7 => exact hwWaitStep_attemptStep s

/-- In a cycle with `rst_n` high an instance is as its host left it, or its sequencer takes a step,
before which its host has at most acknowledged (R35, R59). -/
theorem step_host_or_turn (hI : s.Inv) (h : step s = .next t) (hr : s.input.rstLow = false)
    (k : Fin 8) : HostMove false s.params s.cycle (s.instAt k) (t.instAt k) ∨
      ∃ u v, OnlyAck (s.instAt k) u.inst ∧ seqStep u = .next v ∧ t.instAt k = v.inst := by
  obtain ⟨u, -, host, moved, unmoved⟩ := step_turn h hr k
  by_cases mover : k.val < s.params.nInst ∧ moves s s.input k = true
  · obtain ⟨v, turn, result⟩ := moved mover
    obtain ⟨-, ok, -⟩ := hI
    have running : (s.instAt k).phase ≠ .idle := fun idle => by simp [not_moves_of_idle idle] at mover
    exact .inr ⟨u.focus k, v, hostMove_ack host ((ok k).busy running), turn,
      result.trans (seqStep_inst turn).symm⟩
  · exact .inl (unmoved mover ▸ host)

end

/-! ## The statistics -/

/-- Under command word `w` the statistics go on from `g` to `g'`: no counter decreases, the epoch stays,
and only a SHOW counts (R346, R350). -/
def Stats.GrowTo (w : Word) (g g' : Stats) : Prop :=
  g.frames.toNat ≤ g'.frames.toNat ∧ g.aborted.toNat ≤ g'.aborted.toNat ∧ g'.start = g.start ∧
    (w.toNat % 256 ≠ 2 → g'.frames = g.frames ∧ g'.aborted = g.aborted)

theorem Stats.GrowTo.of_kept {w : Word} {g g' : Stats} (frames : g'.frames = g.frames)
    (aborted : g'.aborted = g.aborted) (start : g'.start = g.start) : g.GrowTo w g' :=
  ⟨frames ▸ le_rfl, aborted ▸ le_rfl, start, fun _ => ⟨frames, aborted⟩⟩

theorem Stats.GrowTo.refl {w : Word} (g : Stats) : g.GrowTo w g := .of_kept rfl rfl rfl

/-- A counter that saturates does not decrease (R346). -/
theorem le_sat32_succ (w : Word) : w.toNat ≤ (sat32 (w.toNat + 1)).toNat := by
  have := w.isLt
  rw [sat32_min]
  omega

/-- The bookkeeping of an attempt's end: a SHOW counts, a FORCE_CLEAR does not (R306, R346). -/
theorem noteEnd_growTo (x : Inst) (ok : Bool) (f : Time) :
    x.stats.GrowTo x.h.cmdword (x.noteEnd ok f).stats := by
  by_cases owned : x.ownedByShow = true
  · rw [noteEnd_of_show owned]
    refine ⟨le_sat32_succ _, ?_, rfl, fun other => absurd (x.ownedByShow_iff.mp owned) other⟩
    cases ok with
    | true => exact le_rfl
    | false => exact le_sat32_succ _
  · rw [noteEnd_of_other owned]
    exact .of_kept rfl rfl rfl

/-- Of the statistics an attempt's end writes those of its bookkeeping (R306). -/
theorem endAttempt_stats (x : Inst) (ok : Bool) (code : ErrCode) (f : Time) :
    (x.endAttempt ok code f).stats = (x.noteEnd ok f).stats := by
  cases ok with
  | true => rfl
  | false => exact endAttempt_failure_stats x code f

theorem AttemptStep.growTo {c : Time} {x y : Inst} (h : AttemptStep c x y) :
    x.stats.GrowTo x.h.cmdword y.stats := by
  cases h with
  | goesOn record =>
    obtain ⟨stats, -⟩ := Prod.mk.inj record
    exact stats ▸ .refl _
  | ends record =>
    simp only [Inst.record, Prod.mk.injEq] at record
    obtain ⟨stats, -, cmdword⟩ := record
    rw [endAttempt_stats, ← stats, ← cmdword]
    exact noteEnd_growTo _ _ c

/-- But for CLEAR_STATS a command counts nothing in its DECODE cycle (R350). -/
theorem command_growTo {i : Instr} (noClear : i ≠ .clearStats) (w : Word) (p : Params) (d : Time)
    (x : Inst) : x.stats.GrowTo w (x.command p d i).stats := by
  by_cases get : i = .getStats
  · subst get
    exact .of_kept rfl rfl rfl
  · rw [command_stats p d x get noClear]
    exact .refl _

/-- A sequencer's step but for the DECODE cycle of CLEAR_STATS (R350). -/
theorem seqStep_growTo {s t : State} (h : seqStep s = .next t)
    (noClear : s.inst.phase = .decode → decode s.inst.h.cmdword ≠ .command .clearStats) :
    s.inst.stats.GrowTo s.inst.h.cmdword t.inst.stats := by
  obtain illegal | ⟨i, phase, word, performed⟩ | attempt := seqStep_cases h
  · exact illegal ▸ .refl _
  · rw [performed]
    exact command_growTo (fun clear => noClear phase (clear ▸ word)) _ _ _ _
  · exact attempt.growTo

/-- Settles O55: no host access writes the statistics, and a sequencer's step makes them grow at most. -/
theorem statisticsAreMonotone : Obligations.StatisticsAreMonotone := by
  intro s t k hI h hr noClear
  show (s.instAt k).stats.GrowTo (s.instAt k).h.cmdword (t.instAt k).stats
  obtain host | ⟨u, v, ack, turn, result⟩ := step_host_or_turn hI h hr k
  · rw [(hostMove_access host).stats]
    exact .refl _
  · rw [← ack.stats, ← ack.h, result]
    exact seqStep_growTo turn (by rwa [ack.phase, ack.h])

/-! ## The line of a FORCE_CLEAR -/

theorem AttemptStep.doutOe {c : Time} {x y : Inst} (h : AttemptStep c x y) :
    y.pins.doutOe = x.pins.doutOe := by
  cases h with
  | goesOn record => exact congrArg (·.2.1) record
  | ends record => exact (endAttempt_only _ _ _ c).doutOe.trans (congrArg (·.2.1) record)

/-- FORCE_CLEAR and BEGIN drive the line, the other commands leave it alone (R341, R358). -/
theorem command_keeps_driven {x : Inst} (driven : x.pins.doutOe = true) (p : Params) (d : Time)
    (i : Instr) : (x.command p d i).pins.doutOe = true := by
  cases i with
  | beginLine => rfl
  | forceClear n => exact congrArg Pins.doutOe (forceClear_pins p n d x)
  | showFrame b => exact (congrArg Pins.doutOe (showDecode_pins x _)).trans driven
  | _ => exact driven

/-- No sequencer's step ceases to drive the line (R423). -/
theorem seqStep_keeps_driven {s t : State} (h : seqStep s = .next t)
    (driven : s.inst.pins.doutOe = true) : t.inst.pins.doutOe = true := by
  obtain illegal | ⟨i, -, -, performed⟩ | attempt := seqStep_cases h
  · exact illegal ▸ driven
  · exact performed ▸ command_keeps_driven driven _ _ _
  · exact attempt.doutOe.trans driven

/-- Once driven the line stays driven until reset (R423). -/
theorem step_keeps_driven {s t : State} (hI : s.Inv) (h : step s = .next t)
    (hr : s.input.rstLow = false) {k : Fin 8} (driven : (s.instAt k).pins.doutOe = true) :
    (t.instAt k).pins.doutOe = true := by
  obtain host | ⟨u, v, ack, turn, result⟩ := step_host_or_turn hI h hr k
  · rw [(hostMove_access host).pins, driven]
  · rw [result]
    exact seqStep_keeps_driven turn (ack.pins ▸ driven)

/-- After DECODE every phase but IDLE is one of a transmission. -/
theorem Inst.Ok.running {p : Params} {x : Inst} (h : x.Ok p) (started : x.phase ≠ .idle)
    (decoded : x.phase ≠ .decode) : x.Running := by
  have phaseOk := h.phaseOk
  unfold Inst.PhaseOk at phaseOk
  split at phaseOk
  case h_1 idle => exact absurd idle started
  case h_2 decoding => exact absurd decoding decoded
  case h_3 => exact phaseOk
  all_goals exact phaseOk.1

/-- A FORCE_CLEAR that ends in this cycle has driven the line, in its DECODE cycle, which is this one or
an earlier one (R341). -/
theorem step_forceClear_driven {s t : State} (hI : s.Inv) (h : step s = .next t)
    (hr : s.input.rstLow = false) {k : Fin 8} {n : Nat} (busy : (s.instAt k).status.busy = true)
    (ended : (t.instAt k).status.busy = false)
    (word : decode (s.instAt k).h.cmdword = .command (.forceClear n)) :
    (t.instAt k).pins.doutOe = true := by
  have ⟨_, ok, _⟩ := hI
  by_cases phase : (s.instAt k).phase = .decode
  · obtain host | ⟨u, v, ack, turn, result⟩ := step_host_or_turn hI h hr k
    · have stillBusy := (hostMove_ack host busy).busy
      rw [ended, busy] at stillBusy
      contradiction
    · rw [result, seqStep_command (ack.phase.trans phase) (ack.h ▸ word) turn]
      exact congrArg Pins.doutOe (forceClear_pins _ n _ _)
  · obtain ⟨-, -, -, -, -, drives⟩ := (ok k).running ((ok k).1.mp busy) phase
    obtain ⟨-, driven⟩ := drives (decode_forceClear word)
    exact step_keeps_driven hI h hr driven

/-- Settles O57: the ended FORCE_CLEAR has driven the line, and the invariant has an idle instance's
line low; `step_keeps_driven` is the rest. -/
theorem forceClearLeavesLineLow : Obligations.ForceClearLeavesLineLow := by
  intro s t k hI h hr
  refine ⟨fun busy ended ⟨n, word⟩ => ?_, step_keeps_driven hI h hr⟩
  have ⟨_, ok, _⟩ := stepKeepsInv s t hI h
  have driven := step_forceClear_driven hI h hr busy ended word
  have idle : (t.instAt k).phase = .idle := (ok k).idle ended
  have low : (t.instAt k).pins.dout = false := (ok k).low (by simp [idle])
  have line := State.lineLevel_of_unrouted driven (by simp [idle])
  exact ⟨driven, low, by simp [Inst.routed, idle], low ▸ line⟩

end Sys2Proof.Machine
end

section
/-! The report of an ended command (60_exceptions.md R380, R383, R385, R386). -/

namespace Sys2Proof.Machine

/-- If the sequencer is idle, STATUS reports the end of its command: IRQ_PEND is set, and ERR is NONE
exactly on success (R380). -/
def Inst.ReportsEnd (x : Inst) : Prop :=
  x.phase = .idle → x.status.irqPend = true ∧ (x.status.err = .none ↔ x.status.lastOk = true)

/-- A command that goes on has nothing to report. -/
theorem Inst.ReportsEnd.of_running {x : Inst} (running : x.phase ≠ .idle) : x.ReportsEnd :=
  fun idle => absurd idle running

/-! ## The ends of an attempt and of a command -/

section
variable (x : Inst)

/-- `finish` reports the end, provided that a failure has a code (R380). -/
theorem finish_reportsEnd {ok : Bool} {code : ErrCode} (coded : ok = true ∨ code ≠ .none) :
    (x.finish ok code).ReportsEnd := by
  refine fun _ => ⟨rfl, ?_⟩
  show (if ok then ErrCode.none else code) = .none ↔ ok = true
  cases ok with
  | true => simp
  | false => simpa using coded

theorem endAttempt_success_reportsEnd (f : Time) : (x.endAttempt true .none f).ReportsEnd :=
  finish_reportsEnd (x.noteEnd true f) (.inl rfl)

/-- A failed attempt ends the command with its code, or goes back to the gate (R306). -/
theorem failAttempt_reportsEnd {code : ErrCode} (coded : code ≠ .none) (f : Time) :
    (x.failAttempt code f).ReportsEnd := by
  rw [Inst.failAttempt, endAttempt_failure]
  split
  · exact finish_reportsEnd _ (.inr coded)
  · exact .of_running (by simp [Inst.enterGate])

theorem abort_reportsEnd (c : Time) : (x.abort c).ReportsEnd :=
  failAttempt_reportsEnd (x.setPin false) (by simp) c

/-- DECODE ends the command with a report, or leads to the gate (R300, R341, R381). -/
theorem command_reportsEnd (p : Params) (d : Time) (i : Instr) : (x.command p d i).ReportsEnd := by
  cases i with
  | nop => exact finish_reportsEnd _ (.inl rfl)
  | loadProfile => exact finish_reportsEnd _ (.inr (by simp))
  | showFrame b =>
    show (Inst.showDecode _ x).ReportsEnd
    unfold Inst.showDecode
    split_ifs
    · exact finish_reportsEnd _ (.inr (by simp))
    · exact finish_reportsEnd _ (.inr (by simp))
    · exact .of_running (by simp [Inst.captureShow])
  | forceClear n =>
    show (Inst.forceClear p n d x).ReportsEnd
    unfold Inst.forceClear
    split_ifs
    · exact finish_reportsEnd _ (.inr (by simp))
    · exact .of_running (by simp [Inst.captureClear])
  | getStats => exact finish_reportsEnd _ (.inl rfl)
  | clearStats => exact finish_reportsEnd _ (.inl rfl)
  | beginLine => exact finish_reportsEnd _ (.inl rfl)

end

/-! ## The sequencer's steps -/

section
variable {s : State}

/-! The steps that may wait leave the instance as it is then: it is `running` still. -/

theorem swStart_reportsEnd : (swStart s).inst.ReportsEnd := by
  rw [swStart_inst]
  split
  · exact endAttempt_success_reportsEnd _ _
  · exact .of_running (by simp [Inst.loadFirst])

theorem hwStart_reportsEnd : (hwStart s).inst.ReportsEnd := by
  by_cases empty : s.inst.h.len = 0
  · rw [hwStart_empty empty, State.onInst_inst]
    exact endAttempt_success_reportsEnd _ _
  · cases free : s.arb with
    | nil =>
      rw [hwStart_poolEmpty empty free, State.onInst_inst]
      exact failAttempt_reportsEnd _ (by simp) _
    | cons j rest =>
      rw [hwStart_grant empty free, grantSlot_inst]
      exact .of_running (by simp [Inst.enterWait])

theorem raiseAndAdvance_reportsEnd : (raiseAndAdvance s).inst.ReportsEnd :=
  .of_running (by simp [raiseAndAdvance_inst, Inst.goTo])

theorem gateStep_reportsEnd (running : s.inst.phase ≠ .idle) : (gateStep s).inst.ReportsEnd := by
  unfold gateStep startAttempt
  split_ifs
  · exact hwStart_reportsEnd
  · exact swStart_reportsEnd
  · exact .of_running running

theorem awaitSlotStep_reportsEnd (running : s.inst.phase ≠ .idle) :
    (awaitSlotStep s).inst.ReportsEnd := by
  unfold awaitSlotStep
  split_ifs
  · exact raiseAndAdvance_reportsEnd
  · rw [State.onInst_inst]
    exact abort_reportsEnd _ _
  · exact raiseAndAdvance_reportsEnd
  · exact .of_running running

theorem lower_reportsEnd (x : Inst) : x.lower.ReportsEnd := by
  refine .of_running ?_
  show (if x.h.eof then Phase.finalLow else .awaitSlot) ≠ .idle
  split <;> simp

theorem holdHighStep_reportsEnd (running : s.inst.phase ≠ .idle) :
    (holdHighStep s).inst.ReportsEnd := by
  unfold holdHighStep
  split_ifs
  · rw [State.onInst_inst]
    exact abort_reportsEnd _ _
  · rw [State.onInst_inst]
    exact lower_reportsEnd _
  · exact .of_running running

theorem finalLowStep_reportsEnd (running : s.inst.phase ≠ .idle) :
    (finalLowStep s).inst.ReportsEnd := by
  unfold finalLowStep
  split_ifs
  · rw [State.onInst_inst]
    exact endAttempt_success_reportsEnd _ _
  · exact .of_running running

theorem hwWaitStep_reportsEnd (running : s.inst.phase ≠ .idle) :
    (hwWaitStep s).inst.ReportsEnd := by
  unfold hwWaitStep
  split_ifs
  · rw [State.onInst_inst]
    exact endAttempt_success_reportsEnd _ _
  · rw [State.onInst_inst]
    exact failAttempt_reportsEnd _ (by simp) _
  · exact .of_running running

/-- A step that ends a command reports its end, whatever IRQ_PEND was before it (R380, R383). -/
theorem seqStep_reportsEnd {t : State} (running : s.inst.phase ≠ .idle) (h : seqStep s = .next t) :
    t.inst.ReportsEnd := by
  by_cases phase : s.inst.phase = .decode
  · cases word : decode s.inst.h.cmdword with
    | illegal why =>
      rw [seqStep_illegal phase word] at h
      injection h with h
      rw [← h, State.onInst_inst]
      exact finish_reportsEnd _ (.inr (by simp))
    | command i =>
      rw [seqStep_command phase word h]
      exact command_reportsEnd _ _ _ i
  · unfold seqStep at h
    split at h
    case h_1 idle => exact absurd idle running
    case h_2 decoding => exact absurd decoding phase
    all_goals injection h with h; subst h
    case h_3 => exact gateStep_reportsEnd running
    case h_4 => exact awaitSlotStep_reportsEnd running
    case h_5 => exact holdHighStep_reportsEnd running
    case h_6 => exact finalLowStep_reportsEnd running
    case h_7 => exact hwWaitStep_reportsEnd running

/-- A command that ends in a cycle ends in its sequencer's step, which reports it after the host's
access of that cycle (R35, R380, R383). -/
theorem step_reportsEnd {t : State} (hI : s.Inv) (h : step s = .next t) (hr : s.input.rstLow = false)
    {k : Fin 8} (busy : (s.instAt k).status.busy = true)
    (ended : (t.instAt k).status.busy = false) : (t.instAt k).ReportsEnd := by
  obtain host | ⟨u, v, ack, turn, result⟩ := step_host_or_turn hI h hr k
  · have stillBusy := (hostMove_ack host busy).busy
    rw [ended, busy] at stillBusy
    contradiction
  · have ⟨_, ok, _⟩ := hI
    have running : u.inst.phase ≠ .idle := ack.phase ▸ (ok k).1.mp busy
    exact result ▸ seqStep_reportsEnd running turn

/-- Only an instance in HW_WAIT holds a slot (R77, R278). -/
theorem State.PoolOk.owner_ne (h : s.PoolOk) {k : Fin 8} (other : (s.instAt k).phase ≠ .hwWait)
    {j : Fin 15} (used : (s.slotAt j).inUse = true) : (s.slotAt j).owner ≠ k := by
  obtain ⟨held, -, -⟩ := h
  obtain ⟨-, -, waits, -, -⟩ := held j used
  rintro rfl
  exact other waits

end

/-- Settles O54: `step_reportsEnd` is STATUS; the rest is what the invariant of the next state says of
an instance that is not busy. -/
theorem endedCommandIsReported : Obligations.EndedCommandIsReported := by
  intro s t k hI h hr busy ended
  have ⟨_, ok, _, pool, _⟩ := stepKeepsInv s t hI h
  have idle : (t.instAt k).phase = .idle := (ok k).idle ended
  obtain ⟨pending, coded⟩ := step_reportsEnd hI h hr busy ended idle
  exact ⟨pending, by simp [Inst.irq, pending], idle, (ok k).low (by simp [idle]), coded,
    fun _ used => pool.owner_ne (by simp [idle]) used⟩

end Sys2Proof.Machine
end

section
/-! A cycle with `rst_n` low (70_reset_and_hazards.md R420, R424). -/

namespace Sys2Proof.Machine

theorem resetCycle_ports (s : State) (e : Env) :
    (resetCycle s e).ports = (peripheralPhase s.resetUnit e (hostPhase s e)).ports := rfl

/-- The hosts signal no channel and read no source byte (R36). -/
theorem hostPhase_signals (s : State) (e : Env) :
    (hostPhase s e).ports.kicks = [] ∧ (hostPhase s e).ports.stops = [] ∧
      (hostPhase s e).ports.reads = [] := by
  rw [hostPhase_ports]
  have hosts := hostTurns_only e.rstLow s.ids s.openCycle
  exact ⟨hosts.kicks, hosts.stops, hosts.reads⟩

/-- While `rst_n` is low whatever a host reads is 0 (R420). -/
theorem hostTurn_rdata_of_rstLow {k : Fin 8} {s : State} {v : Word}
    (quiet : s.ports.rdata[k.val] = none) (h : (hostTurn true k s).ports.rdata[k.val] = some v) :
    v = 0 := by
  rw [(hostTurn_spec true k s).rdata, quiet] at h
  split at h
  case h_2 => exact (Option.some.inj h).symm
  case h_5 => exact (Option.some.inj h).symm
  all_goals cases h

theorem hostPhase_rdata_of_rstLow {s : State} {e : Env} (low : e.rstLow = true) {k : Fin 8}
    {v : Word} (h : (hostPhase s e).ports.rdata[k.val] = some v) : v = 0 := by
  have quiet : s.openCycle.ports.rdata[k.val] = none := Vector.getElem_replicate k.isLt
  obtain ⟨turn, outside⟩ := hostPhase_turn s e k
  rw [low] at turn
  rcases Nat.lt_or_ge k.val s.params.nInst with hk | hk
  · exact hostTurn_rdata_of_rstLow quiet ((turn hk).rdata.symm.trans h)
  · have none := (outside hk).rdata.trans quiet
    rw [h] at none
    cases none

/-- Settles O10: the unit ends as `State.resetUnit` says, the ports show the hosts' accesses and the
answers to pulls, which with no slot held read nothing, and the source space takes the stores. -/
theorem resetCycleClearsUnit : Obligations.ResetCycleClearsUnit := by
  intro s t h low
  obtain ⟨stored, mem⟩ := step_mem_stores h
  obtain ⟨-, ⟨-, rfl⟩ | ⟨high, -⟩⟩ := step_cases h
  · obtain ⟨rdata, kicks, stops, -⟩ :=
      peripheralPhase_ports s.resetUnit s.input (hostPhase s s.input)
    obtain ⟨noKick, noStop, noRead⟩ := hostPhase_signals s s.input
    have unread := peripheralPhase_noSlot s.resetUnit (fun j => by simp [Slot.reset]) s.input
      (hostPhase s s.input)
    refine ⟨State.resetUnit_instAt _, State.resetUnit_slotAt _, rfl, fun k v hv => ?_,
      kicks.trans noKick, stops.trans noStop, unread.trans noRead, fun a ha => ?_⟩
    · simp only [resetCycle_ports, rdata] at hv
      exact hostPhase_rdata_of_rstLow low hv
    · rw [mem]
      exact memFind_storeAll_ne _ _ _ (stored ▸ ha)
  · exact absurd (low.symm.trans high) (by decide)

end Sys2Proof.Machine
end

section
/-! The end of a run and its observation (70_reset_and_hazards.md R452). -/

namespace Sys2Proof.Machine

/-! ## The last cycle of a run -/

/-- The statements of a host that take a cycle (R138). -/
def realStmts (l : List HostStmt) : List HostStmt := l.filter (fun x => decide (x ≠ .idle 0))

theorem realStmts_skipIdle (l : List HostStmt) : realStmts (skipIdle l) = realStmts l := by
  induction l with
  | nil => rfl
  | cons x rest ih =>
    by_cases h : x = .idle 0
    · subst h
      exact ih
    · rw [skipIdle]
      exact fun _ e => h (List.cons.inj e).1

/-- What `skipIdle` leaves begins with no IDLE 0. -/
theorem skipIdle_head {l rest : List HostStmt} {x : HostStmt} (h : skipIdle l = x :: rest) :
    x ≠ .idle 0 := by
  induction l with
  | nil => cases h
  | cons y ys ih =>
    by_cases hy : y = .idle 0
    · subst hy
      exact ih h
    · rw [skipIdle] at h
      · exact (List.cons.inj h).1 ▸ hy
      · exact fun _ e => hy (List.cons.inj e).1

theorem skipIdle_eq_nil (l : List HostStmt) : skipIdle l = [] ↔ realStmts l = [] := by
  rw [← realStmts_skipIdle]
  cases h : skipIdle l with
  | nil => simp [realStmts]
  | cons x rest => simp [realStmts, skipIdle_head h]

/-- A run is over where its host has no statement left, or one that is performed in this very cycle
(R452, log 28). -/
theorem runEnds_iff (s : State) (k : Fin 8) :
    runEnds s k = true ↔ (s.instAt k).status.busy = false ∧
      (realStmts (s.hostAt k) = [] ∨ (∃ off z, realStmts (s.hostAt k) = [.read off z]) ∨
        realStmts (s.hostAt k) = [.waitIdle] ∨ realStmts (s.hostAt k) = [.idle 1]) := by
  rw [runEnds, Bool.and_eq_true, Bool.not_eq_true']
  refine and_congr_right fun _ => ?_
  rw [← realStmts_skipIdle]
  cases h : skipIdle (s.hostAt k) with
  | nil => simp [realStmts]
  | cons x rest =>
    have head : realStmts (x :: rest) = x :: realStmts rest := by
      simp [realStmts, skipIdle_head h]
    rw [head]
    cases x with
    | read off z => simp [skipIdle_eq_nil]
    | write off z w => simp
    | idle n =>
      have positive : n ≠ 0 := fun e => skipIdle_head h (e ▸ rfl)
      have last : n ≤ 1 ↔ n = 1 := by omega
      simp [skipIdle_eq_nil, last]
    | waitIdle => simp [skipIdle_eq_nil]
    | memw a bs => simp

/-! ## What is listed cycle by cycle -/

/-- What `f` lists of the cycle that `e` cycles from `s` lead to, by that cycle's start and end. -/
def perCycle {α : Type} (f : State → State → List α) (s : State) (e : Nat) : List α :=
  match runFor e s with
  | .next t =>
    match step t with
    | .next u => f t u
    | .fault _ => []
    | .refused _ => []
  | .fault _ => []
  | .refused _ => []

/-- The addresses instance k reads in a cycle, each with the cycle's number (R452). -/
def readTrace (k : Fin 8) (t u : State) : List (Time × Word) :=
  (u.readsOf k).map (fun a => (t.cycle, a))

/-- The value instance k's host reads in a cycle, if any (R452). -/
def readValue (k : Fin 8) (_ u : State) : List Word := (u.ports.rdata[k.val]).toList

theorem runFor_step {s t : State} (h : step s = .next t) (e : Nat) :
    runFor (e + 1) s = runFor e t := by simp [runFor, h]

section
variable {α : Type} (f : State → State → List α)

theorem perCycle_of_run {e : Nat} {s t u : State} (run : runFor e s = .next t)
    (h : step t = .next u) : perCycle f s e = f t u := by simp [perCycle, run, h]

theorem perCycle_succ {s t : State} (h : step s = .next t) (e : Nat) :
    perCycle f s (e + 1) = perCycle f t e := by rw [perCycle, runFor_step h, perCycle]

/-- The list of a run is that of its first cycle and of the run from there. -/
theorem flatMap_perCycle_succ {s t : State} (h : step s = .next t) (n : Nat) :
    (List.range (n + 1)).flatMap (perCycle f s) =
      f s t ++ (List.range n).flatMap (perCycle f t) := by
  rw [List.range_succ_eq_map, List.flatMap_cons, List.flatMap_map, perCycle_of_run f (e := 0) rfl h]
  simp only [Nat.succ_eq_add_one, perCycle_succ f h]

theorem flatMap_perCycle_one {s t : State} (h : step s = .next t) :
    (List.range 1).flatMap (perCycle f s) = f s t := by
  simpa using flatMap_perCycle_succ f h 0

end

/-! ## The observation -/

/-- `r` is what R452 observes of instance k's run from `s`. -/
structure Observed (k : Fin 8) (s : State) (r : Run) : Prop where
  run : runFor r.cycles s = .next r.final
  ends : runEnds r.final k = true
  goesOn : ∀ e t, e < r.cycles → runFor e s = .next t → runEnds t k = false
  length : r.line.length = r.cycles + 1
  line : ∀ e t, e ≤ r.cycles → runFor e s = .next t → r.line[e]? = some (t.lineSample k)
  reads : r.reads = (List.range (r.cycles + 1)).flatMap (perCycle (readTrace k) s)
  values : r.values = (List.range (r.cycles + 1)).flatMap (perCycle (readValue k) s)

theorem lastCycle_observed {k : Fin 8} {s t : State} (h : step s = .next t)
    (ends : runEnds s k = true) : Observed k s (lastCycle k s t) where
  run := rfl
  ends := ends
  goesOn _ _ early := absurd early (Nat.not_lt_zero _)
  length := rfl
  line e u first run := by
    obtain rfl := Nat.le_zero.mp first
    injection run with run
    exact run ▸ rfl
  reads := (flatMap_perCycle_one (readTrace k) h).symm
  values := (flatMap_perCycle_one (readValue k) h).symm

theorem Observed.after {k : Fin 8} {s t : State} {r : Run} (o : Observed k t r)
    (h : step s = .next t) (goesOn : runEnds s k = false) : Observed k s (r.after k s t) where
  run := (runFor_step h r.cycles).trans o.run
  ends := o.ends
  goesOn
    | 0, u, _, run => by
      injection run with run
      exact run ▸ goesOn
    | e + 1, u, early, run =>
      o.goesOn e u (Nat.lt_of_succ_lt_succ early) ((runFor_step h e).symm.trans run)
  length := congrArg (· + 1) o.length
  line
    | 0, u, _, run => by
      injection run with run
      exact run ▸ rfl
    | e + 1, u, inside, run =>
      o.line e u (Nat.le_of_succ_le_succ inside) ((runFor_step h e).symm.trans run)
  reads := by
    rw [flatMap_perCycle_succ (readTrace k) h]
    exact congrArg (readTrace k s t ++ ·) o.reads
  values := by
    rw [flatMap_perCycle_succ (readValue k) h]
    exact congrArg (readValue k s t ++ ·) o.values

/-- An observation is that of the run's last cycle, or begins with a cycle that is not the last. -/
theorem observe_succ {k : Fin 8} {s t : State} (h : step s = .next t) (n : Nat) :
    observe k (n + 1) s =
      if runEnds s k then some (lastCycle k s t) else (observe k n t).map (Run.after k s t) := by
  rw [observe, h]

theorem step_of_observe {k : Fin 8} {n : Nat} {s : State} {r : Run}
    (h : observe k (n + 1) s = some r) : ∃ t, step s = .next t := by
  rw [observe] at h
  cases hs : step s with
  | next t => exact ⟨t, rfl⟩
  | fault f => simp [hs] at h
  | refused f => simp [hs] at h

theorem observe_observed {k : Fin 8} {n : Nat} {s : State} {r : Run} (h : observe k n s = some r) :
    r.cycles < n ∧ Observed k s r := by
  induction n generalizing s r with
  | zero => cases h
  | succ n ih =>
    obtain ⟨t, ht⟩ := step_of_observe h
    rw [observe_succ ht] at h
    cases ends : runEnds s k with
    | true =>
      rw [ends] at h
      injection h with h
      exact h ▸ ⟨n.succ_pos, lastCycle_observed ht ends⟩
    | false =>
      simp only [ends, Bool.false_eq_true, if_false, Option.map_eq_some_iff] at h
      obtain ⟨q, hq, rfl⟩ := h
      obtain ⟨short, observed⟩ := ih hq
      exact ⟨Nat.succ_lt_succ short, observed.after ht ends⟩

/-- The build never changes (R9). -/
theorem step_params {s t : State} (h : step s = .next t) : t.params = s.params := by
  obtain ⟨-, ⟨-, rfl⟩ | ⟨-, u, hu, rfl⟩⟩ := step_cases h
  · exact resetCycle_params s s.input
  · exact (peripheralPhase_only s s.input u).params.trans
      ((seqSteps_only hu).1.params.trans (hostPhase_spec s s.input).params)

/-- A run that comes to its end within `n` cycles is observed: the machine never stops (R34). -/
theorem observe_of_runEnds {k : Fin 8} {n e : Nat} {s t : State} (legal : s.params.legal)
    (short : e < n) (run : runFor e s = .next t) (ends : runEnds t k = true) :
    ∃ r, observe k n s = some r := by
  induction n generalizing s e with
  | zero => cases short
  | succ n ih =>
    obtain ⟨u, hu⟩ := step_next legal
    rw [observe_succ hu]
    cases now : runEnds s k with
    | true => exact ⟨_, rfl⟩
    | false =>
      cases e with
      | zero =>
        injection run with run
        rw [← run, now] at ends
        cases ends
      | succ e =>
        obtain ⟨r, hr⟩ := ih (step_params hu ▸ legal) (Nat.lt_of_succ_lt_succ short)
          ((runFor_step hu e).symm.trans run)
        exact ⟨r.after k s u, by simp [hr]⟩

/-- Settles O49: `runEnds_iff` is the last cycle, `observe_observed` the observation by induction on
the cycles, and `observe_of_runEnds` that a run which ends has one. -/
theorem runEndsAtFirstIdleCycle : Obligations.RunEndsAtFirstIdleCycle := by
  refine ⟨fun k s => runEnds_iff s k, fun k n s legal => ⟨fun r h => ?_,
    fun e t short run ends => observe_of_runEnds legal short run ends⟩⟩
  obtain ⟨short, o⟩ := observe_observed h
  exact ⟨short, o.run, o.ends, ((runEnds_iff r.final k).mp o.ends).1, o.goesOn, o.length, o.line,
    perCycle (readTrace k) s, perCycle (readValue k) s, o.reads, o.values, fun _ _ _ _ run next =>
      ⟨perCycle_of_run (readTrace k) run next, perCycle_of_run (readValue k) run next⟩⟩

end Sys2Proof.Machine
end
